-- ==== Sys2Proof/Word.lean ====
section
/-! DEFINITION. The widths the spec uses: bytes, and the 16-, 32- and 64-bit quantities of registers, ring
fields and guest-physical addresses (spec/10_state.md R12, R13, R24). -/

namespace Sys2Proof

/-- One byte of guest memory, of a bus buffer, of a frame or of the configuration space. -/
abbrev Byte := BitVec 8

/-- A ring cursor, a ring index, a descriptor index, a `flags` half-word. -/
abbrev Half := BitVec 16

/-- A register value. -/
abbrev Word := BitVec 32

/-- A guest-physical address, or a 64-bit feature set. -/
abbrev Dword := BitVec 64

/-- The 12-bit byte offset of a bus transaction inside the register window (spec/30_encoding.md R70). -/
abbrev Offset := BitVec 12

end Sys2Proof
end

