-- ==== Sys2Proof/Machine/Bytes.lean ====
section
/-! DEFINITION. Byte order: everything is little-endian (spec/20_memory.md R41, notation `LE16`, `LE32`, `LE64`,
`bytesLE_N` of spec/00_scope.md R8). -/

namespace Sys2Proof.Machine

/-- The number a byte sequence stands for, byte 0 least significant. -/
def leNat : List Byte → Nat
  | [] => 0
  | b :: bs => b.toNat + 256 * leNat bs

/-- `LE16`. -/
def le16 (b : List Byte) : Half := BitVec.ofNat 16 (leNat b)

/-- `LE32`. -/
def le32 (b : List Byte) : Word := BitVec.ofNat 32 (leNat b)

/-- `LE64`. -/
def le64 (b : List Byte) : Dword := BitVec.ofNat 64 (leNat b)

/-- `bytesLE_n(v)`: `v` on `n` bytes, byte 0 least significant. -/
def bytesLE : Nat → Nat → List Byte
  | 0, _ => []
  | n + 1, v => BitVec.ofNat 8 v :: bytesLE n (v / 256)

/-- The slice `b[i .. i + n)` of a byte sequence (spec/00_scope.md R8). -/
def slice (b : List Byte) (i n : Nat) : List Byte := (b.drop i).take n

end Sys2Proof.Machine
end

