-- ==== Sys2Proof/Config.lean ====
section
/-! DEFINITION. The implementation parameters of spec/00_scope.md R4, every one of them a field of `Config`, the
fixed ones too; the configuration is a constant field of the machine's state, so that a claim about every state
quantifies over every configuration. -/

namespace Sys2Proof

/-- One region of the "memory-region list" behind `Mapped` (spec/20_memory.md R45): the addresses
`base .. base + size - 1`. -/
structure Region where
  base : Nat
  size : Nat
  deriving DecidableEq, Repr

/-- The parameters of spec/00_scope.md R4. -/
structure Config where
  /-- `MAGIC` -/
  magic : Word
  /-- `VENDOR_ID` -/
  vendorId : Word
  /-- `DEVICE_VERSION` -/
  deviceVersion : Word
  /-- `DEVICE_ID` -/
  deviceId : Word
  /-- `NUM_QUEUES` -/
  numQueues : Nat
  /-- `RXQ` -/
  rxIndex : Word
  /-- `TXQ` -/
  txIndex : Word
  /-- `QUEUE_NUM_MAX` -/
  queueNumMax : Word
  /-- `CONFIG_LEN` -/
  configLen : Nat
  /-- `MAC` (OPEN); `mac[0]` is the first octet on the wire (R23) -/
  mac : Vector Byte 6
  /-- `LINK_STATUS` (OPEN) -/
  linkStatus : Half
  /-- `MAX_VQ_PAIRS` (OPEN) -/
  maxVqPairs : Half
  /-- `MTU` (OPEN) -/
  mtu : Half
  /-- `SPEED` (OPEN) -/
  speed : Word
  /-- `DUPLEX` (OPEN) -/
  duplex : Byte
  /-- `EXTRA_FEATURES` -/
  extraFeatures : Dword
  /-- `NET_HDR_LEN` -/
  netHdrLen : Nat
  /-- `MAX_FRAME_LEN` -/
  maxFrameLen : Nat
  /-- `QUEUE_ALIGN` -/
  queueAlign : Nat
  /-- `QUEUE_PFN_READ` (OPEN) -/
  queuePfnRead : Word
  /-- `TX_USED_LEN` (OPEN) -/
  txUsedLen : Word
  /-- `IRQ_BIT[0]` -/
  irqBitRx : Word
  /-- `IRQ_BIT[1]` -/
  irqBitTx : Word
  /-- the memory-region list of `Mapped` (OPEN) -/
  regions : List Region
  /-- `MMIO_WINDOW` -/
  mmioWindow : Nat
  deriving DecidableEq, Repr

/-- The feature bits the block offers without `EXTRA_FEATURES` (spec/41_mmio_features.md R110): CSUM,
GUEST_CSUM, GUEST_TSO4, GUEST_TSO6, GUEST_UFO, HOST_TSO4, HOST_TSO6, HOST_UFO, VERSION_1. -/
def Config.baseFeatures : Dword := 0x0000000100005D83#64

/-- `k` is 1, 2, 4, 8, … -/
def isPowerOfTwo (k : Nat) : Bool := k != 0 && k &&& (k - 1) == 0

/-- The parameters that give the block its shape have the values R4 fixes (log 14): two banks, numbered 0 and 1
(spec/10_state.md R13), 17 configuration bytes (R23), and the window that the 12-bit offsets of spec/30_encoding.md
R71 address. -/
def Config.shapeOk (c : Config) : Bool :=
  c.numQueues == 2 && c.rxIndex == 0#32 && c.txIndex == 1#32 && c.configLen == 17 && c.mmioWindow == 0x1000

/-- The constraints of spec/00_scope.md R5 between the parameters, R4's type of `QUEUE_ALIGN`, the fixed shape, and
a `QUEUE_NUM_MAX` that spec/10_state.md R13 lets a bank hold ("a power of two, 1 to 256"). -/
def Config.wf (c : Config) : Bool :=
  c.shapeOk && isPowerOfTwo c.queueNumMax.toNat && decide (c.queueNumMax.toNat ≤ 256)
    && (c.netHdrLen == 10 || c.netHdrLen == 12)
    && decide (65550 ≤ c.maxFrameLen)
    && c.irqBitRx != 0 && c.irqBitTx != 0
    && c.extraFeatures &&& Config.baseFeatures == 0
    && isPowerOfTwo c.queueAlign

/-- The configuration CFG0 of spec/95_test_vectors.md section 0: the decided values of R4 and one value for
each OPEN parameter. `State.reset` uses it (DESIGN CHOICE, log 1, unsafe for a claim about that one state);
`State.resetWith` takes any other. -/
def Config.cfg0 : Config where
  magic := 0x74726976#32
  vendorId := 0x00001AF4#32
  deviceVersion := 2#32
  deviceId := 1#32
  numQueues := 2
  rxIndex := 0#32
  txIndex := 1#32
  queueNumMax := 256#32
  configLen := 17
  mac := #v[0x02#8, 0x00#8, 0x00#8, 0x00#8, 0x00#8, 0x01#8]
  linkStatus := 1#16
  maxVqPairs := 1#16
  mtu := 1500#16
  speed := 1000#32
  duplex := 1#8
  extraFeatures := 0#64
  netHdrLen := 12
  maxFrameLen := 65562
  queueAlign := 4096
  queuePfnRead := 0#32
  txUsedLen := 1#32
  irqBitRx := 1#32
  irqBitTx := 1#32
  regions := [{ base := 0, size := 0x08000000 }]
  mmioWindow := 0x1000

end Sys2Proof
end

