-- ==== Sys2Proof/Syntax.lean ====
section
/-! DEFINITION. The operations of the block, one constructor per operation of spec/30_encoding.md R80 (the four
table rows of RD_CONFIG, and of WR_CONFIG, are one operation each), and the register identifiers of
spec/10_state.md R21. -/

namespace Sys2Proof

/-- The direction of a bus transaction (spec/30_encoding.md R70). -/
inductive Dir where
  | read
  | write
  deriving DecidableEq, Repr

/-- The eighteen 32-bit registers of spec/10_state.md R21, by the names of the source. -/
inductive Reg where
  | magicValue | virtioVersion | deviceId | vendorId
  | hostFeatures | hostFeaturesSel | guestFeatures | guestFeaturesSel
  | guestPageSize | queueSel | queueNumMax | queueNum | queueAlign | queuePfn | queueNotify
  | interruptStatus | interruptAck | status
  deriving DecidableEq, Repr

/-- The twenty-five operations of spec/30_encoding.md R80. `v` is the 32-bit value of a register write (R73);
`k` and `n` are the configuration offset and the length of a DeviceSpecific access (spec/44 R160). -/
inductive Instr where
  | rdMagic
  | rdVersion
  | rdDeviceId
  | rdVendorId
  | rdHostFeatures
  | wrHostFeaturesSel (v : Word)
  | wrGuestFeatures (v : Word)
  | wrGuestFeaturesSel (v : Word)
  | wrGuestPageSize (v : Word)
  | wrQueueSel (v : Word)
  | rdQueueNumMax
  | wrQueueNum (v : Word)
  | wrQueueAlign (v : Word)
  | rdQueuePfn
  | wrQueuePfn (v : Word)
  | wrQueueNotify (v : Word)
  | rdInterruptStatus
  | wrInterruptAck (v : Word)
  | rdStatus
  | wrStatus (v : Word)
  | rdConfig (k : Offset) (n : Nat)
  | wrConfig (k : Offset) (n : Nat)
  | invalidAccess (dir : Dir) (offset : Offset) (len : Nat)
  | evtHostRxReady
  | evtPowerOn
  deriving DecidableEq, Repr

end Sys2Proof
end

