-- ==== Sys2Proof/Machine/RegMap.lean ====
section
/-! DEFINITION. The register map of spec/10_state.md R21: each register's offset and the operation an access in
each direction is (none: the direction the table marks with a dash, a RegisterError). -/

namespace Sys2Proof.Machine

/-- The offset column of R21. -/
def regOffset : Reg → Offset
  | .magicValue => 0x000#12
  | .virtioVersion => 0x004#12
  | .deviceId => 0x008#12
  | .vendorId => 0x00C#12
  | .hostFeatures => 0x010#12
  | .hostFeaturesSel => 0x014#12
  | .guestFeatures => 0x020#12
  | .guestFeaturesSel => 0x024#12
  | .guestPageSize => 0x028#12
  | .queueSel => 0x030#12
  | .queueNumMax => 0x034#12
  | .queueNum => 0x038#12
  | .queueAlign => 0x03C#12
  | .queuePfn => 0x040#12
  | .queueNotify => 0x050#12
  | .interruptStatus => 0x060#12
  | .interruptAck => 0x064#12
  | .status => 0x070#12

/-- Every register of R21. -/
def allRegs : List Reg :=
  [.magicValue, .virtioVersion, .deviceId, .vendorId, .hostFeatures, .hostFeaturesSel, .guestFeatures,
   .guestFeaturesSel, .guestPageSize, .queueSel, .queueNumMax, .queueNum, .queueAlign, .queuePfn,
   .queueNotify, .interruptStatus, .interruptAck, .status]

/-- "find the row with this exact offset" (spec/30_encoding.md R72 step 2). -/
def regAt (o : Offset) : Option Reg := allRegs.find? (fun r => regOffset r == o)

/-- The read operation of a register, where R21 allows reading. -/
def regRead : Reg → Option Instr
  | .magicValue => some .rdMagic
  | .virtioVersion => some .rdVersion
  | .deviceId => some .rdDeviceId
  | .vendorId => some .rdVendorId
  | .hostFeatures => some .rdHostFeatures
  | .hostFeaturesSel => none
  | .guestFeatures => none
  | .guestFeaturesSel => none
  | .guestPageSize => none
  | .queueSel => none
  | .queueNumMax => some .rdQueueNumMax
  | .queueNum => none
  | .queueAlign => none
  | .queuePfn => some .rdQueuePfn
  | .queueNotify => none
  | .interruptStatus => some .rdInterruptStatus
  | .interruptAck => none
  | .status => some .rdStatus

/-- The write operation of a register with the value `v`, where R21 allows writing. -/
def regWrite (v : Word) : Reg → Option Instr
  | .magicValue => none
  | .virtioVersion => none
  | .deviceId => none
  | .vendorId => none
  | .hostFeatures => none
  | .hostFeaturesSel => some (.wrHostFeaturesSel v)
  | .guestFeatures => some (.wrGuestFeatures v)
  | .guestFeaturesSel => some (.wrGuestFeaturesSel v)
  | .guestPageSize => some (.wrGuestPageSize v)
  | .queueSel => some (.wrQueueSel v)
  | .queueNumMax => none
  | .queueNum => some (.wrQueueNum v)
  | .queueAlign => some (.wrQueueAlign v)
  | .queuePfn => some (.wrQueuePfn v)
  | .queueNotify => some (.wrQueueNotify v)
  | .interruptStatus => none
  | .interruptAck => some (.wrInterruptAck v)
  | .status => some (.wrStatus v)

/-- The operation a 4-byte access to `o` is, where there is one (R72 steps 2, 3 and 5). -/
def regAccess (dir : Dir) (o : Offset) (v : Word) : Option Instr :=
  (regAt o).bind fun r =>
    match dir with
    | .read => regRead r
    | .write => regWrite v r

end Sys2Proof.Machine
end

