-- ==== Sys2Proof/WellFormed.lean ====
section
/-! DEFINITION. Which terms of `Instr` are operations of the block: those a byte image can stand for. -/

namespace Sys2Proof

open Sys2Proof.Machine

/-- A DeviceSpecific access has a 12-bit offset (`k = offset - 0x100`, spec/30 R71, spec/44 R160);
an INVALID_ACCESS is a transaction no other row takes: outside the DeviceSpecific range, and not a 4-byte access
to a register in a direction it has (spec/44 R162, spec/30 R80). Every other term is an operation. -/
def Instr.wf : Instr → Bool
  | .rdConfig k _ => decide (k.toNat + 0x100 < 2 ^ 12)
  | .wrConfig k _ => decide (k.toNat + 0x100 < 2 ^ 12)
  | .invalidAccess dir o len =>
      decide (o.toNat < 0x100) && !(len == 4 && (regAccess dir o 0#32).isSome)
  | .rdMagic => true
  | .rdVersion => true
  | .rdDeviceId => true
  | .rdVendorId => true
  | .rdHostFeatures => true
  | .wrHostFeaturesSel _ => true
  | .wrGuestFeatures _ => true
  | .wrGuestFeaturesSel _ => true
  | .wrGuestPageSize _ => true
  | .wrQueueSel _ => true
  | .rdQueueNumMax => true
  | .wrQueueNum _ => true
  | .wrQueueAlign _ => true
  | .rdQueuePfn => true
  | .wrQueuePfn _ => true
  | .wrQueueNotify _ => true
  | .rdInterruptStatus => true
  | .wrInterruptAck _ => true
  | .rdStatus => true
  | .wrStatus _ => true
  | .evtHostRxReady => true
  | .evtPowerOn => true

end Sys2Proof
end

