-- ==== Sys2Proof/Decode.lean ====
section
/-! DEFINITION. Decoding and encoding. An operation arrives as a byte image: the selector word of
spec/30_encoding.md R71 as two little-endian bytes (bits 15 and 14 zero), then the transaction's buffer, whose
length is the transaction's `len` (DESIGN CHOICE, log 3: the source has no wire format). Decoding the
transaction is R72. -/

namespace Sys2Proof

open Sys2Proof.Machine

/-- Why a byte image is no operation. All of these are refused by the step (spec/30_encoding.md R81: "such an
event does not exist; a model refuses it"); no guest access is among them. -/
inductive DecodeError where
  /-- fewer than two bytes: there is no selector word -/
  | noSelector
  /-- a bit of the selector word that R71 does not use (15, 14; bit 12 of an event) is set -/
  | reservedBits
  /-- an event number other than 1 and 2 (R81) -/
  | unknownEvent (number : Offset)
  /-- bytes after an event's selector word; an event has no buffer (R80: len "none") -/
  | eventBuffer
  deriving DecidableEq, Repr

/-- R72, on the transaction's direction, offset and buffer. -/
def decodeBus (dir : Dir) (o : Offset) (data : List Byte) : Instr :=
  if 0x100 ≤ o.toNat then
    match dir with
    | .read => .rdConfig (o - 0x100#12) data.length
    | .write => .wrConfig (o - 0x100#12) data.length
  else if data.length = 4 then
    (regAccess dir o (le32 data)).getD (.invalidAccess dir o data.length)
  else .invalidAccess dir o data.length

/-- The events of R71. -/
def decodeEvent (number : Offset) : Except DecodeError Instr :=
  if number = 0x001#12 then .ok .evtHostRxReady
  else if number = 0x002#12 then .ok .evtPowerOn
  else .error (.unknownEvent number)

/-- Bit 13 of the selector word tells a transaction from an event, bit 12 is the direction (R71). -/
def decodeSel (sel : Half) (data : List Byte) : Except DecodeError Instr :=
  if sel.extractLsb' 14 2 ≠ 0#2 then .error .reservedBits
  else if sel.getLsbD 13 then
    if sel.getLsbD 12 then .error .reservedBits
    else if data ≠ [] then .error .eventBuffer
    else decodeEvent (sel.extractLsb' 0 12)
  else .ok (decodeBus (if sel.getLsbD 12 then .write else .read) (sel.extractLsb' 0 12) data)

/-- The operation a byte image stands for. -/
def decode : List Byte → Except DecodeError Instr
  | b0 :: b1 :: data => decodeSel (le16 [b0, b1]) data
  | [_] => .error .noSelector
  | [] => .error .noSelector

/-- The image of a bus transaction (R71). -/
def encodeBus (dir : Dir) (o : Offset) (data : List Byte) : List Byte :=
  bytesLE 2 (o.toNat + (match dir with | .read => 0 | .write => 0x1000)) ++ data

/-- The image of a 4-byte register read; the caller's buffer, which the read overwrites, is zero. -/
def encodeRead (r : Reg) : List Byte := encodeBus .read (regOffset r) (bytesLE 4 0)

/-- The image of a 4-byte register write of `v` (R73: little-endian in the buffer). -/
def encodeWrite (r : Reg) (v : Word) : List Byte := encodeBus .write (regOffset r) (bytesLE 4 v.toNat)

/-- The image of an event. -/
def encodeEvent (number : Nat) : List Byte := bytesLE 2 (0x2000 + number)

/-- The byte image of an operation; buffer bytes that do not reach the operation are zero. -/
def encode : Instr → List Byte
  | .rdMagic => encodeRead .magicValue
  | .rdVersion => encodeRead .virtioVersion
  | .rdDeviceId => encodeRead .deviceId
  | .rdVendorId => encodeRead .vendorId
  | .rdHostFeatures => encodeRead .hostFeatures
  | .wrHostFeaturesSel v => encodeWrite .hostFeaturesSel v
  | .wrGuestFeatures v => encodeWrite .guestFeatures v
  | .wrGuestFeaturesSel v => encodeWrite .guestFeaturesSel v
  | .wrGuestPageSize v => encodeWrite .guestPageSize v
  | .wrQueueSel v => encodeWrite .queueSel v
  | .rdQueueNumMax => encodeRead .queueNumMax
  | .wrQueueNum v => encodeWrite .queueNum v
  | .wrQueueAlign v => encodeWrite .queueAlign v
  | .rdQueuePfn => encodeRead .queuePfn
  | .wrQueuePfn v => encodeWrite .queuePfn v
  | .wrQueueNotify v => encodeWrite .queueNotify v
  | .rdInterruptStatus => encodeRead .interruptStatus
  | .wrInterruptAck v => encodeWrite .interruptAck v
  | .rdStatus => encodeRead .status
  | .wrStatus v => encodeWrite .status v
  | .rdConfig k n => encodeBus .read (k + 0x100#12) (List.replicate n 0#8)
  | .wrConfig k n => encodeBus .write (k + 0x100#12) (List.replicate n 0#8)
  | .invalidAccess dir o len => encodeBus dir o (List.replicate len 0#8)
  | .evtHostRxReady => encodeEvent 1
  | .evtPowerOn => encodeEvent 2

/-- The image of the operation whose bits are `w` in spec/opcode_table.json's numbering. The table gives a row
its selector word only; the buffer of a transaction is then four zero bytes, the length every register row asks
for ("len: operand, must be 4"), and an event has none (DESIGN CHOICE, log 4). -/
def tableImage (nbits w : Nat) : List Byte :=
  let given := bytesLE (max 2 ((nbits + 7) / 8)) w
  if w.testBit 13 then given else given ++ List.replicate (6 - given.length) 0#8

/-- The instruction the decoder reads from an opcode-table row's bits. -/
def decodeTableWord (nbits w : Nat) : Option Instr :=
  match decode (tableImage nbits w) with
  | .ok i => some i
  | .error _ => none

end Sys2Proof
end

