-- ==== Sys2Proof/Machine/ConfigBytes.lean ====
section
/-! DEFINITION. The configuration space a configuration is built into: "fixed 17-byte little-endian layout"
(spec/10_state.md R23). -/

namespace Sys2Proof.Machine

/-- The 17 configuration bytes of a configuration (spec/10_state.md R23). -/
def configBytes (c : Config) : Vector Byte 17 :=
  #v[c.mac[0], c.mac[1], c.mac[2], c.mac[3], c.mac[4], c.mac[5],
     c.linkStatus.extractLsb' 0 8, c.linkStatus.extractLsb' 8 8,
     c.maxVqPairs.extractLsb' 0 8, c.maxVqPairs.extractLsb' 8 8,
     c.mtu.extractLsb' 0 8, c.mtu.extractLsb' 8 8,
     c.speed.extractLsb' 0 8, c.speed.extractLsb' 8 8, c.speed.extractLsb' 16 8, c.speed.extractLsb' 24 8,
     c.duplex]

end Sys2Proof.Machine
end

