-- ==== Sys2Proof/Machine/State.lean ====
section
/-! DEFINITION. The machine's state: the block's own state (spec/10_state.md R10), the parameters it was built
with (spec/00_scope.md R4), and the environment it acts on (guest memory, the host ports, what the guest and the
host are going to do), all of it plain data. -/

namespace Sys2Proof.Machine

/-- One of the two queues: `rx` is index 0, `tx` is index 1 (spec/00_scope.md R4). -/
inductive QueueId where
  | rx
  | tx
  deriving DecidableEq, Repr

/-- A per-queue register bank (spec/10_state.md R13). -/
structure Queue where
  size : Half
  descAddr : Dword
  availAddr : Dword
  usedAddr : Dword
  notifySuppressed : Bool
  nextAvail : Half
  nextUsed : Half
  signalledUsed : Half
  deriving DecidableEq, Repr

/-- The unconfigured bank: every field 0 (R33). -/
def Queue.zero : Queue where
  size := 0#16
  descAddr := 0#64
  availAddr := 0#64
  usedAddr := 0#64
  notifySuppressed := false
  nextAvail := 0#16
  nextUsed := 0#16
  signalledUsed := 0#16

/-- The five diagnostic counters (spec/10_state.md R31). -/
structure Diag where
  registerErrors : Nat
  malformedChains : Nat
  oversizedFrames : Nat
  guestMemoryFaults : Nat
  hostIoErrors : Nat
  deriving DecidableEq, Repr

/-- Every counter 0. -/
def Diag.zero : Diag where
  registerErrors := 0
  malformedChains := 0
  oversizedFrames := 0
  guestMemoryFaults := 0
  hostIoErrors := 0

/-- The outcome of a bus transaction (spec/30_encoding.md R70). -/
inductive BusOutcome where
  | ok
  | registerError
  deriving DecidableEq, Repr

/-- An output event (spec/00_scope.md R6, R8 "emit X(args)"). -/
inductive Event where
  /-- one frame handed to the host (spec/20_memory.md R47) -/
  | hostTxPush (bytes : List Byte)
  /-- one pulse on the interrupt channel (spec/47_interrupt_signal.md R222) -/
  | irqPulse (value : Nat)
  /-- activation with the negotiated features (spec/43 R147) -/
  | activateHook (features : Dword)
  /-- the status-driven reset (spec/70 R261) -/
  | resetHook
  deriving DecidableEq, Repr

/-- An error with the value it records (spec/60_exceptions.md R230, column "value recorded"). -/
inductive ErrorInfo where
  | registerError (dir : Dir) (offset : Offset) (len : Nat)
  | malformedChain (head : Half)
  | oversizedFrame (frameLen capacity : Nat)
  | guestMemoryFault (addr n : Nat)
  | hostIoError
  deriving DecidableEq, Repr

/-- The numeric code of an error's class (R230). -/
def ErrorInfo.code : ErrorInfo → Nat
  | .registerError _ _ _ => 1
  | .malformedChain _ => 2
  | .oversizedFrame _ _ => 3
  | .guestMemoryFault _ _ => 4
  | .hostIoError => 5

/-- Guest memory: the bytes that differ from what an unlisted address reads as, by rising address. -/
abbrev Memory := List Host.Cell

/-- One store of the guest (spec/30_encoding.md R84, `GUEST MemWrite`). -/
structure GuestStore where
  addr : Dword
  bytes : List Byte
  deriving DecidableEq, Repr

/-- The guest's turn before one memory access of the device (spec/20_memory.md R54): its stores, and, where the
access is one of the pieces of a non-atomic access (R52: "in any order"), which of the remaining pieces it is. -/
structure RaceTurn where
  stores : List GuestStore
  pick : Nat
  deriving DecidableEq, Repr

/-- What a `HostRxPop` returns (spec/20_memory.md R46). -/
inductive RxItem where
  | frame (bytes : List Byte)
  | error
  deriving DecidableEq, Repr

/-- What a `HostTxPush` returns (spec/20_memory.md R47). -/
inductive HostAnswer where
  | ok
  | error
  deriving DecidableEq, Repr

/-- What happens next, between two operations of the device. -/
inductive Input where
  /-- an operation of the device, as its byte image: a bus transaction of the guest, or an event -/
  | op (image : List Byte)
  /-- a store of the guest to its own memory (R84); not an operation of the device -/
  | guestStore (store : GuestStore)
  /-- the host queues a frame (or a read error) on its RX port (R84 `HOST RxPush`) -/
  | hostFrame (item : RxItem)
  deriving DecidableEq, Repr

/-- The machine's state. -/
structure State where
  /-- the parameters (spec/00_scope.md R4); no rule changes them -/
  cfg : Config
  /-- the device status byte (spec/10_state.md R17) -/
  status : Byte
  /-- between activation and the next reset or fault (R19) -/
  operational : Bool
  /-- a guest memory fault failed the device and no reset has followed: the sub-state "Failed by device" of
  spec/60_exceptions.md R245, which only a reset leaves (R237, R243; the model's field, log 16) -/
  failedByDevice : Bool
  /-- which half HostFeatures reads -/
  hostFeaturesSel : Word
  /-- which half GuestFeatures writes -/
  guestFeaturesSel : Word
  /-- the accepted features -/
  driverFeatures : Dword
  /-- the legacy page size -/
  pageSize : Word
  /-- the queue the queue registers act on -/
  queueSel : Word
  /-- the sticky interrupt bits (R18) -/
  interruptStatus : Word
  /-- bank 0 (R13) -/
  rxq : Queue
  /-- bank 1 (R13) -/
  txq : Queue
  /-- the 17 configuration bytes (R23) -/
  configSpace : Vector Byte 17
  /-- the diagnostic counters (R31) -/
  diag : Diag
  /-- guest-physical memory -/
  mem : Memory
  /-- the guest's turns before the coming memory accesses of the device -/
  race : List RaceTurn
  /-- what waits in the host RX port, oldest first -/
  rxPort : List RxItem
  /-- the answers of the coming `HostTxPush` calls -/
  txAnswers : List HostAnswer
  /-- what happens next -/
  inputs : List Input
  /-- how many operations have begun, the running one included (the model's field: power-on is the first or
  does not happen again, spec/70_reset_and_hazards.md R260, log 15) -/
  opsBegun : Nat
  /-- the outcome of the last bus transaction; none while an event runs or before the first -/
  busOutcome : Option BusOutcome
  /-- the buffer of the last bus transaction -/
  busBuffer : List Byte
  /-- the output events so far -/
  history : List Event
  /-- the errors so far, with the values they record -/
  errorLog : List ErrorInfo
  deriving DecidableEq, Repr

/-- What stops the machine. -/
inductive Fault where
  /-- Raised by WR_QUEUE_NOTIFY and EVT_HOST_RX_READY when the drain has not ended within `drainFuel`
  iterations: the run of spec/70_reset_and_hazards.md R271, which "keeps the operation running" without end.
  Safe: the machine stops where the block goes on (log 9). -/
  | drainUnfinished
  deriving DecidableEq, Repr

/-- Why an input has no meaning. -/
inductive Refusal where
  /-- Raised by no instruction of this model: every operation has its meaning. Safe. -/
  | notModelled (mnemonic : String)
  /-- Raised by EVT_POWER_ON when another operation has begun before it: "It happens exactly once, before any other
  operation" (spec/70_reset_and_hazards.md R260), so a later one has no meaning. Safe. -/
  | powerOnNotFirst
  /-- Raised by EVT_POWER_ON on parameters that break spec/00_scope.md R5 ("A model refuses a configuration that
  breaks one of them", log 13), or that are not of the shape of log 14. Safe. -/
  | badConfiguration
  /-- Raised by EVT_POWER_ON when `EXTRA_FEATURES` is not 0: the spec gives those bits no behaviour and "a model
  refuses such a configuration" (spec/30_encoding.md R82). Safe. -/
  | extraFeaturesUnsupported
  /-- Raised by the step on an input that is no operation (spec/30_encoding.md R81). Safe. -/
  | undecodable (why : DecodeError)
  /-- Raised by the step when the host queues a frame longer than `MAX_FRAME_LEN`, which spec/20_memory.md R46
  excludes (spec/93 I9: "a model may refuse a host frame longer than that"). Safe. -/
  | hostFrameTooLong
  deriving DecidableEq, Repr

/-- The machine right after power-on with the parameters `c` (spec/10_state.md R33), its environment empty. -/
def State.resetWith (c : Config) : State where
  cfg := c
  status := 0#8
  operational := false
  failedByDevice := false
  hostFeaturesSel := 0#32
  guestFeaturesSel := 0#32
  driverFeatures := 0#64
  pageSize := 0#32
  queueSel := 0#32
  interruptStatus := 0#32
  rxq := Queue.zero
  txq := Queue.zero
  configSpace := configBytes c
  diag := Diag.zero
  mem := []
  race := []
  rxPort := []
  txAnswers := []
  inputs := []
  opsBegun := 0
  busOutcome := none
  busBuffer := []
  history := []
  errorLog := []

/-- The machine right after reset: the state S0 of spec/95_test_vectors.md section 0, under CFG0. -/
def State.reset : State := State.resetWith Config.cfg0

end Sys2Proof.Machine
end

