-- ==== Sys2Proof/Machine/Ops.lean ====
section
/-! DEFINITION. The shared operations: guest memory and its accesses, the host ports, the bus reply, output
events, and what each error class does (spec/60_exceptions.md). The block takes no processor traps; the error
effects here are "trap entry for this block" (R242), and there is no return from one (R243). -/

namespace Sys2Proof.Machine

/-! ## Guest memory -/

/-- What a byte nothing has written reads as: 0 (spec/95_test_vectors.md section 0, state S0; DESIGN CHOICE,
log 2). -/
def unlistedByte : Byte := 0#8

/-- The byte at an address. -/
def memGet : Memory → Nat → Byte
  | [], _ => unlistedByte
  | (k, b) :: m, a => if k = a then b else memGet m a

/-- `m` with one entry in front, unless an unlisted address reads as that byte anyway. -/
def memCons (a : Nat) (b : Byte) (m : Memory) : Memory := if b = unlistedByte then m else (a, b) :: m

/-- Storing one byte, in canonical form. -/
def memSet : Memory → Nat → Byte → Memory
  | [], a, b => memCons a b []
  | (k, c) :: m, a, b =>
      if a < k then memCons a b ((k, c) :: m)
      else if a = k then memCons a b m
      else (k, c) :: memSet m a b

/-- The canonical form: addresses strictly rising and below 2^64, no entry that reads as an unlisted byte. -/
def Memory.wf : Memory → Bool
  | [] => true
  | (k, b) :: m =>
      decide (k < 2 ^ 64) && b != unlistedByte
        && (match m with | [] => true | (k', _) :: _ => decide (k < k')) && Memory.wf m

/-- The `n` bytes at `a`, lowest address first (addresses modulo 2^64). -/
def readBytes (m : Memory) (a : Dword) : Nat → List Byte
  | 0 => []
  | n + 1 => memGet m a.toNat :: readBytes m (a + 1#64) n

/-- Storing a byte sequence at `a` (addresses modulo 2^64). -/
def writeBytes : Memory → Dword → List Byte → Memory
  | m, _, [] => m
  | m, a, b :: bs => writeBytes (memSet m a.toNat b) (a + 1#64) bs

/-- The guest's stores of one turn, in order. -/
def applyStores : Memory → List GuestStore → Memory
  | m, [] => m
  | m, g :: gs => applyStores (writeBytes m g.addr g.bytes) gs

/-! ## A sub-operation's result -/

/-- What a sub-operation that accesses guest memory does: it answers a value and a state, or it raises
`GuestMemoryFault(addr, n)` in the state reached so far (spec/60_exceptions.md R242: errors are precise). -/
inductive Res (α : Type) where
  | ok (a : α) (s : State)
  | fault (addr n : Nat) (s : State)
  deriving DecidableEq, Repr

/-- One sub-operation after another; a fault abandons the rest. -/
def Res.bind {α β : Type} (r : Res α) (f : α → State → Res β) : Res β :=
  match r with
  | .ok a s => f a s
  | .fault addr n s => .fault addr n s

/-! ## Access to guest memory (spec/20_memory.md R43, R52, R54) -/

/-- `Mapped(addr, n)`: all of `addr .. addr + n - 1` lies in one region (R45). -/
def mapped (c : Config) (addr n : Nat) : Bool :=
  c.regions.any fun r => decide (r.base ≤ addr) && decide (addr + n ≤ r.base + r.size)

/-- An access of `n` bytes at `a` does not fault (R43). -/
def accessOk (s : State) (a : Dword) (n : Nat) : Bool :=
  decide (a.toNat + n ≤ 2 ^ 64) && mapped s.cfg a.toNat n

/-- The guest's turn before a memory access of the device (R54 item 2). -/
def guestTurn (s : State) : State :=
  match s.race with
  | [] => s
  | t :: race => { s with race := race, mem := applyStores s.mem t.stores }

/-- `MemRead(a, n)` as one access (R52: the ring fields). -/
def memRead (a : Dword) (n : Nat) (s : State) : Res (List Byte) :=
  if n = 0 then .ok [] s
  else if accessOk s a n then .ok (readBytes (guestTurn s).mem a n) (guestTurn s)
  else .fault a.toNat n s

/-- `MemWrite(a, len(bs), bs)` as one access (R52: the ring fields); on a fault it stores nothing. -/
def memWrite (a : Dword) (bs : List Byte) (s : State) : Res Unit :=
  if bs = [] then .ok () s
  else if accessOk s a bs.length then
    .ok () { guestTurn s with mem := writeBytes (guestTurn s).mem a bs }
  else .fault a.toNat bs.length s

/-- A piece of a non-atomic access: the bytes `off .. off + len - 1` of it. -/
structure Piece where
  off : Nat
  len : Nat
  deriving DecidableEq, Repr

/-- The pieces of a buffer access of `n` bytes: "byte by byte, in any order" (R52). -/
def bytePieces (n : Nat) : List Piece := (List.range n).map fun i => { off := i, len := 1 }

/-- The pieces of a descriptor read: "four separate field reads in any order" (R52, layout R76). -/
def descPieces : List Piece := [⟨0, 8⟩, ⟨8, 4⟩, ⟨12, 2⟩, ⟨14, 2⟩]

/-- `acc` with the bytes from `off` on replaced by `bs`. -/
def overlay (acc : List Byte) (off : Nat) (bs : List Byte) : List Byte :=
  acc.take off ++ bs ++ acc.drop (off + bs.length)

/-- The device address of a piece. -/
def pieceAddr (a : Dword) (p : Piece) : Dword := a + BitVec.ofNat 64 p.off

/-- Reading one piece into the buffer. -/
def readPiece (m : Memory) (a : Dword) (acc : List Byte) (p : Piece) : List Byte :=
  overlay acc p.off (readBytes m (pieceAddr a p) p.len)

/-- Reading the pieces one by one, the guest taking a turn before each and the turn saying which of the
remaining pieces is next; with no turn left, the rest in the given order. -/
def tornRead (a : Dword) : List RaceTurn → List Piece → Memory → List Byte →
    List Byte × Memory × List RaceTurn
  | [], ps, m, acc => (ps.foldl (readPiece m a) acc, m, [])
  | t :: race, [], m, acc => (acc, m, t :: race)
  | t :: race, p :: ps, m, acc =>
      let i := t.pick % (ps.length + 1)
      let m' := applyStores m t.stores
      tornRead a race ((p :: ps).eraseIdx i) m' (readPiece m' a acc ((p :: ps).getD i p))

/-- `MemRead(a, n)` in pieces (R52: descriptors and buffers). A guest with no turn left cannot be told from one
access. -/
def memReadTorn (pieces : List Piece) (a : Dword) (n : Nat) (s : State) : Res (List Byte) :=
  if n = 0 then .ok [] s
  else if accessOk s a n then
    match s.race with
    | [] => .ok (readBytes s.mem a n) s
    | race =>
        let r := tornRead a race pieces s.mem (List.replicate n 0#8)
        .ok r.1 { s with mem := r.2.1, race := r.2.2 }
  else .fault a.toNat n s

/-- Storing one piece of a buffer. -/
def writePiece (a : Dword) (bs : List Byte) (m : Memory) (p : Piece) : Memory :=
  writeBytes m (pieceAddr a p) (slice bs p.off p.len)

/-- Storing the pieces one by one, the guest taking a turn before each, as `tornRead` reads them. -/
def tornWrite (a : Dword) (bs : List Byte) : List RaceTurn → List Piece → Memory →
    Memory × List RaceTurn
  | [], ps, m => (ps.foldl (writePiece a bs) m, [])
  | t :: race, [], m => (m, t :: race)
  | t :: race, p :: ps, m =>
      let i := t.pick % (ps.length + 1)
      tornWrite a bs race ((p :: ps).eraseIdx i)
        (writePiece a bs (applyStores m t.stores) ((p :: ps).getD i p))

/-- `MemWrite(a, len(bs), bs)` of a buffer, byte by byte (R52); on a fault it stores nothing (R43). -/
def memWriteTorn (a : Dword) (bs : List Byte) (s : State) : Res Unit :=
  if bs = [] then .ok () s
  else if accessOk s a bs.length then
    match s.race with
    | [] => .ok () { s with mem := writeBytes s.mem a bs }
    | race =>
        let r := tornWrite a bs race (bytePieces bs.length) s.mem
        .ok () { s with mem := r.1, race := r.2 }
  else .fault a.toNat bs.length s

/-- `MemRead16` (spec/20_memory.md R44). -/
def memRead16 (a : Dword) (s : State) : Res Half := (memRead a 2 s).bind fun b s => .ok (le16 b) s

/-- `MemRead32`. -/
def memRead32 (a : Dword) (s : State) : Res Word := (memRead a 4 s).bind fun b s => .ok (le32 b) s

/-- `MemRead64`. -/
def memRead64 (a : Dword) (s : State) : Res Dword := (memRead a 8 s).bind fun b s => .ok (le64 b) s

/-- `MemWrite16`. -/
def memWrite16 (a : Dword) (v : Half) (s : State) : Res Unit := memWrite a (bytesLE 2 v.toNat) s

/-- `MemWrite32`. -/
def memWrite32 (a : Dword) (v : Word) (s : State) : Res Unit := memWrite a (bytesLE 4 v.toNat) s

/-! ## Registers -/

/-- The bank an index names. -/
def State.queue (s : State) : QueueId → Queue
  | .rx => s.rxq
  | .tx => s.txq

/-- Replacing a bank. -/
def State.setQueue (s : State) (i : QueueId) (q : Queue) : State :=
  match i with
  | .rx => { s with rxq := q }
  | .tx => { s with txq := q }

/-! ## Output events and the bus reply -/

/-- `emit X(args)` (spec/00_scope.md R8). -/
def State.emit (s : State) (e : Event) : State := { s with history := s.history ++ [e] }

/-- A write that succeeds: the outcome is `Ok` (spec/30_encoding.md R70). -/
def busOk (s : State) : State := { s with busOutcome := some .ok }

/-- A read that succeeds overwrites the caller's buffer (R70). -/
def busRead (data : List Byte) (s : State) : State := { s with busOutcome := some .ok, busBuffer := data }

/-- A register read: the buffer is `bytesLE_4(value)` (R73). -/
def busReadReg (v : Word) (s : State) : State := busRead (bytesLE 4 v.toNat) s

/-! ## Errors (spec/60_exceptions.md) -/

/-- Recording an error's value (R230). -/
def State.log (s : State) (e : ErrorInfo) : State := { s with errorLog := s.errorLog ++ [e] }

/-- `RegisterError` (R231): counted, the outcome, nothing else; a read's buffer keeps the caller's bytes. -/
def raiseRegisterError (dir : Dir) (o : Offset) (len : Nat) (s : State) : State :=
  { s.log (.registerError dir o len) with
    busOutcome := some .registerError
    diag := { s.diag with registerErrors := s.diag.registerErrors + 1 } }

/-- `MalformedChain` (R232): counted; the cursor is the caller's. -/
def countMalformedChain (head : Half) (s : State) : State :=
  { s.log (.malformedChain head) with
    diag := { s.diag with malformedChains := s.diag.malformedChains + 1 } }

/-- `OversizedFrame` (R233): a diagnostic. -/
def countOversizedFrame (frameLen cap : Nat) (s : State) : State :=
  { s.log (.oversizedFrame frameLen cap) with
    diag := { s.diag with oversizedFrames := s.diag.oversizedFrames + 1 } }

/-- `HostIoError` (R234): counted. -/
def countHostIoError (s : State) : State :=
  { s.log .hostIoError with diag := { s.diag with hostIoErrors := s.diag.hostIoErrors + 1 } }

/-- `DeviceFail`, the effect of a `GuestMemoryFault` (R237): counted, FAILED set, no longer operational, which lasts
"until the guest writes 0 to Status"; every other field as it is at the fault, no interrupt, no hook. -/
def deviceFail (addr n : Nat) (s : State) : State :=
  { s.log (.guestMemoryFault addr n) with
    diag := { s.diag with guestMemoryFaults := s.diag.guestMemoryFaults + 1 }
    status := s.status ||| 0x80#8
    operational := false
    failedByDevice := true }

/-! ## Resets (spec/70_reset_and_hazards.md) -/

/-- `DeviceReset()` (R261). -/
def deviceReset (s : State) : State :=
  { s.emit .resetHook with
    status := 0#8
    operational := false
    failedByDevice := false
    interruptStatus := 0#32
    driverFeatures := 0#64
    hostFeaturesSel := 0#32
    guestFeaturesSel := 0#32
    pageSize := 0#32
    queueSel := 0#32
    rxq := Queue.zero
    txq := Queue.zero }

/-- EVT_POWER_ON's assignments (R260): every register and counter 0, the configuration bytes from the
parameters; no hook, no pulse, no guest memory. The log of counted errors begins anew with the counters. -/
def powerOn (s : State) : State :=
  { s with
    configSpace := configBytes s.cfg
    status := 0#8
    operational := false
    failedByDevice := false
    hostFeaturesSel := 0#32
    guestFeaturesSel := 0#32
    driverFeatures := 0#64
    pageSize := 0#32
    queueSel := 0#32
    interruptStatus := 0#32
    rxq := Queue.zero
    txq := Queue.zero
    diag := Diag.zero
    errorLog := [] }

/-! ## The host ports (spec/20_memory.md R46, R47) -/

/-- `HostRxReady()`: a frame is waiting; nothing is consumed. -/
def hostRxReady (s : State) : Bool := !s.rxPort.isEmpty

/-- `HostRxPop()`: the oldest waiting frame, or the read error in its place. It is called only when a frame is
waiting; on an empty port it answers nothing. -/
def hostRxPop (s : State) : Option RxItem × State :=
  match s.rxPort with
  | [] => (none, s)
  | item :: rest => (some item, { s with rxPort := rest })

/-- The host's answer to the next frame: the next of `txAnswers`, `Ok` past their end (DESIGN CHOICE, log 11). -/
def nextTxAnswer : List HostAnswer → HostAnswer
  | [] => .ok
  | a :: _ => a

/-- `HostTxPush(bytes)`: one output event, and the host's answer. -/
def hostTxPush (bytes : List Byte) (s : State) : HostAnswer × State :=
  (nextTxAnswer s.txAnswers, { s.emit (.hostTxPush bytes) with txAnswers := s.txAnswers.drop 1 })

end Sys2Proof.Machine
end

