-- ==== Sys2Proof/Machine/Operands.lean ====
section
/-! DEFINITION. Operand forms (spec/30_encoding.md R73 to R75): queue indices, feature halves, page-frame
scaling, ring addresses, ring slots, the configuration-byte window. -/

namespace Sys2Proof.Machine

/-- The queue an index names: below `NUM_QUEUES`, `RXQ` or `TXQ` (spec/00_scope.md R4; with R4's values an index
"must be 0 or 1", spec/10_state.md R32). -/
def queueOf (c : Config) (v : Word) : Option QueueId :=
  if c.numQueues ≤ v.toNat then none
  else if v = c.rxIndex then some .rx
  else if v = c.txIndex then some .tx
  else none

/-- `OFFERED_FEATURES` (spec/41_mmio_features.md R110). -/
def offeredFeatures (c : Config) : Dword := Config.baseFeatures ||| c.extraFeatures

/-- The negotiated set: offered AND accepted (R110). -/
def negotiated (s : State) : Dword := offeredFeatures s.cfg &&& s.driverFeatures

/-- The half of a feature set that a selector picks; none for a selector of 2 or more (R111). -/
def featureHalf (sel : Word) (f : Dword) : Word :=
  if sel = 0#32 then f.extractLsb' 0 32 else if sel = 1#32 then f.extractLsb' 32 32 else 0#32

/-- A feature set with the selected half replaced (spec/41 R113). -/
def setFeatureHalf (sel : Word) (f : Dword) (v : Word) : Dword :=
  if sel = 0#32 then f.extractLsb' 32 32 ++ v
  else if sel = 1#32 then v ++ f.extractLsb' 0 32
  else f

/-- Page-frame scaling: the 64-bit product of two 32-bit numbers (spec/30 R75, spec/20 R58). -/
def pageAddr (pfn pageSize : Word) : Dword := pfn.zeroExtend 64 * pageSize.zeroExtend 64

/-- `AlignUp(a, k)` (spec/10_state.md R15). -/
def alignUp (a k : Nat) : Nat := (a + k - 1) / k * k

/-- The available ring's address (R15). -/
def availAddrOf (desc : Dword) (size : Half) : Dword := desc + 16#64 * size.zeroExtend 64

/-- The used ring's address (R15), modulo 2^64. -/
def usedAddrOf (align : Nat) (avail : Dword) (size : Half) : Dword :=
  BitVec.ofNat 64 (alignUp (avail.toNat + 2 * (3 + size.toNat)) align)

/-- A bank with both ring addresses as `RingAddrs` gives them from its own `desc_addr` and `size` (R15). -/
def placeRings (align : Nat) (q : Queue) : Queue :=
  { q with
    availAddr := availAddrOf q.descAddr q.size
    usedAddr := usedAddrOf align (availAddrOf q.descAddr q.size) q.size }

/-- A legal ring size: a power of two from 1 to `QUEUE_NUM_MAX`. spec/42_mmio_queue.md R123 writes the bound as the
literal 256, which is the value spec/00_scope.md R4 gives that parameter; that a block built with a smaller one takes
sizes up to it only is the model's choice (DESIGN CHOICE, log 27, unsafe for such a block). -/
def legalQueueNum (c : Config) (v : Word) : Bool :=
  v != 0#32 && decide (v.toNat ≤ c.queueNumMax.toNat) && v &&& (v - 1#32) == 0#32

/-- `Configured(i)` (spec/10_state.md R16). -/
def configured (q : Queue) : Bool := q.size != 0#16 && q.descAddr != 0#64

/-- The ring slot a cursor selects: `cursor mod size` (spec/30 R75). -/
def slotOf (cursor size : Half) : Nat := cursor.toNat % size.toNat

/-! The effective addresses of spec/45_virtqueue_engine.md R184. -/

/-- descriptor `k` -/
def descEntryAddr (q : Queue) (k : Half) : Dword := q.descAddr + 16#64 * k.zeroExtend 64

/-- available `flags` -/
def availFlagsAddr (q : Queue) : Dword := q.availAddr

/-- available `idx` -/
def availIdxAddr (q : Queue) : Dword := q.availAddr + 2#64

/-- available `ring[s]`, `s` the slot of `next_avail` -/
def availRingAddr (q : Queue) : Dword :=
  q.availAddr + 4#64 + BitVec.ofNat 64 (2 * slotOf q.nextAvail q.size)

/-- used `flags` -/
def usedFlagsAddr (q : Queue) : Dword := q.usedAddr

/-- used `idx` -/
def usedIdxAddr (q : Queue) : Dword := q.usedAddr + 2#64

/-- used `ring[s].id`, `s` the slot of `next_used` -/
def usedIdAddr (q : Queue) : Dword :=
  q.usedAddr + 4#64 + BitVec.ofNat 64 (8 * slotOf q.nextUsed q.size)

/-- used `ring[s].len` -/
def usedLenAddr (q : Queue) : Dword :=
  q.usedAddr + 8#64 + BitVec.ofNat 64 (8 * slotOf q.nextUsed q.size)

/-- A DeviceSpecific access stays inside the `CONFIG_LEN` bytes (spec/44 R160). -/
def configExtentOk (c : Config) (k : Offset) (n : Nat) : Bool := n != 0 && decide (k.toNat + n ≤ c.configLen)

/-- `config_space[k .. k + n)` (spec/44 R160). -/
def configSlice (c : Vector Byte 17) (k : Offset) (n : Nat) : List Byte := slice c.toList k.toNat n

/-- The register offset of a configuration byte. -/
def configOffset (k : Offset) : Offset := k + 0x100#12

end Sys2Proof.Machine
end

