-- ==== Sys2Proof/Machine/ConfigRegs.lean ====
section
/-! DEFINITION. The configuration bytes and invalid accesses (spec/44_mmio_config_invalid.md). -/

namespace Sys2Proof.Machine

/-- RD_CONFIG (R160): the bytes whole, or a RegisterError and no byte. -/
def execRdConfig (k : Offset) (n : Nat) (s : State) : Host.Outcome State Fault Refusal :=
  if configExtentOk s.cfg k n then .next (busRead (configSlice s.configSpace k n) s)
  else .next (raiseRegisterError .read (configOffset k) n s)

/-- WR_CONFIG (R161): always rejected. -/
def execWrConfig (k : Offset) (n : Nat) (s : State) : Host.Outcome State Fault Refusal :=
  .next (raiseRegisterError .write (configOffset k) n s)

/-- INVALID_ACCESS (R162). -/
def execInvalidAccess (dir : Dir) (o : Offset) (len : Nat) (s : State) : Host.Outcome State Fault Refusal :=
  .next (raiseRegisterError dir o len s)

end Sys2Proof.Machine
end

