-- ==== Sys2Proof/Machine/Flags.lean ====
section
/-! DEFINITION. The flag bytes: device status (spec/10_state.md R17), interrupt status (R18), and the two
suppression flags (R20). -/

namespace Sys2Proof.Machine

/-- DRIVER_OK is bit 2 (R17). -/
def driverOk (b : Byte) : Bool := b.getLsbD 2

/-- FAILED is bit 7 (R17). -/
def failedBit (b : Byte) : Bool := b.getLsbD 7

/-- The byte of a Status write: `v[7:0]` (R22, spec/43 R143). -/
def statusByte (v : Word) : Byte := v.extractLsb' 0 8

/-- DRIVER_OK goes from 0 to 1 on a block that is not operational (spec/43 R143, R145), and that no guest memory
fault holds down: after one "the guest must reset" (R145 corner case 3; spec/60 R237, R243; log 16). -/
def activates (s : State) (b : Byte) : Bool :=
  !driverOk s.status && driverOk b && !s.operational && !s.failedByDevice

/-- `IRQ_BIT[i]` (R18, spec/00 R4). -/
def irqBit (c : Config) : QueueId → Word
  | .rx => c.irqBitRx
  | .tx => c.irqBitTx

/-- An acknowledge clears exactly the named bits (spec/43 R141). -/
def ackBits (old named : Word) : Word := old &&& ~~~named

/-- Setting `IRQ_BIT[i]` is a 0-to-1 transition: the edge of spec/47_interrupt_signal.md R221. -/
def irqEdge (old bit : Word) : Bool := old &&& bit == 0#32

/-- Bit 0 of a ring's `flags` half-word, the suppression flag (R20, spec/30 R77, R78). -/
def suppressFlag (flags : Half) : Bool := flags.getLsbD 0

end Sys2Proof.Machine
end

