-- ==== Sys2Proof/Machine/Chain.lean ====
section
/-! DEFINITION. Descriptors and chains (spec/45_virtqueue_engine.md R171 to R173, layout spec/30_encoding.md R76). -/

namespace Sys2Proof.Machine

/-- A descriptor record (R76). -/
structure Desc where
  addr : Dword
  len : Word
  flags : Half
  next : Half
  deriving DecidableEq, Repr

/-- The record in the 16 bytes of a descriptor (R171). -/
def descOf (b : List Byte) : Desc where
  addr := le64 (slice b 0 8)
  len := le32 (slice b 8 4)
  flags := le16 (slice b 12 2)
  next := le16 (slice b 14 2)

/-- The continuation flag `NEXT`, bit 0 (R76). -/
def Desc.hasNext (d : Desc) : Bool := d.flags.getLsbD 0

/-- `DescRead(i, index)` (R171): one read of the record, in the pieces of spec/20 R52. -/
def descRead (i : QueueId) (index : Half) (s : State) : Res Desc :=
  (memReadTorn descPieces (descEntryAddr (s.queue i) index) 16 s).bind fun b s => .ok (descOf b) s

/-- The loop of `WalkChain` with `rem = n - count` descriptors still allowed; `none` is MalformedChain. The
checks stand in the order W2, the read (which may fault), W3, W4 (spec/60 R239). -/
def walkFrom (i : QueueId) (n : Nat) : Nat → Half → Bool → State → Res (Option (List Desc))
  | 0, _, _, s => .ok none s
  | rem + 1, index, first, s =>
      (descRead i index s).bind fun d s =>
        if first && decide (d.len.toNat < s.cfg.netHdrLen) then .ok none s
        else if !d.hasNext then .ok (some [d]) s
        else if n ≤ d.next.toNat then .ok none s
        else
          (walkFrom i n rem d.next false s).bind fun rest s => .ok (rest.map (d :: ·)) s

/-- `WalkChain(i, head)` (R172): the chain's records, or `none` for MalformedChain(head). -/
def walkChain (i : QueueId) (head : Half) (s : State) : Res (Option (List Desc)) :=
  if (s.queue i).size.toNat ≤ head.toNat then .ok none s
  else walkFrom i (s.queue i).size.toNat (s.queue i).size.toNat head true s

/-- `Capacity(list)` (R173). -/
def capacity : List Desc → Nat
  | [] => 0
  | d :: ds => d.len.toNat + capacity ds

end Sys2Proof.Machine
end

