-- ==== Sys2Proof/Machine/Rings.lean ====
section
/-! DEFINITION. The ring arbiter (spec/45_virtqueue_engine.md R174 to R179) and the interrupt edge-detector
(spec/47_interrupt_signal.md R221). -/

namespace Sys2Proof.Machine

/-- `AvailPending(i)` (R174): equality of two 16-bit values, nothing more. -/
def availPending (i : QueueId) (s : State) : Res Bool :=
  (memRead16 (availIdxAddr (s.queue i)) s).bind fun idx s => .ok (idx != (s.queue i).nextAvail) s

/-- `AvailPeek(i)` (R174): the head index in the next slot; the cursor stays. -/
def availPeek (i : QueueId) (s : State) : Res Half := memRead16 (availRingAddr (s.queue i)) s

/-- `AvailAdvance(i)` (R175): modulo 2^16. -/
def availAdvance (i : QueueId) (s : State) : State :=
  s.setQueue i { s.queue i with nextAvail := (s.queue i).nextAvail + 1#16 }

/-- `NotifyDisable(i)` (R176). -/
def notifyDisable (i : QueueId) (s : State) : Res Unit :=
  memWrite16 (usedFlagsAddr (s.queue i)) 1#16 (s.setQueue i { s.queue i with notifySuppressed := true })

/-- `NotifyEnable(i)` (R177). -/
def notifyEnable (i : QueueId) (s : State) : Res Unit :=
  memWrite16 (usedFlagsAddr (s.queue i)) 0#16 (s.setQueue i { s.queue i with notifySuppressed := false })

/-- The re-check that closes the race (spec/45 R181): re-enable notifications, look once more, and where an
entry raced in disable them again. The answer says whether to drain again. -/
def reArm (i : QueueId) (s : State) : Res Bool :=
  (notifyEnable i s).bind fun _ s =>
    (availPending i s).bind fun raced s =>
      if raced then (notifyDisable i s).bind fun _ s => .ok true s else .ok false s

/-- Advancing `next_used` by one, modulo 2^16 (R179). -/
def usedAdvance (i : QueueId) (s : State) : State :=
  s.setQueue i { s.queue i with nextUsed := (s.queue i).nextUsed + 1#16 }

/-- `UsedPost(i, head, n)` (R179): `id`, then `len`, then the cursor, then `idx`. -/
def usedPost (i : QueueId) (head : Half) (n : Word) (s : State) : Res Unit :=
  (memWrite32 (usedIdAddr (s.queue i)) (head.zeroExtend 32) s).bind fun _ s =>
    (memWrite32 (usedLenAddr (s.queue i)) n s).bind fun _ s =>
      memWrite16 (usedIdxAddr (s.queue i)) ((s.queue i).nextUsed + 1#16) (usedAdvance i s)

/-- Setting `IRQ_BIT[i]`, with one pulse when the bit was clear (spec/47 R221, R222: the value is always 1). -/
def raiseIrq (i : QueueId) (s : State) : State :=
  if irqEdge s.interruptStatus (irqBit s.cfg i) then
    State.emit { s with interruptStatus := s.interruptStatus ||| irqBit s.cfg i } (.irqPulse 1)
  else { s with interruptStatus := s.interruptStatus ||| irqBit s.cfg i }

/-- `MaybeNotify(i)` (spec/47 R221). -/
def maybeNotify (i : QueueId) (s : State) : Res Unit :=
  if (s.queue i).nextUsed = (s.queue i).signalledUsed then .ok () s
  else
    (memRead16 (availFlagsAddr (s.queue i))
        (s.setQueue i { s.queue i with signalledUsed := (s.queue i).nextUsed })).bind fun f s =>
      if suppressFlag f then .ok () s else .ok () (raiseIrq i s)

end Sys2Proof.Machine
end

