-- ==== Sys2Proof/Machine/Transfer.lean ====
section
/-! DEFINITION. Frame transfer between chains and the host ports (spec/46_frame_transfer.md R200 to R203). -/

namespace Sys2Proof.Machine

/-- The copy loop of `RxTransfer` from `cursor` on; the answer is the cursor where it ends (R200). -/
def rxCopy (frame : List Byte) : List Desc → Nat → State → Res Nat
  | [], cursor, s => .ok cursor s
  | d :: ds, cursor, s =>
      if cursor = frame.length then .ok cursor s
      else
        (memWriteTorn d.addr (slice frame cursor (min d.len.toNat (frame.length - cursor))) s).bind fun _ s =>
          rxCopy frame ds (cursor + min d.len.toNat (frame.length - cursor)) s

/-- `RxTransfer(list, frame)` (R200): how many bytes were copied; a frame that did not fit is an OversizedFrame
diagnostic. -/
def rxTransfer (chain : List Desc) (frame : List Byte) (s : State) : Res Nat :=
  (rxCopy frame chain 0 s).bind fun cursor s =>
    if cursor < frame.length then .ok cursor (countOversizedFrame frame.length (capacity chain) s)
    else .ok cursor s

/-- The gather loop of `TxTransfer`: the concatenation of the chain's buffers (R202). -/
def txGather : List Desc → State → Res (List Byte)
  | [], s => .ok [] s
  | d :: ds, s =>
      (memReadTorn (bytePieces d.len.toNat) d.addr d.len.toNat s).bind fun b s =>
        (txGather ds s).bind fun rest s => .ok (b ++ rest) s

/-- Handing a frame to the host; a refusal is a HostIoError, counted, and the frame is dropped (R202). -/
def pushFrame (bytes : List Byte) (s : State) : State :=
  match hostTxPush bytes s with
  | (.ok, s) => s
  | (.error, s) => countHostIoError s

/-- `TxTransfer(list)` (R202): the push happens only after every descriptor has been read. -/
def txTransfer (chain : List Desc) (s : State) : Res Unit :=
  (txGather chain s).bind fun bytes s => .ok () (pushFrame bytes s)

end Sys2Proof.Machine
end

