-- ==== Sys2Proof/Machine/Drain.lean ====
section
/-! DEFINITION. The two drains: `ProcessTx` (spec/45_virtqueue_engine.md R180) and `PumpRx`
(spec/46_frame_transfer.md R204). The spec sets no bound on their iterations (spec/70 R271); the loops here take
`drainFuel` iterations and answer `none` when that is not enough (log 9). -/

namespace Sys2Proof.Machine

/-- One chain of the TX drain, an entry being pending: peek, advance, walk, transfer, post (R180). -/
def txChain (s : State) : Res Unit :=
  (availPeek .tx s).bind fun head s =>
    (walkChain .tx head (availAdvance .tx s)).bind fun chain s =>
      match chain with
      | none => .ok () (countMalformedChain head s)
      | some list =>
          (txTransfer list s).bind fun _ s => usedPost .tx head s.cfg.txUsedLen s

/-- The loops of `ProcessTx` after the first `NotifyDisable`: while an entry is pending take it, else re-arm and
look once more. -/
def txLoop : Nat → State → Option (Res Unit)
  | 0, _ => none
  | fuel + 1, s =>
      match availPending .tx s with
      | .fault a n s => some (.fault a n s)
      | .ok true s =>
          match txChain s with
          | .fault a n s => some (.fault a n s)
          | .ok _ s => txLoop fuel s
      | .ok false s =>
          match reArm .tx s with
          | .fault a n s => some (.fault a n s)
          | .ok true s => txLoop fuel s
          | .ok false s => some (.ok () s)

/-- A well-formed chain and a waiting frame: pop, advance, copy, post; on a host error the chain is not taken,
notifications are re-enabled and the pump stops (R204). The answer says whether to go on. -/
def rxDeliver (head : Half) (list : List Desc) (s : State) : Res Bool :=
  match hostRxPop s with
  | (none, s) => .ok false s
  | (some .error, s) => (notifyEnable .rx (countHostIoError s)).bind fun _ s => .ok false s
  | (some (.frame bytes), s) =>
      (rxTransfer list bytes (availAdvance .rx s)).bind fun n s =>
        (usedPost .rx head (BitVec.ofNat 32 n) s).bind fun _ s => .ok true s

/-- One chain of the RX pump, a frame and an entry being there (R204): a malformed chain is skipped and the
frame stays. -/
def rxChain (s : State) : Res Bool :=
  (availPeek .rx s).bind fun head s =>
    (walkChain .rx head s).bind fun chain s =>
      match chain with
      | none => .ok true (countMalformedChain head (availAdvance .rx s))
      | some list => rxDeliver head list s

/-- The loop of `PumpRx` after the first `NotifyDisable` (R204). -/
def rxLoop : Nat → State → Option (Res Unit)
  | 0, _ => none
  | fuel + 1, s =>
      if !hostRxReady s then some (notifyEnable .rx s)
      else
        match availPending .rx s with
        | .fault a n s => some (.fault a n s)
        | .ok false s =>
            match reArm .rx s with
            | .fault a n s => some (.fault a n s)
            | .ok true s => rxLoop fuel s
            | .ok false s => some (.ok () s)
        | .ok true s =>
            match rxChain s with
            | .fault a n s => some (.fault a n s)
            | .ok true s => rxLoop fuel s
            | .ok false s => some (.ok () s)

/-- Iterations enough for a guest that takes the turns in `race` and no more: an iteration that uses no turn
consumes an available entry (at most 65535 before the cursors meet) or ends the drain, and on RX each delivered
frame can move the cursors apart once more. -/
def drainFuel (s : State) : Nat := s.race.length + (s.rxPort.length + 1) * 65537

/-- The end of a drain: `MaybeNotify` after a normal end (spec/47 R224), `DeviceFail` after a fault (R237);
`none` when the loop has not ended. -/
def endDrain (i : QueueId) : Option (Res Unit) → Option State
  | none => none
  | some (.fault a n s) => some (deviceFail a n s)
  | some (.ok _ s) =>
      match maybeNotify i s with
      | .ok _ s => some s
      | .fault a n s => some (deviceFail a n s)

/-- `ProcessTx()` (R180). -/
def processTx (s : State) : Option State :=
  match notifyDisable .tx s with
  | .fault a n s => some (deviceFail a n s)
  | .ok _ s => endDrain .tx (txLoop (drainFuel s) s)

/-- `PumpRx()` (R204). -/
def pumpRx (s : State) : Option State :=
  match notifyDisable .rx s with
  | .fault a n s => some (deviceFail a n s)
  | .ok _ s => endDrain .rx (rxLoop (drainFuel s) s)

/-- Processing a queue: `process(0)` is `PumpRx`, `process(1)` is `ProcessTx` (spec/45 R170). -/
def processQueue : QueueId → State → Option State
  | .rx => pumpRx
  | .tx => processTx

end Sys2Proof.Machine
end

