-- ==== Sys2Proof/Machine/Events.lean ====
section
/-! DEFINITION. The two events (spec/46_frame_transfer.md R205, spec/70_reset_and_hazards.md R260). -/

namespace Sys2Proof.Machine

/-- EVT_HOST_RX_READY (R205): ignored while not operational or with queue 0 unconfigured. -/
def execEvtHostRxReady (s : State) : Host.Outcome State Fault Refusal :=
  if !s.operational || !configured s.rxq then .next s
  else
    match pumpRx s with
    | some s' => .next s'
    | none => .fault .drainUnfinished

/-- EVT_POWER_ON (R260), the first operation or none, with the parameters in `cfg`, which must keep spec/00 R5
and be of the shape of log 14, and set no extra feature bit (spec/30 R82); otherwise it is refused (log 13). -/
def execEvtPowerOn (s : State) : Host.Outcome State Fault Refusal :=
  if 1 < s.opsBegun then .refused .powerOnNotFirst
  else if !s.cfg.wf then .refused .badConfiguration
  else if s.cfg.extraFeatures ≠ 0#64 then .refused .extraFeaturesUnsupported
  else .next (powerOn s)

end Sys2Proof.Machine
end

