-- ==== Sys2Proof/Machine/Features.lean ====
section
/-! DEFINITION. The feature negotiation registers (spec/41_mmio_features.md). None checks the lifecycle state. -/

namespace Sys2Proof.Machine

/-- RD_HOST_FEATURES (R111). -/
def execRdHostFeatures (s : State) : Host.Outcome State Fault Refusal :=
  .next (busReadReg (featureHalf s.hostFeaturesSel (offeredFeatures s.cfg)) s)

/-- WR_HOST_FEATURES_SEL (R112). -/
def execWrHostFeaturesSel (v : Word) (s : State) : Host.Outcome State Fault Refusal :=
  .next (busOk { s with hostFeaturesSel := v })

/-- WR_GUEST_FEATURES (R113): the selected half is replaced; a selector of 2 or more stores nothing. -/
def execWrGuestFeatures (v : Word) (s : State) : Host.Outcome State Fault Refusal :=
  .next (busOk { s with driverFeatures := setFeatureHalf s.guestFeaturesSel s.driverFeatures v })

/-- WR_GUEST_FEATURES_SEL (R114). -/
def execWrGuestFeaturesSel (v : Word) (s : State) : Host.Outcome State Fault Refusal :=
  .next (busOk { s with guestFeaturesSel := v })

end Sys2Proof.Machine
end

