-- ==== Sys2Proof/Machine/Identity.lean ====
section
/-! DEFINITION. The identity registers (spec/40_mmio_identity.md). -/

namespace Sys2Proof.Machine

/-- RD_MAGIC (R100). -/
def execRdMagic (s : State) : Host.Outcome State Fault Refusal := .next (busReadReg s.cfg.magic s)

/-- RD_VERSION (R101). -/
def execRdVersion (s : State) : Host.Outcome State Fault Refusal := .next (busReadReg s.cfg.deviceVersion s)

/-- RD_DEVICE_ID (R102). -/
def execRdDeviceId (s : State) : Host.Outcome State Fault Refusal := .next (busReadReg s.cfg.deviceId s)

/-- RD_VENDOR_ID (R103). -/
def execRdVendorId (s : State) : Host.Outcome State Fault Refusal := .next (busReadReg s.cfg.vendorId s)

end Sys2Proof.Machine
end

