-- ==== Sys2Proof/Machine/QueueRegs.lean ====
section
/-! DEFINITION. The queue configuration and notify registers (spec/42_mmio_queue.md). The configuration writes
act in every lifecycle state. -/

namespace Sys2Proof.Machine

/-- A refused write of a register: a RegisterError naming the transaction (spec/60 R231). -/
def refuseWrite (r : Reg) (s : State) : State := raiseRegisterError .write (regOffset r) 4 s

/-- WR_GUEST_PAGE_SIZE (R120). -/
def execWrGuestPageSize (v : Word) (s : State) : Host.Outcome State Fault Refusal :=
  .next (busOk { s with pageSize := v })

/-- WR_QUEUE_SEL (R121): any value is stored. -/
def execWrQueueSel (v : Word) (s : State) : Host.Outcome State Fault Refusal :=
  .next (busOk { s with queueSel := v })

/-- RD_QUEUE_NUM_MAX (R122). -/
def execRdQueueNumMax (s : State) : Host.Outcome State Fault Refusal :=
  .next (busReadReg s.cfg.queueNumMax s)

/-- The bank after a legal QueueNum write (R123): the ring addresses follow when the table's address is set. -/
def withSize (align : Nat) (v : Word) (q : Queue) : Queue :=
  if q.descAddr = 0#64 then { q with size := v.extractLsb' 0 16 }
  else placeRings align { q with size := v.extractLsb' 0 16 }

/-- WR_QUEUE_NUM (R123; its bound is the parameter `QUEUE_NUM_MAX`, log 27). -/
def execWrQueueNum (v : Word) (s : State) : Host.Outcome State Fault Refusal :=
  match queueOf s.cfg s.queueSel with
  | none => .next (refuseWrite .queueNum s)
  | some i =>
      if legalQueueNum s.cfg v then .next (busOk (s.setQueue i (withSize s.cfg.queueAlign v (s.queue i))))
      else .next (refuseWrite .queueNum s)

/-- WR_QUEUE_ALIGN (R124): accepted and ignored. -/
def execWrQueueAlign (_v : Word) (s : State) : Host.Outcome State Fault Refusal := .next (busOk s)

/-- RD_QUEUE_PFN (R125): the constant `QUEUE_PFN_READ`. -/
def execRdQueuePfn (s : State) : Host.Outcome State Fault Refusal := .next (busReadReg s.cfg.queuePfnRead s)

/-- The bank after a QueuePfn write (R126): address 0 means not configured, and the rings' addresses are 0. -/
def withDescAddr (align : Nat) (a : Dword) (q : Queue) : Queue :=
  if a = 0#64 then { q with descAddr := 0#64, availAddr := 0#64, usedAddr := 0#64 }
  else placeRings align { q with descAddr := a }

/-- WR_QUEUE_PFN (R126). -/
def execWrQueuePfn (v : Word) (s : State) : Host.Outcome State Fault Refusal :=
  match queueOf s.cfg s.queueSel with
  | none => .next (refuseWrite .queuePfn s)
  | some i => .next (busOk (s.setQueue i (withDescAddr s.cfg.queueAlign (pageAddr v s.pageSize) (s.queue i))))

/-- WR_QUEUE_NOTIFY (R127): the index, then `operational`, then `Configured`, then the engine; whatever happens
in the engine, the bus outcome is `Ok` (spec/60 R236). -/
def execWrQueueNotify (v : Word) (s : State) : Host.Outcome State Fault Refusal :=
  match queueOf s.cfg v with
  | none => .next (refuseWrite .queueNotify s)
  | some i =>
      if !s.operational then .next (refuseWrite .queueNotify s)
      else if !configured (s.queue i) then .next (refuseWrite .queueNotify s)
      else
        match processQueue i s with
        | some s' => .next (busOk s')
        | none => .fault .drainUnfinished

end Sys2Proof.Machine
end

