-- ==== Sys2Proof/Machine/StatusRegs.lean ====
section
/-! DEFINITION. The interrupt status, interrupt acknowledge and device status registers
(spec/43_mmio_interrupt_status.md). -/

namespace Sys2Proof.Machine

/-- RD_INTERRUPT_STATUS (R140): the read clears nothing. -/
def execRdInterruptStatus (s : State) : Host.Outcome State Fault Refusal :=
  .next (busReadReg s.interruptStatus s)

/-- WR_INTERRUPT_ACK (R141). -/
def execWrInterruptAck (v : Word) (s : State) : Host.Outcome State Fault Refusal :=
  .next (busOk { s with interruptStatus := ackBits s.interruptStatus v })

/-- RD_STATUS (R142). -/
def execRdStatus (s : State) : Host.Outcome State Fault Refusal :=
  .next (busReadReg (s.status.zeroExtend 32) s)

/-- The activate case (R145): the hook first, then `operational`. -/
def activate (s : State) : State := { s.emit (.activateHook (negotiated s)) with operational := true }

/-- What a Status write of the byte `b` does (R143): 0 is a reset (R144), FAILED a reset that keeps the written
byte (R146), anything else is stored (R148), with activation when it raises DRIVER_OK (R145). -/
def writeStatus (b : Byte) (s : State) : State :=
  if b = 0#8 then deviceReset s
  else if failedBit b then { deviceReset s with status := b }
  else if activates s b then activate { s with status := b }
  else { s with status := b }

/-- WR_STATUS (R143). -/
def execWrStatus (v : Word) (s : State) : Host.Outcome State Fault Refusal :=
  .next (busOk (writeStatus (statusByte v) s))

end Sys2Proof.Machine
end

