-- ==== Sys2Proof/Machine/Dispatch.lean ====
section
/-! DEFINITION. One arm per operation, each a call of its meaning. -/

namespace Sys2Proof.Machine

def exec (i : Instr) (s : State) : Host.Outcome State Fault Refusal :=
  match i with
  | .rdMagic => Sys2Proof.Machine.execRdMagic s
  | .rdVersion => Sys2Proof.Machine.execRdVersion s
  | .rdDeviceId => Sys2Proof.Machine.execRdDeviceId s
  | .rdVendorId => Sys2Proof.Machine.execRdVendorId s
  | .rdHostFeatures => Sys2Proof.Machine.execRdHostFeatures s
  | .wrHostFeaturesSel v => Sys2Proof.Machine.execWrHostFeaturesSel v s
  | .wrGuestFeatures v => Sys2Proof.Machine.execWrGuestFeatures v s
  | .wrGuestFeaturesSel v => Sys2Proof.Machine.execWrGuestFeaturesSel v s
  | .wrGuestPageSize v => Sys2Proof.Machine.execWrGuestPageSize v s
  | .wrQueueSel v => Sys2Proof.Machine.execWrQueueSel v s
  | .rdQueueNumMax => Sys2Proof.Machine.execRdQueueNumMax s
  | .wrQueueNum v => Sys2Proof.Machine.execWrQueueNum v s
  | .wrQueueAlign v => Sys2Proof.Machine.execWrQueueAlign v s
  | .rdQueuePfn => Sys2Proof.Machine.execRdQueuePfn s
  | .wrQueuePfn v => Sys2Proof.Machine.execWrQueuePfn v s
  | .wrQueueNotify v => Sys2Proof.Machine.execWrQueueNotify v s
  | .rdInterruptStatus => Sys2Proof.Machine.execRdInterruptStatus s
  | .wrInterruptAck v => Sys2Proof.Machine.execWrInterruptAck v s
  | .rdStatus => Sys2Proof.Machine.execRdStatus s
  | .wrStatus v => Sys2Proof.Machine.execWrStatus v s
  | .rdConfig k n => Sys2Proof.Machine.execRdConfig k n s
  | .wrConfig k n => Sys2Proof.Machine.execWrConfig k n s
  | .invalidAccess dir o len => Sys2Proof.Machine.execInvalidAccess dir o len s
  | .evtHostRxReady => Sys2Proof.Machine.execEvtHostRxReady s
  | .evtPowerOn => Sys2Proof.Machine.execEvtPowerOn s

end Sys2Proof.Machine
end

