-- ==== Sys2Proof/Machine/Fetch.lean ====
section
/-! DEFINITION. What the step does with the next input: fetching an operation's image, a store of the guest, a
frame of the host (spec/00_scope.md R7, spec/30_encoding.md R84). -/

namespace Sys2Proof.Machine

/-- The state an operation starts in: its input is taken and counted, the transaction's buffer is on the bus, and
there is no outcome yet (spec/30 R70). -/
def beginOp (s : State) (image : List Byte) (rest : List Input) : State :=
  { s with inputs := rest, opsBegun := s.opsBegun + 1, busOutcome := none, busBuffer := image.drop 2 }

/-- A store of the guest between two operations. -/
def guestWrites (s : State) (g : GuestStore) (rest : List Input) : State :=
  { s with inputs := rest, mem := writeBytes s.mem g.addr g.bytes }

/-- What the host queues is no longer than `MAX_FRAME_LEN` (spec/20 R46). -/
def rxItemOk (c : Config) : RxItem → Bool
  | .frame bytes => decide (bytes.length ≤ c.maxFrameLen)
  | .error => true

/-- The host queues a frame. -/
def hostQueues (s : State) (item : RxItem) (rest : List Input) : State :=
  { s with inputs := rest, rxPort := s.rxPort ++ [item] }

/-- The state in which the operation with this image is the next input. -/
def withImage (s : State) (image : List Byte) : State := { s with inputs := .op image :: s.inputs }

end Sys2Proof.Machine
end

