-- ==== Sys2Proof/Machine/Step.lean ====
section
/-! DEFINITION. The step: the next input of the machine, an operation run to completion (spec/00_scope.md R7);
with none the block is idle and keeps its state (spec/60_exceptions.md R251). -/

namespace Sys2Proof.Machine

/-- One step of the machine. -/
def step (s : State) : Host.Outcome State Fault Refusal :=
  match s.inputs with
  | [] => .next s
  | .op image :: rest =>
      match decode image with
      | .ok i => exec i (beginOp s image rest)
      | .error e => .refused (.undecodable e)
  | .guestStore g :: rest => .next (guestWrites s g rest)
  | .hostFrame item :: rest =>
      if rxItemOk s.cfg item then .next (hostQueues s item rest) else .refused .hostFrameTooLong

/-- `s` with the operation of these opcode-table bits as its next input (log 4, log 5). -/
def State.withFetchWord (s : State) (nbits w : Nat) : State := withImage s (tableImage nbits w)

end Sys2Proof.Machine
end

