-- ==== Sys2Proof/Safety.lean ====
section
/-! DEFINITION. What claims are stated in: the invariant of the machine's state, and what it means that an
operation completes. -/

namespace Sys2Proof.Machine

/-- `q[i].size` is 0 or a power of two from 1 to 256 (spec/10_state.md R32). -/
def sizeLegal (n : Half) : Bool := n == 0#16 || (decide (n.toNat ≤ 256) && isPowerOfTwo n.toNat)

/-- The ring addresses are the function of `desc_addr` and `size` that R15 gives, and 0 when `desc_addr` is 0. -/
def ringsPlaced (align : Nat) (q : Queue) : Prop :=
  if q.descAddr = 0#64 then q.availAddr = 0#64 ∧ q.usedAddr = 0#64
  else q.availAddr = availAddrOf q.descAddr q.size
    ∧ q.usedAddr = usedAddrOf align (availAddrOf q.descAddr q.size) q.size

/-- How many recorded errors have a class code (spec/60_exceptions.md R230). -/
def errorCount (code : Nat) (log : List ErrorInfo) : Nat := (log.filter fun e => e.code == code).length

/-- The invariants of the state that every step keeps: spec/00_scope.md R5, spec/10_state.md R15, R18, R23, R32,
spec/20_memory.md R46, spec/60_exceptions.md R237 (no operation, and a status byte that is not 0, from a guest memory
fault to the reset), spec/70_reset_and_hazards.md R260 (what the first operation finds is what power-on leaves), and
the model's own (the shape of log 14, the memory's canonical form, the counters of R31 counting the recorded
errors, no operation while FAILED is set or the status byte is 0). -/
structure State.Inv (s : State) : Prop where
  parameters : s.cfg.wf = true
  memory : s.mem.wf = true
  rxSize : sizeLegal s.rxq.size = true
  txSize : sizeLegal s.txq.size = true
  rxRings : ringsPlaced s.cfg.queueAlign s.rxq
  txRings : ringsPlaced s.cfg.queueAlign s.txq
  config : s.configSpace = configBytes s.cfg
  irqBits : s.interruptStatus &&& ~~~(s.cfg.irqBitRx ||| s.cfg.irqBitTx) = 0#32
  failedStops : failedBit s.status = true → s.operational = false
  operationalStatus : s.operational = true → s.status ≠ 0#8
  faultStops : s.failedByDevice = true → s.operational = false ∧ s.status ≠ 0#8
  fresh : s.opsBegun = 0 → powerOn s = s
  frames : ∀ item ∈ s.rxPort, rxItemOk s.cfg item = true
  counters : s.diag =
    { registerErrors := errorCount 1 s.errorLog
      malformedChains := errorCount 2 s.errorLog
      oversizedFrames := errorCount 3 s.errorLog
      guestMemoryFaults := errorCount 4 s.errorLog
      hostIoErrors := errorCount 5 s.errorLog }

/-- An operation completes: it answers a next state, no fault and no refusal. -/
def Completes (o : Host.Outcome State Fault Refusal) : Prop := ∃ t, o = .next t

/-- The guest takes no turn inside the coming operations: nobody but the device writes guest memory. -/
def quiet (s : State) : Prop := s.race = []

/-- The index of a queue, as the queue registers name it (spec/00_scope.md R4: `RXQ`, `TXQ`). -/
def queueIndex : QueueId → Word
  | .rx => 0#32
  | .tx => 1#32

/-- The nine legal ring sizes (spec/42_mmio_queue.md R123). -/
def nineSizes : List Word := [1#32, 2#32, 4#32, 8#32, 16#32, 32#32, 64#32, 128#32, 256#32]

/-- The whole effect of a `RegisterError` (spec/60_exceptions.md R231), with the record of it (log 18). -/
def afterRegisterError (s : State) (dir : Dir) (o : Offset) (len : Nat) : State :=
  { s with
    busOutcome := some .registerError
    diag := { s.diag with registerErrors := s.diag.registerErrors + 1 }
    errorLog := s.errorLog ++ [.registerError dir o len] }

/-! ## Views of guest memory (the layouts of spec/30_encoding.md R76 to R78) -/

/-- The descriptor that guest memory holds in slot `k` of queue `i`'s table (spec/45 R171). -/
def descAt (s : State) (i : QueueId) (k : Half) : Desc :=
  descOf (readBytes s.mem (descEntryAddr (s.queue i) k) 16)

/-- The guest's available `idx` of queue `i`. -/
def availIdx (s : State) (i : QueueId) : Half := le16 (readBytes s.mem (availIdxAddr (s.queue i)) 2)

/-- The head index in the available slot the cursor of queue `i` selects. -/
def availHead (s : State) (i : QueueId) : Half := le16 (readBytes s.mem (availRingAddr (s.queue i)) 2)

/-- The guest's available `flags` of queue `i`. -/
def availFlags (s : State) (i : QueueId) : Half := le16 (readBytes s.mem (availFlagsAddr (s.queue i)) 2)

/-- The bytes of a chain's buffers, in chain order (spec/46 R202: "concatenation across all descriptors"). -/
def chainBytes (m : Memory) : List Desc → List Byte
  | [] => []
  | d :: ds => readBytes m d.addr d.len.toNat ++ chainBytes m ds

/-- A chain in queue `i`'s table as it stands in memory (spec/45 R172): each record is the descriptor in the slot
its predecessor's `next` names, all but the last continue, and every `next` followed is below the ring size. -/
def linked (s : State) (i : QueueId) : Half → List Desc → Prop
  | _, [] => False
  | k, [d] => d = descAt s i k ∧ d.hasNext = false
  | k, d :: e :: ds =>
      d = descAt s i k ∧ d.hasNext = true ∧ d.next.toNat < (s.queue i).size.toNat ∧ linked s i d.next (e :: ds)

/-- A chain that `WalkChain` accepts: the checks W1 to W4 of spec/45 R172. -/
structure WellFormedChain (s : State) (i : QueueId) (head : Half) (chain : List Desc) : Prop where
  inTable : head.toNat < (s.queue i).size.toNat
  links : linked s i head chain
  length : chain.length ≤ (s.queue i).size.toNat
  header : ∀ d, chain.head? = some d → s.cfg.netHdrLen ≤ d.len.toNat

/-! ## Well-behaved guests: premises of claims about what a transfer achieves -/

/-- No access the engine makes to the rings at its present cursors faults. -/
structure RingsAccessible (s : State) (i : QueueId) : Prop where
  availFlags : accessOk s (availFlagsAddr (s.queue i)) 2 = true
  availIdx : accessOk s (availIdxAddr (s.queue i)) 2 = true
  availRing : accessOk s (availRingAddr (s.queue i)) 2 = true
  usedFlags : accessOk s (usedFlagsAddr (s.queue i)) 2 = true
  usedIdx : accessOk s (usedIdxAddr (s.queue i)) 2 = true
  usedId : accessOk s (usedIdAddr (s.queue i)) 4 = true
  usedLen : accessOk s (usedLenAddr (s.queue i)) 4 = true

/-- The rings lie one after the other and inside the address space: descriptor table, available ring, used ring. -/
structure RingsApart (q : Queue) : Prop where
  table : q.descAddr.toNat + 16 * q.size.toNat ≤ q.availAddr.toNat
  avail : q.availAddr.toNat + 6 + 2 * q.size.toNat ≤ q.usedAddr.toNat
  used : q.usedAddr.toNat + 6 + 8 * q.size.toNat ≤ 2 ^ 64

/-- A buffer that lies before a queue's descriptor table or behind its used ring. -/
def offRings (q : Queue) (d : Desc) : Prop :=
  d.addr.toNat + d.len.toNat ≤ q.descAddr.toNat ∨ q.usedAddr.toNat + 6 + 8 * q.size.toNat ≤ d.addr.toNat

/-- Two buffers with no byte in common. -/
def buffersApart (d e : Desc) : Prop :=
  d.addr.toNat + d.len.toNat ≤ e.addr.toNat ∨ e.addr.toNat + e.len.toNat ≤ d.addr.toNat

/-- A chain of accessible buffers that do not touch the rings or each other. -/
structure BuffersFit (s : State) (i : QueueId) (chain : List Desc) : Prop where
  accessible : ∀ d ∈ chain, d.len ≠ 0#32 → accessOk s d.addr d.len.toNat = true
  offRings : ∀ d ∈ chain, Machine.offRings (s.queue i) d
  apart : chain.Pairwise buffersApart

/-- The address lies in the used ring of a bank: `flags`, `idx` or one of its elements (R78). -/
def inUsedRing (q : Queue) (a : Nat) : Prop :=
  ∃ off, off < 4 + 8 * q.size.toNat ∧ a = (q.usedAddr + BitVec.ofNat 64 off).toNat

/-- The address lies in one of the chain's buffers. -/
def inBuffers (chain : List Desc) (a : Nat) : Prop :=
  ∃ d ∈ chain, d.addr.toNat ≤ a ∧ a < d.addr.toNat + d.len.toNat

/-- The part of a chain's buffers that holds its first `n` bytes (spec/46 R201: what a copy of `n` bytes may
write). -/
def firstBytes : Nat → List Desc → List Desc
  | _, [] => []
  | n, d :: ds => { d with len := BitVec.ofNat 32 (min d.len.toNat n) } :: firstBytes (n - d.len.toNat) ds

/-- The address is one of those a drain that posts one used entry stores to: the used ring's `flags` and `idx`, and
the element in the slot of `next_used` (spec/45 R176, R177, R179). -/
def inPosted (q : Queue) (a : Nat) : Prop :=
  (q.usedAddr.toNat ≤ a ∧ a < q.usedAddr.toNat + 4) ∨ ((usedIdAddr q).toNat ≤ a ∧ a < (usedIdAddr q).toNat + 8)

/-- The number of interrupt pulses among output events. -/
def pulses (es : List Event) : Nat := (es.filter fun e => e == .irqPulse 1).length

/-- What a state shows when its diagnostics are left out: no rule reads them (spec/10_state.md R31). -/
def hideDiagnostics (s : State) : State := { s with diag := Diag.zero, errorLog := [] }

/-- The same view of an outcome. -/
def hideOutcome : Host.Outcome State Fault Refusal → Host.Outcome State Fault Refusal
  | .next s => .next (hideDiagnostics s)
  | .fault f => .fault f
  | .refused r => .refused r

end Sys2Proof.Machine
end

