-- ==== Sys2Proof/Certificates/Slice0/Obligations.lean ====
section
/-! DEFINITION. The statements for the provers. Each cites the rules of spec/ it formalises in OBLIGATIONS.json. In
the statements `b0` to `b3` are the bytes of a transaction's buffer, so that `b3 ++ b2 ++ b1 ++ b0` is the
little-endian value of R73, and a record update `{ s with … }` lists everything that changes: it is the frame. -/

open Sys2Proof Sys2Proof.Machine

/-! ## Decoding -/

/-- R70 to R73, R80: no bit of an operation's image is dropped. The image itself (selector word, then the buffer) is
the model's choice (log 3). -/
def Obligations.DecodeInvertsEncode : Prop := ∀ i : Instr, i.wf = true → decode (encode i) = .ok i

/-- R72, R80: what decodes is an operation of the block (the image is log 3). -/
def Obligations.DecodedOperationsAreWellFormed : Prop :=
  ∀ (image : List Byte) (i : Instr), decode image = .ok i → i.wf = true

/-- R81, R162: every bus transaction is an operation, whatever its offset, direction and length; an event with a
number other than 1 and 2 does not exist. -/
def Obligations.EveryTransactionDecodesAndNoUnknownEventDoes : Prop :=
  (∀ (b0 b1 : Byte) (data : List Byte), b1.toNat < 0x20 → ∃ i, decode (b0 :: b1 :: data) = .ok i)
    ∧ ∀ (n : Offset) (data : List Byte), n ≠ 1#12 → n ≠ 2#12 →
        ∃ e, decode (bytesLE 2 (0x2000 + n.toNat) ++ data) = .error e

/-- Images written out from the table of R80; the order of their bytes is log 3. -/
def Obligations.WrittenOutImagesDecode : Prop :=
  decode [0x00#8, 0x00#8, 0#8, 0#8, 0#8, 0#8] = .ok .rdMagic
    ∧ decode [0x20#8, 0x10#8, 0x78#8, 0x56#8, 0x34#8, 0x12#8] = .ok (.wrGuestFeatures 0x12345678#32)
    ∧ decode [0x40#8, 0x10#8, 0x10#8, 0#8, 0#8, 0#8] = .ok (.wrQueuePfn 0x10#32)
    ∧ decode [0x50#8, 0x10#8, 1#8, 0#8, 0#8, 0#8] = .ok (.wrQueueNotify 1#32)
    ∧ decode [0x70#8, 0x10#8, 0x0F#8, 0#8, 0#8, 0#8] = .ok (.wrStatus 0x0F#32)
    ∧ decode [0x0A#8, 0x01#8, 0#8, 0#8] = .ok (.rdConfig 10#12 2)
    ∧ decode [0x06#8, 0x11#8, 1#8, 0#8] = .ok (.wrConfig 6#12 2)
    ∧ decode [0x70#8, 0x10#8, 0x0F#8] = .ok (.invalidAccess .write 0x070#12 1)
    ∧ decode [0x01#8, 0x20#8] = .ok .evtHostRxReady
    ∧ decode [0x02#8, 0x20#8] = .ok .evtPowerOn

/-! ## The step -/

/-- R7, R70: an operation that is the next input is run, whole, as one step: the input is taken, the outcome of the
transaction before is gone, the transaction's buffer is on the bus, and the operation is counted. The list of
inputs, the two bus fields and the count are the model's (log 5, log 19, log 15). -/
def Obligations.StepRunsTheDecodedOperation : Prop :=
  ∀ (s : State) (image : List Byte) (rest : List Input) (i : Instr),
    s.inputs = .op image :: rest → decode image = .ok i →
    i.wf = true ∧
      step s = exec i { s with
        inputs := rest
        opsBegun := s.opsBegun + 1
        busOutcome := none
        busBuffer := image.drop 2 }

/-- R84, R46, R81, R251: the other inputs. A store of the guest changes memory only, a frame of the host joins the
end of the RX port, a frame longer than `MAX_FRAME_LEN` and an input that is no operation are refused, and with no
input the block is idle. The list of inputs is the model's (log 5), and so are the idle step (log 6), the refusals of a
longer frame (log 12) and of an event image that is none (log 25), and that a guest's store wraps modulo 2^64 and is
made whether its addresses are mapped or not (log 24). -/
def Obligations.StepTakesTheOtherInputs : Prop :=
  ∀ (s : State) (rest : List Input),
    (s.inputs = [] → step s = .next s)
    ∧ (∀ g, s.inputs = .guestStore g :: rest →
        step s = .next { s with inputs := rest, mem := writeBytes s.mem g.addr g.bytes })
    ∧ (∀ frame, s.inputs = .hostFrame (.frame frame) :: rest → frame.length ≤ s.cfg.maxFrameLen →
        step s = .next { s with inputs := rest, rxPort := s.rxPort ++ [.frame frame] })
    ∧ (s.inputs = .hostFrame .error :: rest →
        step s = .next { s with inputs := rest, rxPort := s.rxPort ++ [.error] })
    ∧ (∀ frame, s.inputs = .hostFrame (.frame frame) :: rest → s.cfg.maxFrameLen < frame.length →
        step s = .refused .hostFrameTooLong)
    ∧ (∀ image e, s.inputs = .op image :: rest → decode image = .error e →
        step s = .refused (.undecodable e))

/-! ## Identity registers -/

/-- R100 to R103: the four reads of constants, in every state. The constants are parameters (R4) with the values
0x74726976, 2, 1 and 0x1AF4. -/
def Obligations.IdentityReadsReturnConstants : Prop :=
  (bytesLE 4 Config.cfg0.magic.toNat = [0x76#8, 0x69#8, 0x72#8, 0x74#8]
      ∧ bytesLE 4 Config.cfg0.deviceVersion.toNat = [2#8, 0#8, 0#8, 0#8]
      ∧ bytesLE 4 Config.cfg0.deviceId.toNat = [1#8, 0#8, 0#8, 0#8]
      ∧ bytesLE 4 Config.cfg0.vendorId.toNat = [0xF4#8, 0x1A#8, 0#8, 0#8]) ∧
  (∀ b0 b1 b2 b3 : Byte,
    decode [0x00#8, 0#8, b0, b1, b2, b3] = .ok .rdMagic ∧ decode [0x04#8, 0#8, b0, b1, b2, b3] = .ok .rdVersion
      ∧ decode [0x08#8, 0#8, b0, b1, b2, b3] = .ok .rdDeviceId
      ∧ decode [0x0C#8, 0#8, b0, b1, b2, b3] = .ok .rdVendorId)
  ∧ ∀ s : State,
    exec .rdMagic s = .next { s with busOutcome := some .ok, busBuffer := bytesLE 4 s.cfg.magic.toNat }
    ∧ exec .rdVersion s = .next { s with busOutcome := some .ok, busBuffer := bytesLE 4 s.cfg.deviceVersion.toNat }
    ∧ exec .rdDeviceId s = .next { s with busOutcome := some .ok, busBuffer := bytesLE 4 s.cfg.deviceId.toNat }
    ∧ exec .rdVendorId s = .next { s with busOutcome := some .ok, busBuffer := bytesLE 4 s.cfg.vendorId.toNat }

/-! ## Feature registers -/

/-- R111, R110: the half of `OFFERED_FEATURES` that the selector picks, 0 for a selector of 2 or more. -/
def Obligations.HostFeaturesReadsTheSelectedHalf : Prop :=
  (∀ b0 b1 b2 b3 : Byte, decode [0x10#8, 0#8, b0, b1, b2, b3] = .ok .rdHostFeatures)
  ∧ ∀ s : State,
    exec .rdHostFeatures s = .next { s with
      busOutcome := some .ok
      busBuffer := bytesLE 4
        (if s.hostFeaturesSel = 0#32 then (0x0000000100005D83#64 ||| s.cfg.extraFeatures).toNat % 2 ^ 32
         else if s.hostFeaturesSel = 1#32 then (0x0000000100005D83#64 ||| s.cfg.extraFeatures).toNat / 2 ^ 32
         else 0) }

/-- R112, R114, R120, and R121's own effect: the four plain registers store any value and nothing else changes. -/
def Obligations.SelectorAndPageSizeWritesStoreTheValue : Prop :=
  (∀ b0 b1 b2 b3 : Byte,
    decode [0x14#8, 0x10#8, b0, b1, b2, b3] = .ok (.wrHostFeaturesSel (b3 ++ b2 ++ b1 ++ b0))
      ∧ decode [0x24#8, 0x10#8, b0, b1, b2, b3] = .ok (.wrGuestFeaturesSel (b3 ++ b2 ++ b1 ++ b0))
      ∧ decode [0x28#8, 0x10#8, b0, b1, b2, b3] = .ok (.wrGuestPageSize (b3 ++ b2 ++ b1 ++ b0))
      ∧ decode [0x30#8, 0x10#8, b0, b1, b2, b3] = .ok (.wrQueueSel (b3 ++ b2 ++ b1 ++ b0)))
  ∧ ∀ (v : Word) (s : State),
    exec (.wrHostFeaturesSel v) s = .next { s with busOutcome := some .ok, hostFeaturesSel := v }
    ∧ exec (.wrGuestFeaturesSel v) s = .next { s with busOutcome := some .ok, guestFeaturesSel := v }
    ∧ exec (.wrGuestPageSize v) s = .next { s with busOutcome := some .ok, pageSize := v }
    ∧ exec (.wrQueueSel v) s = .next { s with busOutcome := some .ok, queueSel := v }

/-- R113: the selected half is replaced, the other half and everything else stay; a selector of 2 or more stores
nothing, with outcome `Ok`. The register cannot be read back. -/
def Obligations.GuestFeaturesReplacesTheSelectedHalf : Prop :=
  (∀ b0 b1 b2 b3 : Byte,
    decode [0x20#8, 0x10#8, b0, b1, b2, b3] = .ok (.wrGuestFeatures (b3 ++ b2 ++ b1 ++ b0))
      ∧ decode [0x20#8, 0x00#8, b0, b1, b2, b3] = .ok (.invalidAccess .read 0x020#12 4))
  ∧ ∀ (v : Word) (s : State), ∃ f : Dword,
    exec (.wrGuestFeatures v) s = .next { s with busOutcome := some .ok, driverFeatures := f }
    ∧ (s.guestFeaturesSel = 0#32 → f.toNat = s.driverFeatures.toNat / 2 ^ 32 * 2 ^ 32 + v.toNat)
    ∧ (s.guestFeaturesSel = 1#32 → f.toNat = v.toNat * 2 ^ 32 + s.driverFeatures.toNat % 2 ^ 32)
    ∧ (s.guestFeaturesSel ≠ 0#32 → s.guestFeaturesSel ≠ 1#32 → f = s.driverFeatures)

/-- R51: writing the same value twice is the same as once, for the registers R51 names; a QueueNum or QueuePfn
write that is a RegisterError is counted each time (R231), so the clause is about those that are not. -/
def Obligations.RepeatedWritesAreIdempotent : Prop :=
  ∀ (v : Word) (i : Instr) (s t : State),
    i ∈ [.wrHostFeaturesSel v, .wrGuestFeaturesSel v, .wrGuestFeatures v, .wrGuestPageSize v, .wrQueueSel v,
      .wrQueueNum v, .wrQueuePfn v, .wrInterruptAck v] →
    exec i s = .next t → t.busOutcome = some .ok → exec i t = .next t

/-! ## Queue registers -/

/-- R122, R124, R125: two constants, parameters of R4 (`QUEUE_NUM_MAX` is 256), and the write that is accepted and
ignored. -/
def Obligations.QueueConstantsAndIgnoredAlign : Prop :=
  bytesLE 4 Config.cfg0.queueNumMax.toNat = [0x00#8, 0x01#8, 0#8, 0#8] ∧
  (∀ b0 b1 b2 b3 : Byte,
    decode [0x34#8, 0#8, b0, b1, b2, b3] = .ok .rdQueueNumMax
      ∧ decode [0x40#8, 0#8, b0, b1, b2, b3] = .ok .rdQueuePfn
      ∧ decode [0x3C#8, 0x10#8, b0, b1, b2, b3] = .ok (.wrQueueAlign (b3 ++ b2 ++ b1 ++ b0)))
  ∧ ∀ (v : Word) (s : State),
    exec .rdQueueNumMax s = .next { s with busOutcome := some .ok, busBuffer := bytesLE 4 s.cfg.queueNumMax.toNat }
    ∧ exec .rdQueuePfn s = .next { s with busOutcome := some .ok, busBuffer := bytesLE 4 s.cfg.queuePfnRead.toNat }
    ∧ exec (.wrQueueAlign v) s = .next { s with busOutcome := some .ok }

/-- R15: `AlignUp(a, k)` is the least multiple of `k` that is not below `a`. -/
def Obligations.AlignUpIsTheNextMultiple : Prop :=
  ∀ a k : Nat, 0 < k →
    k ∣ alignUp a k ∧ a ≤ alignUp a k ∧ ∀ m, k ∣ m → a ≤ m → alignUp a k ≤ m

/-- R123, R4, R5, R15: the nine legal sizes, up to the parameter `QUEUE_NUM_MAX`, whose value is 256, are stored in the
selected bank, and the ring addresses follow R15 when the table's address is set; a selector of 2 or more, or any
other value, is a RegisterError. R123 writes the bound as the literal 256: that it is the parameter, where that is
smaller, is the model's choice (log 27), and so is which values the parameter may have (log 14). -/
def Obligations.QueueNumTakesTheNineLegalSizes : Prop :=
  (Config.cfg0.queueNumMax = 256#32 ∧ Config.cfg0.wf = true) ∧
  (∀ b0 b1 b2 b3 : Byte, decode [0x38#8, 0x10#8, b0, b1, b2, b3] = .ok (.wrQueueNum (b3 ++ b2 ++ b1 ++ b0)))
  ∧ (∀ (v : Word) (i : QueueId) (s : State), s.cfg.wf = true → s.queueSel = queueIndex i → v ∈ nineSizes →
      v.toNat ≤ s.cfg.queueNumMax.toNat →
      ((s.queue i).descAddr = 0#64 →
        exec (.wrQueueNum v) s =
          .next { s.setQueue i { s.queue i with size := BitVec.ofNat 16 v.toNat } with busOutcome := some .ok })
      ∧ ((s.queue i).descAddr ≠ 0#64 → ∀ avail : Dword,
        avail = (s.queue i).descAddr + BitVec.ofNat 64 (16 * v.toNat) →
        exec (.wrQueueNum v) s =
          .next { s.setQueue i { s.queue i with
            size := BitVec.ofNat 16 v.toNat
            availAddr := avail
            usedAddr := BitVec.ofNat 64 (alignUp (avail.toNat + 2 * (3 + v.toNat)) s.cfg.queueAlign) }
            with busOutcome := some .ok }))
  ∧ ∀ (v : Word) (s : State), s.cfg.wf = true →
      2 ≤ s.queueSel.toNat ∨ v ∉ nineSizes ∨ s.cfg.queueNumMax.toNat < v.toNat →
      exec (.wrQueueNum v) s = .next (afterRegisterError s .write 0x038#12 4)

/-- R126, R58: the table's address is the product, which never wraps; 0 clears the three addresses, any other value
places the rings by R15; a selector of 2 or more is a RegisterError. -/
def Obligations.QueuePfnPlacesTheRings : Prop :=
  (∀ b0 b1 b2 b3 : Byte, decode [0x40#8, 0x10#8, b0, b1, b2, b3] = .ok (.wrQueuePfn (b3 ++ b2 ++ b1 ++ b0)))
  ∧ (∀ (v : Word) (i : QueueId) (s : State), s.cfg.wf = true → s.queueSel = queueIndex i →
      (v.toNat * s.pageSize.toNat = 0 →
        exec (.wrQueuePfn v) s =
          .next { s.setQueue i { s.queue i with descAddr := 0#64, availAddr := 0#64, usedAddr := 0#64 }
            with busOutcome := some .ok })
      ∧ (v.toNat * s.pageSize.toNat ≠ 0 → ∀ desc avail : Dword,
        desc.toNat = v.toNat * s.pageSize.toNat →
        avail = desc + BitVec.ofNat 64 (16 * (s.queue i).size.toNat) →
        exec (.wrQueuePfn v) s =
          .next { s.setQueue i { s.queue i with
            descAddr := desc
            availAddr := avail
            usedAddr :=
              BitVec.ofNat 64 (alignUp (avail.toNat + 2 * (3 + (s.queue i).size.toNat)) s.cfg.queueAlign) }
            with busOutcome := some .ok }))
  ∧ ∀ (v : Word) (s : State), s.cfg.wf = true → 2 ≤ s.queueSel.toNat →
      exec (.wrQueuePfn v) s = .next (afterRegisterError s .write 0x040#12 4)

/-- R127, R16, R19, R231: where a QueueNotify is rejected. -/
def Obligations.QueueNotifyIsRejectedUnlessReady : Prop :=
  (∀ b0 b1 b2 b3 : Byte, decode [0x50#8, 0x10#8, b0, b1, b2, b3] = .ok (.wrQueueNotify (b3 ++ b2 ++ b1 ++ b0)))
  ∧ ∀ (v : Word) (s : State), s.cfg.wf = true →
      (2 ≤ v.toNat ∨ s.operational = false
        ∨ ∃ i, v = queueIndex i ∧ ((s.queue i).size = 0#16 ∨ (s.queue i).descAddr = 0#64)) →
      exec (.wrQueueNotify v) s = .next (afterRegisterError s .write 0x050#12 4)

/-! ## Interrupt and status registers -/

/-- R140, R142: the two reads change nothing; Status reads as the status byte, zero-extended. -/
def Obligations.InterruptAndStatusReadsChangeNothing : Prop :=
  (∀ b0 b1 b2 b3 : Byte,
    decode [0x60#8, 0#8, b0, b1, b2, b3] = .ok .rdInterruptStatus
      ∧ decode [0x70#8, 0#8, b0, b1, b2, b3] = .ok .rdStatus)
  ∧ ∀ s : State,
    exec .rdInterruptStatus s =
      .next { s with busOutcome := some .ok, busBuffer := bytesLE 4 s.interruptStatus.toNat }
    ∧ exec .rdStatus s = .next { s with busOutcome := some .ok, busBuffer := [s.status, 0#8, 0#8, 0#8] }

/-- R141: exactly the named bits clear. -/
def Obligations.InterruptAckClearsExactlyTheNamedBits : Prop :=
  (∀ b0 b1 b2 b3 : Byte,
    decode [0x64#8, 0x10#8, b0, b1, b2, b3] = .ok (.wrInterruptAck (b3 ++ b2 ++ b1 ++ b0)))
  ∧ ∀ (v : Word) (s : State), ∃ w : Word,
    exec (.wrInterruptAck v) s = .next { s with busOutcome := some .ok, interruptStatus := w }
    ∧ ∀ k, w.getLsbD k = (s.interruptStatus.getLsbD k && !v.getLsbD k)

/-- R144, R261, R262: a Status write whose low byte is 0 resets the device, whatever it was doing. -/
def Obligations.StatusWriteOfZeroResets : Prop :=
  (∀ b0 b1 b2 b3 : Byte, decode [0x70#8, 0x10#8, b0, b1, b2, b3] = .ok (.wrStatus (b3 ++ b2 ++ b1 ++ b0)))
  ∧ ∀ (v : Word) (s : State), v.toNat % 256 = 0 →
    exec (.wrStatus v) s = .next { s with
      status := 0#8
      operational := false
      failedByDevice := false
      interruptStatus := 0#32
      driverFeatures := 0#64
      hostFeaturesSel := 0#32
      guestFeaturesSel := 0#32
      pageSize := 0#32
      queueSel := 0#32
      rxq := ⟨0#16, 0#64, 0#64, 0#64, false, 0#16, 0#16, 0#16⟩
      txq := ⟨0#16, 0#64, 0#64, 0#64, false, 0#16, 0#16, 0#16⟩
      history := s.history ++ [.resetHook]
      busOutcome := some .ok }

/-- R146, I4: a Status write with FAILED set does the same and keeps the written byte. That it also releases the block
from a guest memory fault (`failedByDevice := false`) is I4's word; R237 and D29 name only the write of 0, and that
I4 is followed is the model's reading (log 16). -/
def Obligations.StatusWriteOfFailedResetsAndKeepsTheByte : Prop :=
  ∀ (v : Word) (s : State), v.getLsbD 7 = true →
    exec (.wrStatus v) s = .next { s with
      status := BitVec.ofNat 8 v.toNat
      operational := false
      failedByDevice := false
      interruptStatus := 0#32
      driverFeatures := 0#64
      hostFeaturesSel := 0#32
      guestFeaturesSel := 0#32
      pageSize := 0#32
      queueSel := 0#32
      rxq := ⟨0#16, 0#64, 0#64, 0#64, false, 0#16, 0#16, 0#16⟩
      txq := ⟨0#16, 0#64, 0#64, 0#64, false, 0#16, 0#16, 0#16⟩
      history := s.history ++ [.resetHook]
      busOutcome := some .ok }

/-- R145, R147: raising DRIVER_OK on a block that is not operational emits the hook with the negotiated features
and makes it operational, unless a guest memory fault has failed the device and no reset has followed (R145 corner
case 3: "the guest must reset"; log 16). -/
def Obligations.StatusWriteOfDriverOkActivates : Prop :=
  ∀ (v : Word) (s : State), v.getLsbD 7 = false → v.getLsbD 2 = true → s.status.getLsbD 2 = false →
    s.operational = false → s.failedByDevice = false →
    exec (.wrStatus v) s = .next { s with
      status := BitVec.ofNat 8 v.toNat
      operational := true
      history := s.history ++
        [.activateHook ((0x0000000100005D83#64 ||| s.cfg.extraFeatures) &&& s.driverFeatures)]
      busOutcome := some .ok }

/-- R148, R237: every other byte is only stored; so is every byte but 0 and those with FAILED between a guest memory
fault and the reset (log 16). -/
def Obligations.StatusWriteOfAnyOtherByteStores : Prop :=
  ∀ (v : Word) (s : State), v.toNat % 256 ≠ 0 → v.getLsbD 7 = false →
    (v.getLsbD 2 = false ∨ s.status.getLsbD 2 = true ∨ s.operational = true ∨ s.failedByDevice = true) →
    exec (.wrStatus v) s = .next { s with status := BitVec.ofNat 8 v.toNat, busOutcome := some .ok }

/-- R245, R19, R145, R237, R243: the lifecycle. Only a Status write that raises DRIVER_OK, with FAILED clear, makes the
block operational, and it emits the hook with the negotiated features; the only ways out are a Status write of 0 or of
FAILED, a guest memory fault in the engine, and power-on. After such a fault the block stays down until a Status write
of 0 or of FAILED (I4), or power-on. -/
def Obligations.LifecycleTransitions : Prop :=
  ∀ (i : Instr) (s t : State), exec i s = .next t →
    (s.operational = false → t.operational = true →
      (∃ v, i = .wrStatus v ∧ v.getLsbD 2 = true ∧ v.getLsbD 7 = false)
        ∧ s.status.getLsbD 2 = false ∧ s.failedByDevice = false
        ∧ t.history = s.history ++
            [.activateHook ((0x0000000100005D83#64 ||| s.cfg.extraFeatures) &&& s.driverFeatures)])
    ∧ (s.operational = true → t.operational = false →
      (∃ v, i = .wrStatus v ∧ (v.toNat % 256 = 0 ∨ v.getLsbD 7 = true) ∧ t.history = s.history ++ [.resetHook])
      ∨ (((∃ v, i = .wrQueueNotify v) ∨ i = .evtHostRxReady) ∧ t.status = s.status ||| 0x80#8
          ∧ t.failedByDevice = true ∧ t.diag.guestMemoryFaults = s.diag.guestMemoryFaults + 1)
      ∨ i = .evtPowerOn)
    ∧ (s.failedByDevice = true → s.operational = false →
      t.operational = false
        ∧ (t.failedByDevice = true ∨ (∃ v, i = .wrStatus v ∧ (v.toNat % 256 = 0 ∨ v.getLsbD 7 = true))
          ∨ i = .evtPowerOn))

/-- R223, R18: a set interrupt bit stays set until it is acknowledged by name, or a reset or power-on clears all. -/
def Obligations.InterruptBitsAreSticky : Prop :=
  ∀ (i : Instr) (s t : State) (k : Nat), exec i s = .next t →
    s.interruptStatus.getLsbD k = true → t.interruptStatus.getLsbD k = false →
    (∃ v, i = .wrInterruptAck v ∧ v.getLsbD k = true)
    ∨ (∃ v, i = .wrStatus v ∧ (v.toNat % 256 = 0 ∨ v.getLsbD 7 = true))
    ∨ i = .evtPowerOn

/-! ## Configuration bytes and invalid accesses -/

/-- R160: a read inside the 17 bytes answers them; a read of no byte or past byte 16 is a RegisterError. -/
def Obligations.ConfigReadStaysInsideTheExtent : Prop :=
  (∀ (o : Offset) (data : List Byte), 0x100 ≤ o.toNat →
    decode (BitVec.ofNat 8 o.toNat :: BitVec.ofNat 8 (o.toNat / 256) :: data)
      = .ok (.rdConfig (o - 0x100#12) data.length))
  ∧ ∀ (k : Offset) (n : Nat) (s : State), s.cfg.wf = true →
    (0 < n → k.toNat + n ≤ 17 →
      exec (.rdConfig k n) s =
        .next { s with busOutcome := some .ok, busBuffer := (s.configSpace.toList.drop k.toNat).take n })
    ∧ (n = 0 ∨ 17 < k.toNat + n →
      exec (.rdConfig k n) s = .next (afterRegisterError s .read (k + 0x100#12) n))

/-- R23, R42: what a read of all 17 bytes returns is the layout of R23, when the configuration bytes are the
constructed ones (the invariant says they always are). -/
def Obligations.ConfigReadReturnsTheConstructedLayout : Prop :=
  ∀ s : State, s.Inv →
    exec (.rdConfig 0#12 17) s = .next { s with
      busOutcome := some .ok
      busBuffer := s.cfg.mac.toList ++ bytesLE 2 s.cfg.linkStatus.toNat ++ bytesLE 2 s.cfg.maxVqPairs.toNat
        ++ bytesLE 2 s.cfg.mtu.toNat ++ bytesLE 4 s.cfg.speed.toNat ++ [s.cfg.duplex] }

/-- R161: every write at 0x100 or above is a RegisterError. -/
def Obligations.ConfigWriteIsRejected : Prop :=
  (∀ (o : Offset) (data : List Byte), 0x100 ≤ o.toNat →
    decode (BitVec.ofNat 8 o.toNat :: BitVec.ofNat 8 (o.toNat / 256 + 0x10) :: data)
      = .ok (.wrConfig (o - 0x100#12) data.length))
  ∧ ∀ (k : Offset) (n : Nat) (s : State),
    exec (.wrConfig k n) s = .next (afterRegisterError s .write (k + 0x100#12) n)

/-- R162, R231: an offset below 0x100 that is no register, a register in the direction it does not have, and a
length other than 4 are INVALID_ACCESS, a RegisterError. -/
def Obligations.InvalidAccessIsARegisterError : Prop :=
  (∀ (o : Offset) (data : List Byte), o.toNat < 0x100 →
    (o.toNat ∉ [0x00, 0x04, 0x08, 0x0C, 0x10, 0x34, 0x40, 0x60, 0x70] ∨ data.length ≠ 4 →
      decode (BitVec.ofNat 8 o.toNat :: 0x00#8 :: data) = .ok (.invalidAccess .read o data.length))
    ∧ (o.toNat ∉ [0x14, 0x20, 0x24, 0x28, 0x30, 0x38, 0x3C, 0x40, 0x50, 0x64, 0x70] ∨ data.length ≠ 4 →
      decode (BitVec.ofNat 8 o.toNat :: 0x10#8 :: data) = .ok (.invalidAccess .write o data.length)))
  ∧ ∀ (dir : Dir) (o : Offset) (n : Nat) (s : State),
    exec (.invalidAccess dir o n) s = .next (afterRegisterError s dir o n)

/-! ## Power-on -/

/-- R260, R33: power-on, the first operation, sets every field of the block, builds the configuration bytes from the
parameters, emits nothing and touches no guest memory; it is refused after another operation (R260: "exactly once,
before any other operation"; the count is the model's, log 15), for parameters that `Config.wf` does not accept, which
are those that break R5, those whose `QUEUE_ALIGN` is no power of two (R4), and those that are not of the block's shape
or have a `QUEUE_NUM_MAX` above 256 (log 14), and for parameters that set extra feature bits (R82). That
they are refused at power-on is the model's (log 13). The state the machine resets to is what power-on leaves. That
the record of counted errors starts anew is the model's (log 18), as is the configuration of `State.reset` (log 1). -/
def Obligations.PowerOnSetsEveryField : Prop :=
  ∀ s : State,
    (s.opsBegun ≤ 1 → s.cfg.wf = true → s.cfg.extraFeatures = 0#64 →
      exec .evtPowerOn s = .next { s with
        status := 0#8
        operational := false
        failedByDevice := false
        hostFeaturesSel := 0#32
        guestFeaturesSel := 0#32
        driverFeatures := 0#64
        pageSize := 0#32
        queueSel := 0#32
        interruptStatus := 0#32
        rxq := ⟨0#16, 0#64, 0#64, 0#64, false, 0#16, 0#16, 0#16⟩
        txq := ⟨0#16, 0#64, 0#64, 0#64, false, 0#16, 0#16, 0#16⟩
        configSpace := configBytes s.cfg
        diag := ⟨0, 0, 0, 0, 0⟩
        errorLog := [] })
    ∧ (1 < s.opsBegun → exec .evtPowerOn s = .refused .powerOnNotFirst)
    ∧ (s.opsBegun ≤ 1 → s.cfg.wf = false → exec .evtPowerOn s = .refused .badConfiguration)
    ∧ (s.opsBegun ≤ 1 → s.cfg.wf = true → s.cfg.extraFeatures ≠ 0#64 →
        exec .evtPowerOn s = .refused .extraFeaturesUnsupported)
    ∧ State.reset = State.resetWith Config.cfg0
    ∧ ∀ c : Config, c.wf = true → c.extraFeatures = 0#64 →
        exec .evtPowerOn (State.resetWith c) = .next (State.resetWith c)

/-! ## Guest memory -/

/-- R43, R45, R52, R54: an access of no byte touches nothing; an access past 2^64 or outside every region faults with
its address and length, nothing read or stored and no turn of the guest used up; any other access completes. An access
that is one reads or stores its bytes after the guest's turn. An access in pieces (descriptors and buffers) changes
nothing but memory and the turns; what its pieces read or store, with a guest that stores nothing, is the next
statement. The turns are the model's (log 7), and so are the pieces (log 8) and `Mapped` as a list of regions, one of
which holds the whole access (log 26). -/
def Obligations.AccessesSucceedWholeOrFault : Prop :=
  ∀ (s : State) (a : Dword) (n : Nat) (bs : List Byte),
    memRead a 0 s = .ok [] s
    ∧ memWrite a [] s = .ok () s
    ∧ (∀ pieces, memReadTorn pieces a 0 s = .ok [] s)
    ∧ memWriteTorn a [] s = .ok () s
    ∧ (n ≠ 0 →
        (2 ^ 64 < a.toNat + n ∨ ¬ ∃ r ∈ s.cfg.regions, r.base ≤ a.toNat ∧ a.toNat + n ≤ r.base + r.size) →
        memRead a n s = .fault a.toNat n s
        ∧ (∀ pieces, memReadTorn pieces a n s = .fault a.toNat n s)
        ∧ (bs.length = n → memWrite a bs s = .fault a.toNat n s ∧ memWriteTorn a bs s = .fault a.toNat n s))
    ∧ (n ≠ 0 → a.toNat + n ≤ 2 ^ 64 → (∃ r ∈ s.cfg.regions, r.base ≤ a.toNat ∧ a.toNat + n ≤ r.base + r.size) →
        memRead a n s = .ok (readBytes (guestTurn s).mem a n) (guestTurn s)
        ∧ (∀ pieces, ∃ b t, memReadTorn pieces a n s = .ok b t ∧ t = { s with mem := t.mem, race := t.race })
        ∧ (bs.length = n →
            memWrite a bs s = .ok () { guestTurn s with mem := writeBytes (guestTurn s).mem a bs }
            ∧ ∃ t, memWriteTorn a bs s = .ok () t ∧ t = { s with mem := t.mem, race := t.race }))

/-- R52, R54, R43: a buffer or descriptor access in pieces, in any order and with any number of turns in which the
guest stores nothing, is the one access: a read returns the bytes as they are, a write leaves every byte of memory
as the one write does. -/
def Obligations.TornAccessesToStillMemoryAreWhole : Prop :=
  ∀ (s : State) (a : Dword), (∀ turn ∈ s.race, turn.stores = []) →
    (∀ n, n ≠ 0 → accessOk s a n = true →
      ∃ t, memReadTorn (bytePieces n) a n s = .ok (readBytes s.mem a n) t ∧ t = { s with race := t.race })
    ∧ (accessOk s a 16 = true →
      ∃ t, memReadTorn descPieces a 16 s = .ok (readBytes s.mem a 16) t ∧ t = { s with race := t.race })
    ∧ ∀ bs, s.mem.wf = true → bs ≠ [] → accessOk s a bs.length = true →
      ∃ t, memWriteTorn a bs s = .ok () t ∧ t = { s with race := t.race, mem := t.mem }
        ∧ ∀ x, memGet t.mem x = memGet (writeBytes s.mem a bs) x

/-! ## Descriptors and rings -/

/-- R171, R76: the four fields of a descriptor, little-endian, and where slot `k` lies. -/
def Obligations.DescriptorsAreReadFromTheirSlots : Prop :=
  (∀ b0 b1 b2 b3 b4 b5 b6 b7 b8 b9 b10 b11 b12 b13 b14 b15 : Byte,
    descOf [b0, b1, b2, b3, b4, b5, b6, b7, b8, b9, b10, b11, b12, b13, b14, b15] =
      { addr := b7 ++ b6 ++ b5 ++ b4 ++ b3 ++ b2 ++ b1 ++ b0
        len := b11 ++ b10 ++ b9 ++ b8
        flags := b13 ++ b12
        next := b15 ++ b14 })
  ∧ ∀ (s : State) (i : QueueId) (k : Half) (a : Dword), quiet s →
      a = (s.queue i).descAddr + BitVec.ofNat 64 (16 * k.toNat) →
      (accessOk s a 16 = true → descRead i k s = .ok (descOf (readBytes s.mem a 16)) s)
      ∧ (accessOk s a 16 = false → descRead i k s = .fault a.toNat 16 s)

/-- R172, R239: with the descriptor table accessible and the guest quiet, `WalkChain` answers a list exactly when
the chain passes W1 to W4, and then the list is the chain; otherwise it is MalformedChain. Either way it changes
nothing. -/
def Obligations.WalkChainAcceptsExactlyTheWellFormedChains : Prop :=
  ∀ (s : State) (i : QueueId) (head : Half), quiet s →
    (∀ k : Half, k.toNat < (s.queue i).size.toNat → accessOk s (descEntryAddr (s.queue i) k) 16 = true) →
    (∀ chain, walkChain i head s = .ok (some chain) s ↔ WellFormedChain s i head chain)
    ∧ ((¬ ∃ chain, WellFormedChain s i head chain) → walkChain i head s = .ok none s)

/-- R172, R53: in any interleaving with the guest, a chain that is walked has 1 to `size` descriptors, a first one
at least as long as the header, and no link followed outside the table. -/
def Obligations.WalkedChainsAreBounded : Prop :=
  ∀ (s t : State) (i : QueueId) (head : Half) (chain : List Desc), walkChain i head s = .ok (some chain) t →
    head.toNat < (s.queue i).size.toNat
    ∧ 1 ≤ chain.length ∧ chain.length ≤ (s.queue i).size.toNat
    ∧ (∀ d, chain.head? = some d → s.cfg.netHdrLen ≤ d.len.toNat)
    ∧ (∀ d ∈ chain.dropLast, d.hasNext = true ∧ d.next.toNat < (s.queue i).size.toNat)
    ∧ ∀ d, chain.getLast? = some d → d.hasNext = false

/-- R174, R175, R182: pending is inequality of the two 16-bit indices, the head is read from slot
`next_avail mod size`, and the cursor moves by one modulo 2^16. -/
def Obligations.AvailableRingIsReadAtTheCursor : Prop :=
  ∀ (s : State) (i : QueueId) (slotAddr : Dword), quiet s →
    (accessOk s ((s.queue i).availAddr + 2#64) 2 = true →
      availPending i s =
        .ok (decide (le16 (readBytes s.mem ((s.queue i).availAddr + 2#64) 2) ≠ (s.queue i).nextAvail)) s)
    ∧ (slotAddr = (s.queue i).availAddr
          + BitVec.ofNat 64 (4 + 2 * ((s.queue i).nextAvail.toNat % (s.queue i).size.toNat)) →
        accessOk s slotAddr 2 = true → availPeek i s = .ok (le16 (readBytes s.mem slotAddr 2)) s)
    ∧ availAdvance i s = s.setQueue i { s.queue i with
        nextAvail := BitVec.ofNat 16 (((s.queue i).nextAvail.toNat + 1) % 2 ^ 16) }

/-- R176, R177, R20: the flag, and its copy in the used ring. -/
def Obligations.NotificationFlagIsMirrored : Prop :=
  ∀ (s : State) (i : QueueId), quiet s → accessOk s (s.queue i).usedAddr 2 = true →
    notifyDisable i s = .ok () { s.setQueue i { s.queue i with notifySuppressed := true } with
      mem := writeBytes s.mem (s.queue i).usedAddr [1#8, 0#8] }
    ∧ notifyEnable i s = .ok () { s.setQueue i { s.queue i with notifySuppressed := false } with
      mem := writeBytes s.mem (s.queue i).usedAddr [0#8, 0#8] }

/-- R179: a posted entry's id, length and the new index are in memory, the cursor has moved by one, and no byte
outside those ten has changed. -/
def Obligations.UsedPostPublishesOneEntry : Prop :=
  ∀ (s : State) (i : QueueId) (head : Half) (n : Word) (slot : Nat), quiet s → s.mem.wf = true →
    RingsAccessible s i → RingsApart (s.queue i) →
    slot = (s.queue i).nextUsed.toNat % (s.queue i).size.toNat → 0 < (s.queue i).size.toNat →
    ∃ m : Memory,
      usedPost i head n s =
        .ok () { s.setQueue i { s.queue i with nextUsed := (s.queue i).nextUsed + 1#16 } with mem := m }
      ∧ readBytes m ((s.queue i).usedAddr + BitVec.ofNat 64 (4 + 8 * slot)) 4 = bytesLE 4 head.toNat
      ∧ readBytes m ((s.queue i).usedAddr + BitVec.ofNat 64 (8 + 8 * slot)) 4 = bytesLE 4 n.toNat
      ∧ readBytes m ((s.queue i).usedAddr + 2#64) 2 = bytesLE 2 ((s.queue i).nextUsed + 1#16).toNat
      ∧ ∀ a, (a < (s.queue i).usedAddr.toNat + 2 ∨ (s.queue i).usedAddr.toNat + 4 ≤ a) →
          (a < (s.queue i).usedAddr.toNat + 4 + 8 * slot ∨ (s.queue i).usedAddr.toNat + 12 + 8 * slot ≤ a) →
          memGet m a = memGet s.mem a

/-- R221, R222, R224: the four cases of `MaybeNotify`. -/
def Obligations.MaybeNotifyPulsesOnTheEdge : Prop :=
  ∀ (s : State) (i : QueueId), quiet s →
    ((s.queue i).nextUsed = (s.queue i).signalledUsed → maybeNotify i s = .ok () s)
    ∧ ((s.queue i).nextUsed ≠ (s.queue i).signalledUsed → accessOk s (s.queue i).availAddr 2 = true →
      ∀ u, u = s.setQueue i { s.queue i with signalledUsed := (s.queue i).nextUsed } →
        ((availFlags s i).getLsbD 0 = true → maybeNotify i s = .ok () u)
        ∧ ((availFlags s i).getLsbD 0 = false → s.interruptStatus &&& irqBit s.cfg i = 0#32 →
            maybeNotify i s = .ok () { u with
              interruptStatus := s.interruptStatus ||| irqBit s.cfg i
              history := s.history ++ [.irqPulse 1] })
        ∧ ((availFlags s i).getLsbD 0 = false → s.interruptStatus &&& irqBit s.cfg i ≠ 0#32 →
            maybeNotify i s = .ok () { u with interruptStatus := s.interruptStatus ||| irqBit s.cfg i }))

/-! ## Transfers -/

/-- R200: in any interleaving with the guest, `RxTransfer` answers the smaller of the frame's length and the
capacity, and counts an oversized frame exactly when the frame did not fit. -/
def Obligations.RxTransferCountsWhatFits : Prop :=
  ∀ (s t : State) (chain : List Desc) (frame : List Byte) (n : Nat), rxTransfer chain frame s = .ok n t →
    n = min frame.length (capacity chain)
    ∧ t.diag = { s.diag with
        oversizedFrames := s.diag.oversizedFrames + if capacity chain < frame.length then 1 else 0 }

/-- R201, R200, R43: with the guest quiet, where `RxTransfer` answers n it writes no byte but the first n of the
chain's buffers (a descriptor behind the end of the frame is not written at all), and these hold the first n bytes of
the frame where the buffers do not overlap. The first buffer that the copy needs and may not access faults, with its
address and the length it needs there; the buffers before it are written whole, and nothing else is. -/
def Obligations.RxTransferWritesTheFrameInsideTheBuffers : Prop :=
  ∀ (s : State) (chain : List Desc) (frame : List Byte), quiet s → s.mem.wf = true →
    (∀ n t, rxTransfer chain frame s = .ok n t →
      (∀ a, ¬ inBuffers (firstBytes n chain) a → memGet t.mem a = memGet s.mem a)
      ∧ (chain.Pairwise buffersApart → (chainBytes t.mem chain).take n = frame.take n))
    ∧ (∀ addr n t, rxTransfer chain frame s = .fault addr n t →
      ∀ a, ¬ inBuffers chain a → memGet t.mem a = memGet s.mem a)
    ∧ ∀ (before behind : List Desc) (d : Desc) (m : Nat), chain = before ++ d :: behind →
      (∀ e ∈ before, e.len ≠ 0#32 → accessOk s e.addr e.len.toNat = true) →
      capacity before < frame.length → d.len ≠ 0#32 → m = min d.len.toNat (frame.length - capacity before) →
      accessOk s d.addr m = false →
      ∃ t, rxTransfer chain frame s = .fault d.addr.toNat m t ∧ t = { s with mem := t.mem }
        ∧ (∀ a, ¬ inBuffers before a → memGet t.mem a = memGet s.mem a)
        ∧ (before.Pairwise buffersApart → chainBytes t.mem before = frame.take (capacity before))

/-- R202, R47: with the guest quiet and every buffer accessible, `TxTransfer` hands over exactly the chain's bytes,
in one push; a host that refuses it is counted and nothing else differs. In any interleaving, the first buffer that may
not be accessed faults with its address and length, and a fault keeps the chain from being pushed. -/
def Obligations.TxTransferPushesTheChainsBytes : Prop :=
  (∀ (s : State) (before behind : List Desc) (d : Desc),
    (∀ e ∈ before, e.len ≠ 0#32 → accessOk s e.addr e.len.toNat = true) → d.len ≠ 0#32 →
    accessOk s d.addr d.len.toNat = false →
    ∃ t, txTransfer (before ++ d :: behind) s = .fault d.addr.toNat d.len.toNat t
      ∧ t = { s with mem := t.mem, race := t.race }) ∧
  (∀ (s t : State) (chain : List Desc) (addr n : Nat), txTransfer chain s = .fault addr n t →
    t.history = s.history ∧ t.txAnswers = s.txAnswers ∧ t.diag = s.diag)
  ∧ ∀ (s : State) (chain : List Desc), quiet s →
    (∀ d ∈ chain, d.len ≠ 0#32 → accessOk s d.addr d.len.toNat = true) →
    (s.txAnswers.head? ≠ some .error →
      txTransfer chain s = .ok () { s with
        history := s.history ++ [.hostTxPush (chainBytes s.mem chain)]
        txAnswers := s.txAnswers.tail })
    ∧ (s.txAnswers.head? = some .error →
      txTransfer chain s = .ok () { s with
        history := s.history ++ [.hostTxPush (chainBytes s.mem chain)]
        txAnswers := s.txAnswers.tail
        diag := { s.diag with hostIoErrors := s.diag.hostIoErrors + 1 }
        errorLog := s.errorLog ++ [.hostIoError] })

/-! ## The engine's operations: what they achieve -/

/-- R180, R127 (vector V45): a notify for an empty TX ring disables and re-enables notifications, posts nothing and
sends no pulse. -/
def Obligations.TxNotifyOnAnEmptyRing : Prop :=
  ∀ s : State, s.cfg.wf = true → quiet s → s.mem.wf = true → s.operational = true → configured s.txq = true →
    RingsAccessible s .tx → RingsApart s.txq → availIdx s .tx = s.txq.nextAvail →
    s.txq.nextUsed = s.txq.signalledUsed →
    exec (.wrQueueNotify 1#32) s = .next { s with
      txq := { s.txq with notifySuppressed := false }
      mem := writeBytes (writeBytes s.mem s.txq.usedAddr [1#8, 0#8]) s.txq.usedAddr [0#8, 0#8]
      busOutcome := some .ok }

/-- R180, R202, R203, R179, R221 (property E8): one well-formed chain available on the TX queue. Exactly its bytes
are pushed, one used entry is posted, and the interrupt follows the driver's flag and the bit. A host that refuses the
frame is counted (R234), and all the rest is the same. -/
def Obligations.TxNotifyTransmitsOneChain : Prop :=
  ∀ (s : State) (chain : List Desc), s.cfg.wf = true → quiet s → s.mem.wf = true → s.operational = true →
    configured s.txq = true → RingsAccessible s .tx → RingsApart s.txq →
    availIdx s .tx = s.txq.nextAvail + 1#16 → s.txq.nextUsed = s.txq.signalledUsed →
    (∀ k : Half, k.toNat < s.txq.size.toNat → accessOk s (descEntryAddr s.txq k) 16 = true) →
    WellFormedChain s .tx (availHead s .tx) chain → BuffersFit s .tx chain →
    ∃ m : Memory,
      exec (.wrQueueNotify 1#32) s = .next { s with
        txq := { s.txq with
          notifySuppressed := false
          nextAvail := s.txq.nextAvail + 1#16
          nextUsed := s.txq.nextUsed + 1#16
          signalledUsed := s.txq.nextUsed + 1#16 }
        mem := m
        history := s.history ++ [.hostTxPush (chainBytes s.mem chain)] ++
          (if (availFlags s .tx).getLsbD 0 = false ∧ s.interruptStatus &&& s.cfg.irqBitTx = 0#32 then [.irqPulse 1]
           else [])
        interruptStatus :=
          if (availFlags s .tx).getLsbD 0 = false then s.interruptStatus ||| s.cfg.irqBitTx
          else s.interruptStatus
        txAnswers := s.txAnswers.tail
        diag := { s.diag with
          hostIoErrors := s.diag.hostIoErrors + if s.txAnswers.head? = some .error then 1 else 0 }
        errorLog := s.errorLog ++ if s.txAnswers.head? = some .error then [.hostIoError] else []
        busOutcome := some .ok }
      ∧ readBytes m (usedFlagsAddr s.txq) 2 = [0#8, 0#8]
      ∧ readBytes m (usedIdxAddr s.txq) 2 = bytesLE 2 (s.txq.nextUsed + 1#16).toNat
      ∧ readBytes m (usedIdAddr s.txq) 4 = bytesLE 4 (availHead s .tx).toNat
      ∧ readBytes m (usedLenAddr s.txq) 4 = bytesLE 4 s.cfg.txUsedLen.toNat
      ∧ ∀ a, ¬ inPosted s.txq a → memGet m a = memGet s.mem a

/-- R232, R180: a malformed chain on the TX queue is counted and skipped: no push, no used entry, no pulse. -/
def Obligations.TxNotifySkipsAMalformedChain : Prop :=
  ∀ s : State, s.cfg.wf = true → quiet s → s.mem.wf = true → s.operational = true → configured s.txq = true →
    RingsAccessible s .tx → RingsApart s.txq → availIdx s .tx = s.txq.nextAvail + 1#16 →
    s.txq.nextUsed = s.txq.signalledUsed →
    (∀ k : Half, k.toNat < s.txq.size.toNat → accessOk s (descEntryAddr s.txq k) 16 = true) →
    (¬ ∃ chain, WellFormedChain s .tx (availHead s .tx) chain) →
    exec (.wrQueueNotify 1#32) s = .next { s with
      txq := { s.txq with notifySuppressed := false, nextAvail := s.txq.nextAvail + 1#16 }
      mem := writeBytes (writeBytes s.mem s.txq.usedAddr [1#8, 0#8]) s.txq.usedAddr [0#8, 0#8]
      diag := { s.diag with malformedChains := s.diag.malformedChains + 1 }
      errorLog := s.errorLog ++ [.malformedChain (availHead s .tx)]
      busOutcome := some .ok }

/-- R204, R232: a malformed chain on the RX queue, with a frame waiting, is counted and skipped, and the frame is not
popped. Where it is the only entry, the event and the RX notify post nothing and the frame stays in the port; with
more entries, whatever the operation then does is what it does where the entry had been passed over and counted
before: the frame goes into the next well-formed chain. -/
def Obligations.RxPumpSkipsAMalformedChain : Prop :=
  ∀ s : State, s.cfg.wf = true → quiet s → s.mem.wf = true → s.operational = true → configured s.rxq = true →
    RingsAccessible s .rx → RingsApart s.rxq → s.rxPort ≠ [] → s.rxq.nextUsed = s.rxq.signalledUsed →
    (∀ k : Half, k.toNat < s.rxq.size.toNat → accessOk s (descEntryAddr s.rxq k) 16 = true) →
    (¬ ∃ chain, WellFormedChain s .rx (availHead s .rx) chain) →
    ∀ u, u = { s with
      rxq := { s.rxq with nextAvail := s.rxq.nextAvail + 1#16 }
      diag := { s.diag with malformedChains := s.diag.malformedChains + 1 }
      errorLog := s.errorLog ++ [.malformedChain (availHead s .rx)] } →
    (availIdx s .rx = s.rxq.nextAvail + 1#16 →
      ∀ t, t = { u with
        rxq := { u.rxq with notifySuppressed := false }
        mem := writeBytes (writeBytes s.mem s.rxq.usedAddr [1#8, 0#8]) s.rxq.usedAddr [0#8, 0#8] } →
      exec .evtHostRxReady s = .next t ∧ exec (.wrQueueNotify 0#32) s = .next { t with busOutcome := some .ok })
    ∧ (availIdx s .rx ≠ s.rxq.nextAvail →
      (∀ t, exec .evtHostRxReady s = .next t → exec .evtHostRxReady u = .next t)
      ∧ ∀ t, exec (.wrQueueNotify 0#32) s = .next t → exec (.wrQueueNotify 0#32) u = .next t)

/-- R204, R205, R206: with no frame waiting (a spurious event), or with frames waiting but no chain to take one, the
event and the RX notify disable and re-enable notifications and post nothing; the frames stay in the host port. The
notify also answers `Ok`. -/
def Obligations.RxPumpStopsWithoutAFrameOrAChain : Prop :=
  ∀ s : State, s.cfg.wf = true → quiet s → s.mem.wf = true → s.operational = true → configured s.rxq = true →
    RingsAccessible s .rx → RingsApart s.rxq → (s.rxPort = [] ∨ availIdx s .rx = s.rxq.nextAvail) →
    s.rxq.nextUsed = s.rxq.signalledUsed →
    ∀ t, t = { s with
      rxq := { s.rxq with notifySuppressed := false }
      mem := writeBytes (writeBytes s.mem s.rxq.usedAddr [1#8, 0#8]) s.rxq.usedAddr [0#8, 0#8] } →
    exec .evtHostRxReady s = .next t ∧ exec (.wrQueueNotify 0#32) s = .next { t with busOutcome := some .ok }

/-- R204, R200, R179, R233, R221 (properties E6, E7, E12): one frame waits and a well-formed chain is available.
The chain's buffers begin with as much of the frame as fits, one used entry records that length, an oversized frame
is counted, and the interrupt follows the driver's flag and the bit. Of memory nothing changes but the used ring's
`flags`, `idx` and one element, and the first bytes of the buffers. -/
def Obligations.RxPumpDeliversOneFrame : Prop :=
  ∀ (s : State) (chain : List Desc) (frame : List Byte) (n : Nat), s.cfg.wf = true → quiet s → s.mem.wf = true →
    s.operational = true → configured s.rxq = true → RingsAccessible s .rx → RingsApart s.rxq →
    s.rxPort = [.frame frame] → frame.length < 2 ^ 32 → availIdx s .rx ≠ s.rxq.nextAvail →
    s.rxq.nextUsed = s.rxq.signalledUsed →
    (∀ k : Half, k.toNat < s.rxq.size.toNat → accessOk s (descEntryAddr s.rxq k) 16 = true) →
    WellFormedChain s .rx (availHead s .rx) chain → BuffersFit s .rx chain →
    n = min frame.length (capacity chain) →
    ∃ t : State,
      exec .evtHostRxReady s = .next t
      ∧ exec (.wrQueueNotify 0#32) s = .next { t with busOutcome := some .ok }
      ∧ t = { s with
          rxq := { s.rxq with
            notifySuppressed := false
            nextAvail := s.rxq.nextAvail + 1#16
            nextUsed := s.rxq.nextUsed + 1#16
            signalledUsed := s.rxq.nextUsed + 1#16 }
          rxPort := []
          mem := t.mem
          diag := { s.diag with
            oversizedFrames := s.diag.oversizedFrames + if capacity chain < frame.length then 1 else 0 }
          errorLog := s.errorLog ++
            if capacity chain < frame.length then [.oversizedFrame frame.length (capacity chain)] else []
          history := s.history ++
            (if (availFlags s .rx).getLsbD 0 = false ∧ s.interruptStatus &&& s.cfg.irqBitRx = 0#32
             then [.irqPulse 1] else [])
          interruptStatus :=
            if (availFlags s .rx).getLsbD 0 = false then s.interruptStatus ||| s.cfg.irqBitRx
            else s.interruptStatus }
      ∧ (chainBytes t.mem chain).take n = frame.take n
      ∧ readBytes t.mem (usedFlagsAddr s.rxq) 2 = [0#8, 0#8]
      ∧ readBytes t.mem (usedIdxAddr s.rxq) 2 = bytesLE 2 (s.rxq.nextUsed + 1#16).toNat
      ∧ readBytes t.mem (usedIdAddr s.rxq) 4 = bytesLE 4 (availHead s .rx).toNat
      ∧ readBytes t.mem (usedLenAddr s.rxq) 4 = bytesLE 4 n
      ∧ ∀ a, ¬ inPosted s.rxq a → ¬ inBuffers (firstBytes n chain) a → memGet t.mem a = memGet s.mem a

/-- R234, R204: a host read error loses the frame, is counted, and leaves the chain available; the RX notify also
answers `Ok`. -/
def Obligations.RxHostErrorLeavesTheChain : Prop :=
  ∀ (s : State) (chain : List Desc) (rest : List RxItem), s.cfg.wf = true → quiet s → s.mem.wf = true →
    s.operational = true → configured s.rxq = true → RingsAccessible s .rx → RingsApart s.rxq →
    s.rxPort = .error :: rest → availIdx s .rx ≠ s.rxq.nextAvail → s.rxq.nextUsed = s.rxq.signalledUsed →
    (∀ k : Half, k.toNat < s.rxq.size.toNat → accessOk s (descEntryAddr s.rxq k) 16 = true) →
    WellFormedChain s .rx (availHead s .rx) chain →
    ∀ t, t = { s with
      rxq := { s.rxq with notifySuppressed := false }
      mem := writeBytes (writeBytes s.mem s.rxq.usedAddr [1#8, 0#8]) s.rxq.usedAddr [0#8, 0#8]
      rxPort := rest
      diag := { s.diag with hostIoErrors := s.diag.hostIoErrors + 1 }
      errorLog := s.errorLog ++ [.hostIoError] } →
    exec .evtHostRxReady s = .next t ∧ exec (.wrQueueNotify 0#32) s = .next { t with busOutcome := some .ok }

/-- R205: the event is ignored while the block is not operational or queue 0 is not configured. -/
def Obligations.RxReadyIsIgnoredUnlessReady : Prop :=
  ∀ s : State, (s.operational = false ∨ s.rxq.size = 0#16 ∨ s.rxq.descAddr = 0#64) →
    exec .evtHostRxReady s = .next s

/-! ## The engine's operations: what they never do -/

/-- R237, R236: a used ring that is not mapped fails the device at the first access, and the bus still answers
`Ok`. -/
def Obligations.UnmappedUsedRingFailsTheDevice : Prop :=
  ∀ s : State, s.cfg.wf = true → s.operational = true → configured s.txq = true →
    accessOk s s.txq.usedAddr 2 = false →
    exec (.wrQueueNotify 1#32) s = .next { s with
      txq := { s.txq with notifySuppressed := true }
      status := s.status ||| 0x80#8
      operational := false
      failedByDevice := true
      diag := { s.diag with guestMemoryFaults := s.diag.guestMemoryFaults + 1 }
      errorLog := s.errorLog ++ [.guestMemoryFault s.txq.usedAddr.toNat 2]
      busOutcome := some .ok }

/-- R237, R236, R224: in any interleaving, an operation that starts the engine either ends normally, with status and
lifecycle as before, or fails the device: then one fault is counted, FAILED is set, no interrupt bit changes and no
pulse is sent. A notify that is not rejected answers `Ok` either way. -/
def Obligations.EngineEndsNormallyOrFailsTheDevice : Prop :=
  ∀ (s t : State) (i : Instr), ((∃ v, i = .wrQueueNotify v) ∨ i = .evtHostRxReady) → exec i s = .next t →
    ((t.status = s.status ∧ t.operational = s.operational ∧ t.failedByDevice = s.failedByDevice
        ∧ t.diag.guestMemoryFaults = s.diag.guestMemoryFaults)
      ∨ (t.status = s.status ||| 0x80#8 ∧ s.operational = true ∧ t.operational = false ∧ t.failedByDevice = true
        ∧ t.diag.guestMemoryFaults = s.diag.guestMemoryFaults + 1
        ∧ t.interruptStatus = s.interruptStatus ∧ ∃ es, t.history = s.history ++ es ∧ pulses es = 0))
    ∧ (∀ v, i = .wrQueueNotify v →
        t.busOutcome = some .ok ∨ t = afterRegisterError s .write 0x050#12 4)

/-- R180, R204, R206, R246: in any interleaving, the engine touches no register but those its rules name: the
control registers, the configuration, the other bank, and the size and addresses of its own bank stay; output is
only appended; TX takes no frame from the host's port, and RX only from its front; RX uses up no answer of the host's,
and TX only from the front. -/
def Obligations.EngineFrame : Prop :=
  ∀ (s t : State) (i : Instr) (q : QueueId), s.cfg.wf = true →
    (i = .wrQueueNotify (queueIndex q) ∨ (i = .evtHostRxReady ∧ q = .rx)) → exec i s = .next t →
    t.cfg = s.cfg ∧ t.hostFeaturesSel = s.hostFeaturesSel ∧ t.guestFeaturesSel = s.guestFeaturesSel
      ∧ t.driverFeatures = s.driverFeatures ∧ t.pageSize = s.pageSize ∧ t.queueSel = s.queueSel
      ∧ t.configSpace = s.configSpace ∧ t.inputs = s.inputs ∧ t.opsBegun = s.opsBegun
      ∧ t.busBuffer = s.busBuffer
      ∧ (∀ p, p ≠ q → t.queue p = s.queue p)
      ∧ (t.queue q).size = (s.queue q).size ∧ (t.queue q).descAddr = (s.queue q).descAddr
      ∧ (t.queue q).availAddr = (s.queue q).availAddr ∧ (t.queue q).usedAddr = (s.queue q).usedAddr
      ∧ (∃ es, t.history = s.history ++ es) ∧ (∃ k, t.race = s.race.drop k)
      ∧ (q = .tx → t.rxPort = s.rxPort ∧ ∃ k, t.txAnswers = s.txAnswers.drop k)
      ∧ (q = .rx → t.txAnswers = s.txAnswers ∧ ∃ k, t.rxPort = s.rxPort.drop k)

/-- R184, R78, R201: with the guest quiet, a TX notify stores nothing outside the TX queue's used ring, whatever the
guest's memory holds and however the operation ends. -/
def Obligations.TxNotifyStoresOnlyInTheUsedRing : Prop :=
  ∀ (s t : State), s.cfg.wf = true → quiet s → s.mem.wf = true → configured s.txq = true →
    exec (.wrQueueNotify 1#32) s = .next t →
    ∀ a, ¬ inUsedRing s.txq a → memGet t.mem a = memGet s.mem a

/-- R221, R222, R224: in any interleaving, one operation sends at most one pulse, its value is 1, and it sends one only
when a queue's interrupt bit was clear, which it then sets. -/
def Obligations.AtMostOnePulsePerOperation : Prop :=
  ∀ (i : Instr) (s t : State), exec i s = .next t →
    ∃ es, t.history = s.history ++ es ∧ pulses es ≤ 1
      ∧ (∀ v, .irqPulse v ∈ es → v = 1)
      ∧ (pulses es = 1 → ∃ q, s.interruptStatus &&& irqBit s.cfg q = 0#32
          ∧ t.interruptStatus = s.interruptStatus ||| irqBit s.cfg q)

/-- R181, R180, R204: the race closure. In any interleaving with the guest, a drain that ends normally ends, on TX,
with the available index it read last, after re-enabling notifications, equal to its cursor; on RX the same, or with
no frame waiting, or after a host read error. -/
def Obligations.DrainsEndOnlyAfterTheRecheck : Prop :=
  (∀ (fuel : Nat) (s t : State), txLoop fuel s = some (.ok () t) →
    availIdx t .tx = t.txq.nextAvail ∧ t.txq.notifySuppressed = false)
  ∧ ∀ (fuel : Nat) (s t : State), rxLoop fuel s = some (.ok () t) →
    t.rxq.notifySuppressed = false
      ∧ (t.rxPort = [] ∨ availIdx t .rx = t.rxq.nextAvail ∨ s.diag.hostIoErrors < t.diag.hostIoErrors)

/-- R207, R271, R274: under R271's premise, that the guest stores finitely often (here: the turns of `race`), every
operation runs to its end; no operation of a machine that keeps the invariant (R5 and the shape of log 14 are part of
it) faults or is refused, power-on being the first (R260). The bound on `QUEUE_ALIGN` keeps the used ring off the available index (log 9). -/
def Obligations.EveryOperationEnds : Prop :=
  ∀ (i : Instr) (s : State), s.Inv → s.cfg.queueAlign ≤ 2 ^ 63 → s.cfg.extraFeatures = 0#64 →
    (i = .evtPowerOn → s.opsBegun ≤ 1) → Completes (exec i s)

/-! ## Invariants and the machine as a whole -/

/-- The invariant of the state (R5, R15, R18, R23, R32, R46, R237, R260 and the model's own clauses, the shape of
log 14 among them) is kept by every step. -/
def Obligations.EveryStepKeepsTheInvariant : Prop :=
  ∀ s t : State, s.Inv → step s = .next t → t.Inv

/-- It holds after power-on, for every configuration that `Config.wf` accepts (R5 and the shape of log 14). -/
def Obligations.ResetHasTheInvariant : Prop := ∀ c : Config, c.wf = true → (State.resetWith c).Inv

/-- R4, R23, R110, R260: no step changes a parameter, and none but power-on, as the first operation, a configuration
byte. -/
def Obligations.ParametersNeverChange : Prop :=
  ∀ s t : State, step s = .next t →
    t.cfg = s.cfg
      ∧ (t.configSpace = s.configSpace
        ∨ s.opsBegun = 0 ∧ ∃ image rest, s.inputs = .op image :: rest ∧ decode image = .ok .evtPowerOn)
      ∧ s.opsBegun ≤ t.opsBegun

/-- R31: no rule reads the diagnostics: what an operation does to everything else does not depend on them. -/
def Obligations.DiagnosticsAreNeverRead : Prop :=
  ∀ (i : Instr) (s : State), hideOutcome (exec i s) = hideOutcome (exec i (hideDiagnostics s))
end

