-- ==== Sys2Proof/Laws/Bytes.lean ====
section
/-! SUPPORT. Little-endian numbers: lengths, and reading back what was laid out. -/

namespace Sys2Proof.Machine

@[simp] theorem bytesLE_length (n v : Nat) : (bytesLE n v).length = n := by
  induction n generalizing v with
  | zero => rfl
  | succ n ih => simp [bytesLE, ih]

theorem bytesLE_eq_nil (n v : Nat) : bytesLE n v = [] ↔ n = 0 := by
  rw [← List.length_eq_zero_iff, bytesLE_length]

theorem leNat_bytesLE (n v : Nat) : leNat (bytesLE n v) = v % 256 ^ n := by
  induction n generalizing v with
  | zero => simp [bytesLE, leNat, Nat.mod_one]
  | succ n ih =>
    have h : (BitVec.ofNat 8 v).toNat = v % 256 := by rw [BitVec.toNat_ofNat]
    rw [bytesLE, leNat, ih, h, Nat.pow_succ', Nat.mod_mul]

theorem leNat_append (a b : List Byte) : leNat (a ++ b) = leNat a + 256 ^ a.length * leNat b := by
  induction a with
  | nil => simp [leNat]
  | cons x a ih => simp only [List.cons_append, leNat, ih, List.length_cons, Nat.pow_succ']; ring

theorem leNat_lt (b : List Byte) : leNat b < 256 ^ b.length := by
  induction b with
  | nil => simp [leNat]
  | cons x b ih =>
    have := x.isLt
    simp only [leNat, List.length_cons, Nat.pow_succ']
    omega

/-- Putting a byte above a number: the number of the longer sequence. -/
theorem append_toNat_low {n : Nat} (hi : BitVec n) (lo : Byte) :
    (hi ++ lo).toNat = lo.toNat + 256 * hi.toNat := by
  rw [BitVec.toNat_append, ← Nat.shiftLeft_add_eq_or_of_lt lo.isLt, Nat.shiftLeft_eq]
  omega

/-- `LE16` of two bytes is their concatenation, the second in the more significant place. -/
theorem le16_pair (b0 b1 : Byte) : le16 [b0, b1] = b1 ++ b0 := by
  apply BitVec.eq_of_toNat_eq
  have h0 := b0.isLt
  have h1 := b1.isLt
  rw [append_toNat_low, le16, BitVec.toNat_ofNat]
  simp only [leNat]
  omega

/-- `LE32` of four bytes is their concatenation, the last in the most significant place. -/
theorem le32_quad (b0 b1 b2 b3 : Byte) : le32 [b0, b1, b2, b3] = b3 ++ b2 ++ b1 ++ b0 := by
  apply BitVec.eq_of_toNat_eq
  have h0 := b0.isLt
  have h1 := b1.isLt
  have h2 := b2.isLt
  have h3 := b3.isLt
  rw [append_toNat_low, append_toNat_low, append_toNat_low, le32, BitVec.toNat_ofNat]
  simp only [leNat]
  omega

@[simp] theorem le16_bytesLE (v : Half) : le16 (bytesLE 2 v.toNat) = v := by
  apply BitVec.eq_of_toNat_eq
  have := v.isLt
  rw [le16, leNat_bytesLE, BitVec.toNat_ofNat]
  omega

@[simp] theorem le32_bytesLE (v : Word) : le32 (bytesLE 4 v.toNat) = v := by
  apply BitVec.eq_of_toNat_eq
  have := v.isLt
  rw [le32, leNat_bytesLE, BitVec.toNat_ofNat]
  omega

@[simp] theorem le64_bytesLE (v : Dword) : le64 (bytesLE 8 v.toNat) = v := by
  apply BitVec.eq_of_toNat_eq
  have := v.isLt
  rw [le64, leNat_bytesLE, BitVec.toNat_ofNat]
  omega

end Sys2Proof.Machine
end

