-- ==== Sys2Proof/Laws/Memory.lean ====
section
/-! SUPPORT. The laws of guest memory: a read after a write, and the canonical form. -/

namespace Sys2Proof.Machine

/-! ## The canonical form -/

/-- Every entry of `m` lies above `k`. -/
def memAbove (k : Nat) : Memory → Prop
  | [] => True
  | (k', _) :: _ => k < k'

theorem wf_cons {k : Nat} {b : Byte} {m : Memory} :
    Memory.wf ((k, b) :: m) = true ↔
      k < 2 ^ 64 ∧ b ≠ unlistedByte ∧ memAbove k m ∧ Memory.wf m = true := by
  cases m with
  | nil => simp [Memory.wf, memAbove]
  | cons p m => obtain ⟨k', c⟩ := p; simp [Memory.wf, memAbove, and_assoc]

theorem wf_nil : Memory.wf [] = true := rfl

theorem memCons_wf {a : Nat} {b : Byte} {m : Memory} (ha : a < 2 ^ 64) (hk : memAbove a m)
    (h : Memory.wf m = true) : Memory.wf (memCons a b m) = true := by
  unfold memCons
  split
  · exact h
  · exact wf_cons.2 ⟨ha, ‹_›, hk, h⟩

theorem memAbove_of_le {j k : Nat} (hjk : j ≤ k) {m : Memory} (h : memAbove k m) : memAbove j m := by
  cases m with
  | nil => trivial
  | cons p m => exact lt_of_le_of_lt hjk h

theorem memAbove_tail {j k : Nat} {b : Byte} {m : Memory} (h : Memory.wf ((k, b) :: m) = true)
    (hj : j ≤ k) : memAbove j m := memAbove_of_le hj (wf_cons.1 h).2.2.1

theorem memAbove_memCons {j a : Nat} {b : Byte} {m : Memory} (hj : j < a) (h : memAbove j m) :
    memAbove j (memCons a b m) := by
  unfold memCons
  split
  · exact h
  · exact hj

theorem memAbove_memSet {j a : Nat} {b : Byte} (hj : j < a) :
    ∀ {m : Memory}, Memory.wf m = true → memAbove j m → memAbove j (memSet m a b)
  | [], _, _ => memAbove_memCons hj trivial
  | (k, c) :: m, hw, h => by
    unfold memSet
    split
    · exact memAbove_memCons hj h
    · split
      · exact memAbove_memCons hj (memAbove_tail hw (le_of_lt h))
      · exact h

/-- A store of one byte keeps the canonical form. -/
theorem memSet_wf {a : Nat} (b : Byte) (ha : a < 2 ^ 64) :
    ∀ {m : Memory}, Memory.wf m = true → Memory.wf (memSet m a b) = true
  | [], _ => memCons_wf ha trivial rfl
  | (k, c) :: m, h => by
    obtain ⟨hk, hc, hab, hm⟩ := wf_cons.1 h
    unfold memSet
    split
    · exact memCons_wf ha ‹_› h
    · split
      · next he => subst he; exact memCons_wf ha hab hm
      · refine wf_cons.2 ⟨hk, hc, memAbove_memSet ?_ hm hab, memSet_wf b ha hm⟩
        omega

/-- A store of a byte sequence keeps the canonical form. -/
theorem writeBytes_wf : ∀ (bs : List Byte) {m : Memory} (a : Dword),
    Memory.wf m = true → Memory.wf (writeBytes m a bs) = true
  | [], _, _, h => h
  | b :: bs, _, a, h => writeBytes_wf bs _ (memSet_wf b a.isLt h)

/-- The guest's stores keep the canonical form. -/
theorem applyStores_wf : ∀ (gs : List GuestStore) {m : Memory},
    Memory.wf m = true → Memory.wf (applyStores m gs) = true
  | [], _, h => h
  | g :: gs, _, h => applyStores_wf gs (writeBytes_wf g.bytes g.addr h)

/-! ## Reading after writing -/

theorem memGet_of_above {a : Nat} : ∀ {m : Memory}, Memory.wf m = true → memAbove a m →
    memGet m a = unlistedByte
  | [], _, _ => rfl
  | (k, c) :: m, h, hk => by
    have hk' : a < k := hk
    rw [memGet, if_neg (by omega)]
    exact memGet_of_above (wf_cons.1 h).2.2.2 (memAbove_tail h (le_of_lt hk'))

theorem memGet_memCons (a b) {m : Memory} (h : Memory.wf m = true) (hk : memAbove a m) (a' : Nat) :
    memGet (memCons a b m) a' = if a = a' then b else memGet m a' := by
  unfold memCons
  split
  · next hb =>
    split
    · next he => subst he; rw [hb]; exact memGet_of_above h hk
    · rfl
  · rfl

/-- Reading any byte after storing one. -/
theorem memGet_memSet {a : Nat} {b : Byte} (a' : Nat) : ∀ {m : Memory}, Memory.wf m = true →
    memGet (memSet m a b) a' = if a = a' then b else memGet m a'
  | [], h => memGet_memCons a b h trivial a'
  | (k, c) :: m, h => by
    obtain ⟨-, -, hab, hm⟩ := wf_cons.1 h
    unfold memSet
    split
    · exact memGet_memCons a b h ‹_› a'
    · split
      · next he =>
        subst he
        rw [memGet_memCons a b hm hab, memGet]
        split <;> rfl
      · next hne =>
        rw [memGet, memGet, memGet_memSet a' hm]
        split
        · next hk => subst hk; rw [if_neg hne]
        · rfl

@[simp] theorem readBytes_length (m : Memory) (a : Dword) (n : Nat) : (readBytes m a n).length = n := by
  induction n generalizing a with
  | zero => rfl
  | succ n ih => simp [readBytes, ih]

/-- Byte `i` of a read. -/
theorem readBytes_getElem (m : Memory) (a : Dword) (n i : Nat) (h : i < (readBytes m a n).length) :
    (readBytes m a n)[i] = memGet m (a + BitVec.ofNat 64 i).toNat := by
  induction n generalizing a i with
  | zero => simp [readBytes] at h
  | succ n ih =>
    cases i with
    | zero => simp [readBytes]
    | succ i =>
      simp only [readBytes, List.getElem_cons_succ]
      rw [ih]
      congr 2
      rw [BitVec.add_assoc]
      congr 1
      apply BitVec.eq_of_toNat_eq
      simp [Nat.add_comm]

theorem addr_add_toNat {a : Dword} {i : Nat} (h : a.toNat + i < 2 ^ 64) :
    (a + BitVec.ofNat 64 i).toNat = a.toNat + i := by
  rw [BitVec.toNat_add, BitVec.toNat_ofNat]
  omega

/-- Reading a byte after storing a sequence that does not run past the address space. -/
theorem memGet_writeBytes : ∀ (bs : List Byte) {m : Memory} (a : Dword) (a' : Nat),
    Memory.wf m = true → a.toNat + bs.length ≤ 2 ^ 64 →
    memGet (writeBytes m a bs) a' =
      if h : a.toNat ≤ a' ∧ a' - a.toNat < bs.length then bs[a' - a.toNat] else memGet m a'
  | [], m, a, a', _, _ => by simp [writeBytes]
  | b :: bs, m, a, a', hw, hlen => by
    have hset := memSet_wf b a.isLt hw
    simp only [List.length_cons] at hlen
    rw [writeBytes]
    cases bs with
    | nil =>
      rw [writeBytes, memGet_memSet a' hw]
      by_cases he : a.toNat = a'
      · subst he; simp
      · rw [if_neg he, dif_neg (by simp; omega)]
    | cons c bs =>
      simp only [List.length_cons] at hlen
      have hn : (a + 1#64).toNat = a.toNat + 1 := addr_add_toNat (i := 1) (by omega)
      rw [memGet_writeBytes (c :: bs) (a + 1#64) a' hset (by simp only [List.length_cons]; omega),
        memGet_memSet a' hw]
      simp only [hn]
      by_cases he : a.toNat = a'
      · subst he
        rw [dif_neg (by omega), if_pos rfl, dif_pos (by simp)]
        simp
      · rw [if_neg he]
        by_cases hc : a.toNat + 1 ≤ a' ∧ a' - (a.toNat + 1) < (c :: bs).length
        · have hc' := hc
          simp only [List.length_cons] at hc'
          rw [dif_pos hc, dif_pos (by simp only [List.length_cons]; omega)]
          have : a' - a.toNat = (a' - (a.toNat + 1)) + 1 := by omega
          simp only [this, List.getElem_cons_succ]
        · rw [dif_neg hc, dif_neg (by simp only [List.length_cons] at hc ⊢; omega)]

/-- Bytes outside a stored sequence read as before. -/
theorem memGet_writeBytes_outside {m : Memory} (hw : Memory.wf m = true) {a : Dword} {bs : List Byte}
    {a' : Nat} (hlen : a.toNat + bs.length ≤ 2 ^ 64)
    (ho : a' < a.toNat ∨ a.toNat + bs.length ≤ a') :
    memGet (writeBytes m a bs) a' = memGet m a' := by
  rw [memGet_writeBytes bs a a' hw hlen, dif_neg (by omega)]

/-- What was stored reads back. -/
theorem readBytes_writeBytes {m : Memory} (hw : Memory.wf m = true) (a : Dword) (bs : List Byte)
    (hlen : a.toNat + bs.length ≤ 2 ^ 64) :
    readBytes (writeBytes m a bs) a bs.length = bs := by
  apply List.ext_getElem (by simp)
  intro i h1 h2
  rw [readBytes_getElem, memGet_writeBytes bs a _ hw hlen, addr_add_toNat (by omega),
    dif_pos (by omega)]
  congr 1
  omega

/-- A read of bytes outside a stored sequence is as before. -/
theorem readBytes_writeBytes_outside {m : Memory} (hw : Memory.wf m = true) {a c : Dword} {bs : List Byte}
    {n : Nat} (hlen : a.toNat + bs.length ≤ 2 ^ 64) (hn : c.toNat + n ≤ 2 ^ 64)
    (ho : c.toNat + n ≤ a.toNat ∨ a.toNat + bs.length ≤ c.toNat) :
    readBytes (writeBytes m a bs) c n = readBytes m c n := by
  apply List.ext_getElem (by simp)
  intro i h1 h2
  simp only [readBytes_length] at h1
  rw [readBytes_getElem, readBytes_getElem, addr_add_toNat (by omega),
    memGet_writeBytes_outside hw hlen (by omega)]

end Sys2Proof.Machine
end

