-- ==== Sys2Proof/Laws/State.lean ====
section
/-! SUPPORT. What each shared update does to each field of the state, one lemma per field and update, so that no
proof unfolds a record update. -/

namespace Sys2Proof.Machine

/-! ## setQueue -/

@[simp] theorem setQueue_cfg (s : State) (i : QueueId) (q : Queue) : (s.setQueue i q).cfg = s.cfg := by cases i <;> rfl
@[simp] theorem setQueue_status (s : State) (i : QueueId) (q : Queue) : (s.setQueue i q).status = s.status := by cases i <;> rfl
@[simp] theorem setQueue_operational (s : State) (i : QueueId) (q : Queue) : (s.setQueue i q).operational = s.operational := by cases i <;> rfl
@[simp] theorem setQueue_failedByDevice (s : State) (i : QueueId) (q : Queue) : (s.setQueue i q).failedByDevice = s.failedByDevice := by cases i <;> rfl
@[simp] theorem setQueue_hostFeaturesSel (s : State) (i : QueueId) (q : Queue) : (s.setQueue i q).hostFeaturesSel = s.hostFeaturesSel := by cases i <;> rfl
@[simp] theorem setQueue_guestFeaturesSel (s : State) (i : QueueId) (q : Queue) : (s.setQueue i q).guestFeaturesSel = s.guestFeaturesSel := by cases i <;> rfl
@[simp] theorem setQueue_driverFeatures (s : State) (i : QueueId) (q : Queue) : (s.setQueue i q).driverFeatures = s.driverFeatures := by cases i <;> rfl
@[simp] theorem setQueue_pageSize (s : State) (i : QueueId) (q : Queue) : (s.setQueue i q).pageSize = s.pageSize := by cases i <;> rfl
@[simp] theorem setQueue_queueSel (s : State) (i : QueueId) (q : Queue) : (s.setQueue i q).queueSel = s.queueSel := by cases i <;> rfl
@[simp] theorem setQueue_interruptStatus (s : State) (i : QueueId) (q : Queue) : (s.setQueue i q).interruptStatus = s.interruptStatus := by cases i <;> rfl
@[simp] theorem setQueue_configSpace (s : State) (i : QueueId) (q : Queue) : (s.setQueue i q).configSpace = s.configSpace := by cases i <;> rfl
@[simp] theorem setQueue_diag (s : State) (i : QueueId) (q : Queue) : (s.setQueue i q).diag = s.diag := by cases i <;> rfl
@[simp] theorem setQueue_mem (s : State) (i : QueueId) (q : Queue) : (s.setQueue i q).mem = s.mem := by cases i <;> rfl
@[simp] theorem setQueue_race (s : State) (i : QueueId) (q : Queue) : (s.setQueue i q).race = s.race := by cases i <;> rfl
@[simp] theorem setQueue_rxPort (s : State) (i : QueueId) (q : Queue) : (s.setQueue i q).rxPort = s.rxPort := by cases i <;> rfl
@[simp] theorem setQueue_txAnswers (s : State) (i : QueueId) (q : Queue) : (s.setQueue i q).txAnswers = s.txAnswers := by cases i <;> rfl
@[simp] theorem setQueue_inputs (s : State) (i : QueueId) (q : Queue) : (s.setQueue i q).inputs = s.inputs := by cases i <;> rfl
@[simp] theorem setQueue_opsBegun (s : State) (i : QueueId) (q : Queue) : (s.setQueue i q).opsBegun = s.opsBegun := by cases i <;> rfl
@[simp] theorem setQueue_busOutcome (s : State) (i : QueueId) (q : Queue) : (s.setQueue i q).busOutcome = s.busOutcome := by cases i <;> rfl
@[simp] theorem setQueue_busBuffer (s : State) (i : QueueId) (q : Queue) : (s.setQueue i q).busBuffer = s.busBuffer := by cases i <;> rfl
@[simp] theorem setQueue_history (s : State) (i : QueueId) (q : Queue) : (s.setQueue i q).history = s.history := by cases i <;> rfl
@[simp] theorem setQueue_errorLog (s : State) (i : QueueId) (q : Queue) : (s.setQueue i q).errorLog = s.errorLog := by cases i <;> rfl
@[simp] theorem setQueue_queue_same (s : State) (i : QueueId) (q : Queue) : (s.setQueue i q).queue i = q := by cases i <;> rfl
theorem setQueue_queue_other (s : State) (i j : QueueId) (q : Queue) (h : j ≠ i) : (s.setQueue i q).queue j = s.queue j := by cases i <;> cases j <;> first | rfl | exact absurd rfl h
@[simp] theorem setQueue_rx_rxq (s : State) (q : Queue) : (s.setQueue .rx q).rxq = q := rfl
@[simp] theorem setQueue_rx_txq (s : State) (q : Queue) : (s.setQueue .rx q).txq = s.txq := rfl
@[simp] theorem setQueue_tx_rxq (s : State) (q : Queue) : (s.setQueue .tx q).rxq = s.rxq := rfl
@[simp] theorem setQueue_tx_txq (s : State) (q : Queue) : (s.setQueue .tx q).txq = q := rfl
@[simp] theorem setQueue_setQueue (s : State) (i : QueueId) (p q : Queue) : (s.setQueue i p).setQueue i q = s.setQueue i q := by cases i <;> rfl
@[simp] theorem setQueue_self (s : State) (i : QueueId) : s.setQueue i (s.queue i) = s := by cases i <;> rfl

/-! ## emit -/

@[simp] theorem emit_cfg (s : State) (e : Event) : (s.emit e).cfg = s.cfg := rfl
@[simp] theorem emit_status (s : State) (e : Event) : (s.emit e).status = s.status := rfl
@[simp] theorem emit_operational (s : State) (e : Event) : (s.emit e).operational = s.operational := rfl
@[simp] theorem emit_failedByDevice (s : State) (e : Event) : (s.emit e).failedByDevice = s.failedByDevice := rfl
@[simp] theorem emit_hostFeaturesSel (s : State) (e : Event) : (s.emit e).hostFeaturesSel = s.hostFeaturesSel := rfl
@[simp] theorem emit_guestFeaturesSel (s : State) (e : Event) : (s.emit e).guestFeaturesSel = s.guestFeaturesSel := rfl
@[simp] theorem emit_driverFeatures (s : State) (e : Event) : (s.emit e).driverFeatures = s.driverFeatures := rfl
@[simp] theorem emit_pageSize (s : State) (e : Event) : (s.emit e).pageSize = s.pageSize := rfl
@[simp] theorem emit_queueSel (s : State) (e : Event) : (s.emit e).queueSel = s.queueSel := rfl
@[simp] theorem emit_interruptStatus (s : State) (e : Event) : (s.emit e).interruptStatus = s.interruptStatus := rfl
@[simp] theorem emit_rxq (s : State) (e : Event) : (s.emit e).rxq = s.rxq := rfl
@[simp] theorem emit_txq (s : State) (e : Event) : (s.emit e).txq = s.txq := rfl
@[simp] theorem emit_configSpace (s : State) (e : Event) : (s.emit e).configSpace = s.configSpace := rfl
@[simp] theorem emit_diag (s : State) (e : Event) : (s.emit e).diag = s.diag := rfl
@[simp] theorem emit_mem (s : State) (e : Event) : (s.emit e).mem = s.mem := rfl
@[simp] theorem emit_race (s : State) (e : Event) : (s.emit e).race = s.race := rfl
@[simp] theorem emit_rxPort (s : State) (e : Event) : (s.emit e).rxPort = s.rxPort := rfl
@[simp] theorem emit_txAnswers (s : State) (e : Event) : (s.emit e).txAnswers = s.txAnswers := rfl
@[simp] theorem emit_inputs (s : State) (e : Event) : (s.emit e).inputs = s.inputs := rfl
@[simp] theorem emit_opsBegun (s : State) (e : Event) : (s.emit e).opsBegun = s.opsBegun := rfl
@[simp] theorem emit_busOutcome (s : State) (e : Event) : (s.emit e).busOutcome = s.busOutcome := rfl
@[simp] theorem emit_busBuffer (s : State) (e : Event) : (s.emit e).busBuffer = s.busBuffer := rfl
@[simp] theorem emit_history (s : State) (e : Event) : (s.emit e).history = s.history ++ [e] := rfl
@[simp] theorem emit_errorLog (s : State) (e : Event) : (s.emit e).errorLog = s.errorLog := rfl
@[simp] theorem emit_queue (s : State) (e : Event) (j : QueueId) : (s.emit e).queue j = s.queue j := by cases j <;> rfl

/-! ## log -/

@[simp] theorem log_cfg (s : State) (e : ErrorInfo) : (s.log e).cfg = s.cfg := rfl
@[simp] theorem log_status (s : State) (e : ErrorInfo) : (s.log e).status = s.status := rfl
@[simp] theorem log_operational (s : State) (e : ErrorInfo) : (s.log e).operational = s.operational := rfl
@[simp] theorem log_failedByDevice (s : State) (e : ErrorInfo) : (s.log e).failedByDevice = s.failedByDevice := rfl
@[simp] theorem log_hostFeaturesSel (s : State) (e : ErrorInfo) : (s.log e).hostFeaturesSel = s.hostFeaturesSel := rfl
@[simp] theorem log_guestFeaturesSel (s : State) (e : ErrorInfo) : (s.log e).guestFeaturesSel = s.guestFeaturesSel := rfl
@[simp] theorem log_driverFeatures (s : State) (e : ErrorInfo) : (s.log e).driverFeatures = s.driverFeatures := rfl
@[simp] theorem log_pageSize (s : State) (e : ErrorInfo) : (s.log e).pageSize = s.pageSize := rfl
@[simp] theorem log_queueSel (s : State) (e : ErrorInfo) : (s.log e).queueSel = s.queueSel := rfl
@[simp] theorem log_interruptStatus (s : State) (e : ErrorInfo) : (s.log e).interruptStatus = s.interruptStatus := rfl
@[simp] theorem log_rxq (s : State) (e : ErrorInfo) : (s.log e).rxq = s.rxq := rfl
@[simp] theorem log_txq (s : State) (e : ErrorInfo) : (s.log e).txq = s.txq := rfl
@[simp] theorem log_configSpace (s : State) (e : ErrorInfo) : (s.log e).configSpace = s.configSpace := rfl
@[simp] theorem log_diag (s : State) (e : ErrorInfo) : (s.log e).diag = s.diag := rfl
@[simp] theorem log_mem (s : State) (e : ErrorInfo) : (s.log e).mem = s.mem := rfl
@[simp] theorem log_race (s : State) (e : ErrorInfo) : (s.log e).race = s.race := rfl
@[simp] theorem log_rxPort (s : State) (e : ErrorInfo) : (s.log e).rxPort = s.rxPort := rfl
@[simp] theorem log_txAnswers (s : State) (e : ErrorInfo) : (s.log e).txAnswers = s.txAnswers := rfl
@[simp] theorem log_inputs (s : State) (e : ErrorInfo) : (s.log e).inputs = s.inputs := rfl
@[simp] theorem log_opsBegun (s : State) (e : ErrorInfo) : (s.log e).opsBegun = s.opsBegun := rfl
@[simp] theorem log_busOutcome (s : State) (e : ErrorInfo) : (s.log e).busOutcome = s.busOutcome := rfl
@[simp] theorem log_busBuffer (s : State) (e : ErrorInfo) : (s.log e).busBuffer = s.busBuffer := rfl
@[simp] theorem log_history (s : State) (e : ErrorInfo) : (s.log e).history = s.history := rfl
@[simp] theorem log_errorLog (s : State) (e : ErrorInfo) : (s.log e).errorLog = s.errorLog ++ [e] := rfl
@[simp] theorem log_queue (s : State) (e : ErrorInfo) (j : QueueId) : (s.log e).queue j = s.queue j := by cases j <;> rfl

/-! ## busOk -/

@[simp] theorem busOk_cfg (s : State) : (busOk s).cfg = s.cfg := rfl
@[simp] theorem busOk_status (s : State) : (busOk s).status = s.status := rfl
@[simp] theorem busOk_operational (s : State) : (busOk s).operational = s.operational := rfl
@[simp] theorem busOk_failedByDevice (s : State) : (busOk s).failedByDevice = s.failedByDevice := rfl
@[simp] theorem busOk_hostFeaturesSel (s : State) : (busOk s).hostFeaturesSel = s.hostFeaturesSel := rfl
@[simp] theorem busOk_guestFeaturesSel (s : State) : (busOk s).guestFeaturesSel = s.guestFeaturesSel := rfl
@[simp] theorem busOk_driverFeatures (s : State) : (busOk s).driverFeatures = s.driverFeatures := rfl
@[simp] theorem busOk_pageSize (s : State) : (busOk s).pageSize = s.pageSize := rfl
@[simp] theorem busOk_queueSel (s : State) : (busOk s).queueSel = s.queueSel := rfl
@[simp] theorem busOk_interruptStatus (s : State) : (busOk s).interruptStatus = s.interruptStatus := rfl
@[simp] theorem busOk_rxq (s : State) : (busOk s).rxq = s.rxq := rfl
@[simp] theorem busOk_txq (s : State) : (busOk s).txq = s.txq := rfl
@[simp] theorem busOk_configSpace (s : State) : (busOk s).configSpace = s.configSpace := rfl
@[simp] theorem busOk_diag (s : State) : (busOk s).diag = s.diag := rfl
@[simp] theorem busOk_mem (s : State) : (busOk s).mem = s.mem := rfl
@[simp] theorem busOk_race (s : State) : (busOk s).race = s.race := rfl
@[simp] theorem busOk_rxPort (s : State) : (busOk s).rxPort = s.rxPort := rfl
@[simp] theorem busOk_txAnswers (s : State) : (busOk s).txAnswers = s.txAnswers := rfl
@[simp] theorem busOk_inputs (s : State) : (busOk s).inputs = s.inputs := rfl
@[simp] theorem busOk_opsBegun (s : State) : (busOk s).opsBegun = s.opsBegun := rfl
@[simp] theorem busOk_busOutcome (s : State) : (busOk s).busOutcome = some .ok := rfl
@[simp] theorem busOk_busBuffer (s : State) : (busOk s).busBuffer = s.busBuffer := rfl
@[simp] theorem busOk_history (s : State) : (busOk s).history = s.history := rfl
@[simp] theorem busOk_errorLog (s : State) : (busOk s).errorLog = s.errorLog := rfl
@[simp] theorem busOk_queue (s : State) (j : QueueId) : (busOk s).queue j = s.queue j := by cases j <;> rfl

/-! ## busRead -/

@[simp] theorem busRead_cfg (d : List Byte) (s : State) : (busRead d s).cfg = s.cfg := rfl
@[simp] theorem busRead_status (d : List Byte) (s : State) : (busRead d s).status = s.status := rfl
@[simp] theorem busRead_operational (d : List Byte) (s : State) : (busRead d s).operational = s.operational := rfl
@[simp] theorem busRead_failedByDevice (d : List Byte) (s : State) : (busRead d s).failedByDevice = s.failedByDevice := rfl
@[simp] theorem busRead_hostFeaturesSel (d : List Byte) (s : State) : (busRead d s).hostFeaturesSel = s.hostFeaturesSel := rfl
@[simp] theorem busRead_guestFeaturesSel (d : List Byte) (s : State) : (busRead d s).guestFeaturesSel = s.guestFeaturesSel := rfl
@[simp] theorem busRead_driverFeatures (d : List Byte) (s : State) : (busRead d s).driverFeatures = s.driverFeatures := rfl
@[simp] theorem busRead_pageSize (d : List Byte) (s : State) : (busRead d s).pageSize = s.pageSize := rfl
@[simp] theorem busRead_queueSel (d : List Byte) (s : State) : (busRead d s).queueSel = s.queueSel := rfl
@[simp] theorem busRead_interruptStatus (d : List Byte) (s : State) : (busRead d s).interruptStatus = s.interruptStatus := rfl
@[simp] theorem busRead_rxq (d : List Byte) (s : State) : (busRead d s).rxq = s.rxq := rfl
@[simp] theorem busRead_txq (d : List Byte) (s : State) : (busRead d s).txq = s.txq := rfl
@[simp] theorem busRead_configSpace (d : List Byte) (s : State) : (busRead d s).configSpace = s.configSpace := rfl
@[simp] theorem busRead_diag (d : List Byte) (s : State) : (busRead d s).diag = s.diag := rfl
@[simp] theorem busRead_mem (d : List Byte) (s : State) : (busRead d s).mem = s.mem := rfl
@[simp] theorem busRead_race (d : List Byte) (s : State) : (busRead d s).race = s.race := rfl
@[simp] theorem busRead_rxPort (d : List Byte) (s : State) : (busRead d s).rxPort = s.rxPort := rfl
@[simp] theorem busRead_txAnswers (d : List Byte) (s : State) : (busRead d s).txAnswers = s.txAnswers := rfl
@[simp] theorem busRead_inputs (d : List Byte) (s : State) : (busRead d s).inputs = s.inputs := rfl
@[simp] theorem busRead_opsBegun (d : List Byte) (s : State) : (busRead d s).opsBegun = s.opsBegun := rfl
@[simp] theorem busRead_busOutcome (d : List Byte) (s : State) : (busRead d s).busOutcome = some .ok := rfl
@[simp] theorem busRead_busBuffer (d : List Byte) (s : State) : (busRead d s).busBuffer = d := rfl
@[simp] theorem busRead_history (d : List Byte) (s : State) : (busRead d s).history = s.history := rfl
@[simp] theorem busRead_errorLog (d : List Byte) (s : State) : (busRead d s).errorLog = s.errorLog := rfl
@[simp] theorem busRead_queue (d : List Byte) (s : State) (j : QueueId) : (busRead d s).queue j = s.queue j := by cases j <;> rfl

/-! ## busReadReg -/

@[simp] theorem busReadReg_cfg (v : Word) (s : State) : (busReadReg v s).cfg = s.cfg := rfl
@[simp] theorem busReadReg_status (v : Word) (s : State) : (busReadReg v s).status = s.status := rfl
@[simp] theorem busReadReg_operational (v : Word) (s : State) : (busReadReg v s).operational = s.operational := rfl
@[simp] theorem busReadReg_failedByDevice (v : Word) (s : State) : (busReadReg v s).failedByDevice = s.failedByDevice := rfl
@[simp] theorem busReadReg_hostFeaturesSel (v : Word) (s : State) : (busReadReg v s).hostFeaturesSel = s.hostFeaturesSel := rfl
@[simp] theorem busReadReg_guestFeaturesSel (v : Word) (s : State) : (busReadReg v s).guestFeaturesSel = s.guestFeaturesSel := rfl
@[simp] theorem busReadReg_driverFeatures (v : Word) (s : State) : (busReadReg v s).driverFeatures = s.driverFeatures := rfl
@[simp] theorem busReadReg_pageSize (v : Word) (s : State) : (busReadReg v s).pageSize = s.pageSize := rfl
@[simp] theorem busReadReg_queueSel (v : Word) (s : State) : (busReadReg v s).queueSel = s.queueSel := rfl
@[simp] theorem busReadReg_interruptStatus (v : Word) (s : State) : (busReadReg v s).interruptStatus = s.interruptStatus := rfl
@[simp] theorem busReadReg_rxq (v : Word) (s : State) : (busReadReg v s).rxq = s.rxq := rfl
@[simp] theorem busReadReg_txq (v : Word) (s : State) : (busReadReg v s).txq = s.txq := rfl
@[simp] theorem busReadReg_configSpace (v : Word) (s : State) : (busReadReg v s).configSpace = s.configSpace := rfl
@[simp] theorem busReadReg_diag (v : Word) (s : State) : (busReadReg v s).diag = s.diag := rfl
@[simp] theorem busReadReg_mem (v : Word) (s : State) : (busReadReg v s).mem = s.mem := rfl
@[simp] theorem busReadReg_race (v : Word) (s : State) : (busReadReg v s).race = s.race := rfl
@[simp] theorem busReadReg_rxPort (v : Word) (s : State) : (busReadReg v s).rxPort = s.rxPort := rfl
@[simp] theorem busReadReg_txAnswers (v : Word) (s : State) : (busReadReg v s).txAnswers = s.txAnswers := rfl
@[simp] theorem busReadReg_inputs (v : Word) (s : State) : (busReadReg v s).inputs = s.inputs := rfl
@[simp] theorem busReadReg_opsBegun (v : Word) (s : State) : (busReadReg v s).opsBegun = s.opsBegun := rfl
@[simp] theorem busReadReg_busOutcome (v : Word) (s : State) : (busReadReg v s).busOutcome = some .ok := rfl
@[simp] theorem busReadReg_busBuffer (v : Word) (s : State) : (busReadReg v s).busBuffer = bytesLE 4 v.toNat := rfl
@[simp] theorem busReadReg_history (v : Word) (s : State) : (busReadReg v s).history = s.history := rfl
@[simp] theorem busReadReg_errorLog (v : Word) (s : State) : (busReadReg v s).errorLog = s.errorLog := rfl
@[simp] theorem busReadReg_queue (v : Word) (s : State) (j : QueueId) : (busReadReg v s).queue j = s.queue j := by cases j <;> rfl

/-! ## raiseRegisterError -/

@[simp] theorem raiseRegisterError_cfg (d : Dir) (o : Offset) (n : Nat) (s : State) : (raiseRegisterError d o n s).cfg = s.cfg := rfl
@[simp] theorem raiseRegisterError_status (d : Dir) (o : Offset) (n : Nat) (s : State) : (raiseRegisterError d o n s).status = s.status := rfl
@[simp] theorem raiseRegisterError_operational (d : Dir) (o : Offset) (n : Nat) (s : State) : (raiseRegisterError d o n s).operational = s.operational := rfl
@[simp] theorem raiseRegisterError_failedByDevice (d : Dir) (o : Offset) (n : Nat) (s : State) : (raiseRegisterError d o n s).failedByDevice = s.failedByDevice := rfl
@[simp] theorem raiseRegisterError_hostFeaturesSel (d : Dir) (o : Offset) (n : Nat) (s : State) : (raiseRegisterError d o n s).hostFeaturesSel = s.hostFeaturesSel := rfl
@[simp] theorem raiseRegisterError_guestFeaturesSel (d : Dir) (o : Offset) (n : Nat) (s : State) : (raiseRegisterError d o n s).guestFeaturesSel = s.guestFeaturesSel := rfl
@[simp] theorem raiseRegisterError_driverFeatures (d : Dir) (o : Offset) (n : Nat) (s : State) : (raiseRegisterError d o n s).driverFeatures = s.driverFeatures := rfl
@[simp] theorem raiseRegisterError_pageSize (d : Dir) (o : Offset) (n : Nat) (s : State) : (raiseRegisterError d o n s).pageSize = s.pageSize := rfl
@[simp] theorem raiseRegisterError_queueSel (d : Dir) (o : Offset) (n : Nat) (s : State) : (raiseRegisterError d o n s).queueSel = s.queueSel := rfl
@[simp] theorem raiseRegisterError_interruptStatus (d : Dir) (o : Offset) (n : Nat) (s : State) : (raiseRegisterError d o n s).interruptStatus = s.interruptStatus := rfl
@[simp] theorem raiseRegisterError_rxq (d : Dir) (o : Offset) (n : Nat) (s : State) : (raiseRegisterError d o n s).rxq = s.rxq := rfl
@[simp] theorem raiseRegisterError_txq (d : Dir) (o : Offset) (n : Nat) (s : State) : (raiseRegisterError d o n s).txq = s.txq := rfl
@[simp] theorem raiseRegisterError_configSpace (d : Dir) (o : Offset) (n : Nat) (s : State) : (raiseRegisterError d o n s).configSpace = s.configSpace := rfl
@[simp] theorem raiseRegisterError_diag (d : Dir) (o : Offset) (n : Nat) (s : State) : (raiseRegisterError d o n s).diag = { s.diag with registerErrors := s.diag.registerErrors + 1 } := rfl
@[simp] theorem raiseRegisterError_mem (d : Dir) (o : Offset) (n : Nat) (s : State) : (raiseRegisterError d o n s).mem = s.mem := rfl
@[simp] theorem raiseRegisterError_race (d : Dir) (o : Offset) (n : Nat) (s : State) : (raiseRegisterError d o n s).race = s.race := rfl
@[simp] theorem raiseRegisterError_rxPort (d : Dir) (o : Offset) (n : Nat) (s : State) : (raiseRegisterError d o n s).rxPort = s.rxPort := rfl
@[simp] theorem raiseRegisterError_txAnswers (d : Dir) (o : Offset) (n : Nat) (s : State) : (raiseRegisterError d o n s).txAnswers = s.txAnswers := rfl
@[simp] theorem raiseRegisterError_inputs (d : Dir) (o : Offset) (n : Nat) (s : State) : (raiseRegisterError d o n s).inputs = s.inputs := rfl
@[simp] theorem raiseRegisterError_opsBegun (d : Dir) (o : Offset) (n : Nat) (s : State) : (raiseRegisterError d o n s).opsBegun = s.opsBegun := rfl
@[simp] theorem raiseRegisterError_busOutcome (d : Dir) (o : Offset) (n : Nat) (s : State) : (raiseRegisterError d o n s).busOutcome = some .registerError := rfl
@[simp] theorem raiseRegisterError_busBuffer (d : Dir) (o : Offset) (n : Nat) (s : State) : (raiseRegisterError d o n s).busBuffer = s.busBuffer := rfl
@[simp] theorem raiseRegisterError_history (d : Dir) (o : Offset) (n : Nat) (s : State) : (raiseRegisterError d o n s).history = s.history := rfl
@[simp] theorem raiseRegisterError_errorLog (d : Dir) (o : Offset) (n : Nat) (s : State) : (raiseRegisterError d o n s).errorLog = s.errorLog ++ [.registerError d o n] := rfl
@[simp] theorem raiseRegisterError_queue (d : Dir) (o : Offset) (n : Nat) (s : State) (j : QueueId) : (raiseRegisterError d o n s).queue j = s.queue j := by cases j <;> rfl

/-! ## countMalformedChain -/

@[simp] theorem countMalformedChain_cfg (h : Half) (s : State) : (countMalformedChain h s).cfg = s.cfg := rfl
@[simp] theorem countMalformedChain_status (h : Half) (s : State) : (countMalformedChain h s).status = s.status := rfl
@[simp] theorem countMalformedChain_operational (h : Half) (s : State) : (countMalformedChain h s).operational = s.operational := rfl
@[simp] theorem countMalformedChain_failedByDevice (h : Half) (s : State) : (countMalformedChain h s).failedByDevice = s.failedByDevice := rfl
@[simp] theorem countMalformedChain_hostFeaturesSel (h : Half) (s : State) : (countMalformedChain h s).hostFeaturesSel = s.hostFeaturesSel := rfl
@[simp] theorem countMalformedChain_guestFeaturesSel (h : Half) (s : State) : (countMalformedChain h s).guestFeaturesSel = s.guestFeaturesSel := rfl
@[simp] theorem countMalformedChain_driverFeatures (h : Half) (s : State) : (countMalformedChain h s).driverFeatures = s.driverFeatures := rfl
@[simp] theorem countMalformedChain_pageSize (h : Half) (s : State) : (countMalformedChain h s).pageSize = s.pageSize := rfl
@[simp] theorem countMalformedChain_queueSel (h : Half) (s : State) : (countMalformedChain h s).queueSel = s.queueSel := rfl
@[simp] theorem countMalformedChain_interruptStatus (h : Half) (s : State) : (countMalformedChain h s).interruptStatus = s.interruptStatus := rfl
@[simp] theorem countMalformedChain_rxq (h : Half) (s : State) : (countMalformedChain h s).rxq = s.rxq := rfl
@[simp] theorem countMalformedChain_txq (h : Half) (s : State) : (countMalformedChain h s).txq = s.txq := rfl
@[simp] theorem countMalformedChain_configSpace (h : Half) (s : State) : (countMalformedChain h s).configSpace = s.configSpace := rfl
@[simp] theorem countMalformedChain_diag (h : Half) (s : State) : (countMalformedChain h s).diag = { s.diag with malformedChains := s.diag.malformedChains + 1 } := rfl
@[simp] theorem countMalformedChain_mem (h : Half) (s : State) : (countMalformedChain h s).mem = s.mem := rfl
@[simp] theorem countMalformedChain_race (h : Half) (s : State) : (countMalformedChain h s).race = s.race := rfl
@[simp] theorem countMalformedChain_rxPort (h : Half) (s : State) : (countMalformedChain h s).rxPort = s.rxPort := rfl
@[simp] theorem countMalformedChain_txAnswers (h : Half) (s : State) : (countMalformedChain h s).txAnswers = s.txAnswers := rfl
@[simp] theorem countMalformedChain_inputs (h : Half) (s : State) : (countMalformedChain h s).inputs = s.inputs := rfl
@[simp] theorem countMalformedChain_opsBegun (h : Half) (s : State) : (countMalformedChain h s).opsBegun = s.opsBegun := rfl
@[simp] theorem countMalformedChain_busOutcome (h : Half) (s : State) : (countMalformedChain h s).busOutcome = s.busOutcome := rfl
@[simp] theorem countMalformedChain_busBuffer (h : Half) (s : State) : (countMalformedChain h s).busBuffer = s.busBuffer := rfl
@[simp] theorem countMalformedChain_history (h : Half) (s : State) : (countMalformedChain h s).history = s.history := rfl
@[simp] theorem countMalformedChain_errorLog (h : Half) (s : State) : (countMalformedChain h s).errorLog = s.errorLog ++ [.malformedChain h] := rfl
@[simp] theorem countMalformedChain_queue (h : Half) (s : State) (j : QueueId) : (countMalformedChain h s).queue j = s.queue j := by cases j <;> rfl

/-! ## countOversizedFrame -/

@[simp] theorem countOversizedFrame_cfg (n c : Nat) (s : State) : (countOversizedFrame n c s).cfg = s.cfg := rfl
@[simp] theorem countOversizedFrame_status (n c : Nat) (s : State) : (countOversizedFrame n c s).status = s.status := rfl
@[simp] theorem countOversizedFrame_operational (n c : Nat) (s : State) : (countOversizedFrame n c s).operational = s.operational := rfl
@[simp] theorem countOversizedFrame_failedByDevice (n c : Nat) (s : State) : (countOversizedFrame n c s).failedByDevice = s.failedByDevice := rfl
@[simp] theorem countOversizedFrame_hostFeaturesSel (n c : Nat) (s : State) : (countOversizedFrame n c s).hostFeaturesSel = s.hostFeaturesSel := rfl
@[simp] theorem countOversizedFrame_guestFeaturesSel (n c : Nat) (s : State) : (countOversizedFrame n c s).guestFeaturesSel = s.guestFeaturesSel := rfl
@[simp] theorem countOversizedFrame_driverFeatures (n c : Nat) (s : State) : (countOversizedFrame n c s).driverFeatures = s.driverFeatures := rfl
@[simp] theorem countOversizedFrame_pageSize (n c : Nat) (s : State) : (countOversizedFrame n c s).pageSize = s.pageSize := rfl
@[simp] theorem countOversizedFrame_queueSel (n c : Nat) (s : State) : (countOversizedFrame n c s).queueSel = s.queueSel := rfl
@[simp] theorem countOversizedFrame_interruptStatus (n c : Nat) (s : State) : (countOversizedFrame n c s).interruptStatus = s.interruptStatus := rfl
@[simp] theorem countOversizedFrame_rxq (n c : Nat) (s : State) : (countOversizedFrame n c s).rxq = s.rxq := rfl
@[simp] theorem countOversizedFrame_txq (n c : Nat) (s : State) : (countOversizedFrame n c s).txq = s.txq := rfl
@[simp] theorem countOversizedFrame_configSpace (n c : Nat) (s : State) : (countOversizedFrame n c s).configSpace = s.configSpace := rfl
@[simp] theorem countOversizedFrame_diag (n c : Nat) (s : State) : (countOversizedFrame n c s).diag = { s.diag with oversizedFrames := s.diag.oversizedFrames + 1 } := rfl
@[simp] theorem countOversizedFrame_mem (n c : Nat) (s : State) : (countOversizedFrame n c s).mem = s.mem := rfl
@[simp] theorem countOversizedFrame_race (n c : Nat) (s : State) : (countOversizedFrame n c s).race = s.race := rfl
@[simp] theorem countOversizedFrame_rxPort (n c : Nat) (s : State) : (countOversizedFrame n c s).rxPort = s.rxPort := rfl
@[simp] theorem countOversizedFrame_txAnswers (n c : Nat) (s : State) : (countOversizedFrame n c s).txAnswers = s.txAnswers := rfl
@[simp] theorem countOversizedFrame_inputs (n c : Nat) (s : State) : (countOversizedFrame n c s).inputs = s.inputs := rfl
@[simp] theorem countOversizedFrame_opsBegun (n c : Nat) (s : State) : (countOversizedFrame n c s).opsBegun = s.opsBegun := rfl
@[simp] theorem countOversizedFrame_busOutcome (n c : Nat) (s : State) : (countOversizedFrame n c s).busOutcome = s.busOutcome := rfl
@[simp] theorem countOversizedFrame_busBuffer (n c : Nat) (s : State) : (countOversizedFrame n c s).busBuffer = s.busBuffer := rfl
@[simp] theorem countOversizedFrame_history (n c : Nat) (s : State) : (countOversizedFrame n c s).history = s.history := rfl
@[simp] theorem countOversizedFrame_errorLog (n c : Nat) (s : State) : (countOversizedFrame n c s).errorLog = s.errorLog ++ [.oversizedFrame n c] := rfl
@[simp] theorem countOversizedFrame_queue (n c : Nat) (s : State) (j : QueueId) : (countOversizedFrame n c s).queue j = s.queue j := by cases j <;> rfl

/-! ## countHostIoError -/

@[simp] theorem countHostIoError_cfg (s : State) : (countHostIoError s).cfg = s.cfg := rfl
@[simp] theorem countHostIoError_status (s : State) : (countHostIoError s).status = s.status := rfl
@[simp] theorem countHostIoError_operational (s : State) : (countHostIoError s).operational = s.operational := rfl
@[simp] theorem countHostIoError_failedByDevice (s : State) : (countHostIoError s).failedByDevice = s.failedByDevice := rfl
@[simp] theorem countHostIoError_hostFeaturesSel (s : State) : (countHostIoError s).hostFeaturesSel = s.hostFeaturesSel := rfl
@[simp] theorem countHostIoError_guestFeaturesSel (s : State) : (countHostIoError s).guestFeaturesSel = s.guestFeaturesSel := rfl
@[simp] theorem countHostIoError_driverFeatures (s : State) : (countHostIoError s).driverFeatures = s.driverFeatures := rfl
@[simp] theorem countHostIoError_pageSize (s : State) : (countHostIoError s).pageSize = s.pageSize := rfl
@[simp] theorem countHostIoError_queueSel (s : State) : (countHostIoError s).queueSel = s.queueSel := rfl
@[simp] theorem countHostIoError_interruptStatus (s : State) : (countHostIoError s).interruptStatus = s.interruptStatus := rfl
@[simp] theorem countHostIoError_rxq (s : State) : (countHostIoError s).rxq = s.rxq := rfl
@[simp] theorem countHostIoError_txq (s : State) : (countHostIoError s).txq = s.txq := rfl
@[simp] theorem countHostIoError_configSpace (s : State) : (countHostIoError s).configSpace = s.configSpace := rfl
@[simp] theorem countHostIoError_diag (s : State) : (countHostIoError s).diag = { s.diag with hostIoErrors := s.diag.hostIoErrors + 1 } := rfl
@[simp] theorem countHostIoError_mem (s : State) : (countHostIoError s).mem = s.mem := rfl
@[simp] theorem countHostIoError_race (s : State) : (countHostIoError s).race = s.race := rfl
@[simp] theorem countHostIoError_rxPort (s : State) : (countHostIoError s).rxPort = s.rxPort := rfl
@[simp] theorem countHostIoError_txAnswers (s : State) : (countHostIoError s).txAnswers = s.txAnswers := rfl
@[simp] theorem countHostIoError_inputs (s : State) : (countHostIoError s).inputs = s.inputs := rfl
@[simp] theorem countHostIoError_opsBegun (s : State) : (countHostIoError s).opsBegun = s.opsBegun := rfl
@[simp] theorem countHostIoError_busOutcome (s : State) : (countHostIoError s).busOutcome = s.busOutcome := rfl
@[simp] theorem countHostIoError_busBuffer (s : State) : (countHostIoError s).busBuffer = s.busBuffer := rfl
@[simp] theorem countHostIoError_history (s : State) : (countHostIoError s).history = s.history := rfl
@[simp] theorem countHostIoError_errorLog (s : State) : (countHostIoError s).errorLog = s.errorLog ++ [.hostIoError] := rfl
@[simp] theorem countHostIoError_queue (s : State) (j : QueueId) : (countHostIoError s).queue j = s.queue j := by cases j <;> rfl

/-! ## deviceFail -/

@[simp] theorem deviceFail_cfg (a n : Nat) (s : State) : (deviceFail a n s).cfg = s.cfg := rfl
@[simp] theorem deviceFail_status (a n : Nat) (s : State) : (deviceFail a n s).status = s.status ||| 0x80#8 := rfl
@[simp] theorem deviceFail_operational (a n : Nat) (s : State) : (deviceFail a n s).operational = false := rfl
@[simp] theorem deviceFail_failedByDevice (a n : Nat) (s : State) : (deviceFail a n s).failedByDevice = true := rfl
@[simp] theorem deviceFail_hostFeaturesSel (a n : Nat) (s : State) : (deviceFail a n s).hostFeaturesSel = s.hostFeaturesSel := rfl
@[simp] theorem deviceFail_guestFeaturesSel (a n : Nat) (s : State) : (deviceFail a n s).guestFeaturesSel = s.guestFeaturesSel := rfl
@[simp] theorem deviceFail_driverFeatures (a n : Nat) (s : State) : (deviceFail a n s).driverFeatures = s.driverFeatures := rfl
@[simp] theorem deviceFail_pageSize (a n : Nat) (s : State) : (deviceFail a n s).pageSize = s.pageSize := rfl
@[simp] theorem deviceFail_queueSel (a n : Nat) (s : State) : (deviceFail a n s).queueSel = s.queueSel := rfl
@[simp] theorem deviceFail_interruptStatus (a n : Nat) (s : State) : (deviceFail a n s).interruptStatus = s.interruptStatus := rfl
@[simp] theorem deviceFail_rxq (a n : Nat) (s : State) : (deviceFail a n s).rxq = s.rxq := rfl
@[simp] theorem deviceFail_txq (a n : Nat) (s : State) : (deviceFail a n s).txq = s.txq := rfl
@[simp] theorem deviceFail_configSpace (a n : Nat) (s : State) : (deviceFail a n s).configSpace = s.configSpace := rfl
@[simp] theorem deviceFail_diag (a n : Nat) (s : State) : (deviceFail a n s).diag = { s.diag with guestMemoryFaults := s.diag.guestMemoryFaults + 1 } := rfl
@[simp] theorem deviceFail_mem (a n : Nat) (s : State) : (deviceFail a n s).mem = s.mem := rfl
@[simp] theorem deviceFail_race (a n : Nat) (s : State) : (deviceFail a n s).race = s.race := rfl
@[simp] theorem deviceFail_rxPort (a n : Nat) (s : State) : (deviceFail a n s).rxPort = s.rxPort := rfl
@[simp] theorem deviceFail_txAnswers (a n : Nat) (s : State) : (deviceFail a n s).txAnswers = s.txAnswers := rfl
@[simp] theorem deviceFail_inputs (a n : Nat) (s : State) : (deviceFail a n s).inputs = s.inputs := rfl
@[simp] theorem deviceFail_opsBegun (a n : Nat) (s : State) : (deviceFail a n s).opsBegun = s.opsBegun := rfl
@[simp] theorem deviceFail_busOutcome (a n : Nat) (s : State) : (deviceFail a n s).busOutcome = s.busOutcome := rfl
@[simp] theorem deviceFail_busBuffer (a n : Nat) (s : State) : (deviceFail a n s).busBuffer = s.busBuffer := rfl
@[simp] theorem deviceFail_history (a n : Nat) (s : State) : (deviceFail a n s).history = s.history := rfl
@[simp] theorem deviceFail_errorLog (a n : Nat) (s : State) : (deviceFail a n s).errorLog = s.errorLog ++ [.guestMemoryFault a n] := rfl
@[simp] theorem deviceFail_queue (a n : Nat) (s : State) (j : QueueId) : (deviceFail a n s).queue j = s.queue j := by cases j <;> rfl

/-! ## deviceReset -/

@[simp] theorem deviceReset_cfg (s : State) : (deviceReset s).cfg = s.cfg := rfl
@[simp] theorem deviceReset_status (s : State) : (deviceReset s).status = 0#8 := rfl
@[simp] theorem deviceReset_operational (s : State) : (deviceReset s).operational = false := rfl
@[simp] theorem deviceReset_failedByDevice (s : State) : (deviceReset s).failedByDevice = false := rfl
@[simp] theorem deviceReset_hostFeaturesSel (s : State) : (deviceReset s).hostFeaturesSel = 0#32 := rfl
@[simp] theorem deviceReset_guestFeaturesSel (s : State) : (deviceReset s).guestFeaturesSel = 0#32 := rfl
@[simp] theorem deviceReset_driverFeatures (s : State) : (deviceReset s).driverFeatures = 0#64 := rfl
@[simp] theorem deviceReset_pageSize (s : State) : (deviceReset s).pageSize = 0#32 := rfl
@[simp] theorem deviceReset_queueSel (s : State) : (deviceReset s).queueSel = 0#32 := rfl
@[simp] theorem deviceReset_interruptStatus (s : State) : (deviceReset s).interruptStatus = 0#32 := rfl
@[simp] theorem deviceReset_rxq (s : State) : (deviceReset s).rxq = Queue.zero := rfl
@[simp] theorem deviceReset_txq (s : State) : (deviceReset s).txq = Queue.zero := rfl
@[simp] theorem deviceReset_configSpace (s : State) : (deviceReset s).configSpace = s.configSpace := rfl
@[simp] theorem deviceReset_diag (s : State) : (deviceReset s).diag = s.diag := rfl
@[simp] theorem deviceReset_mem (s : State) : (deviceReset s).mem = s.mem := rfl
@[simp] theorem deviceReset_race (s : State) : (deviceReset s).race = s.race := rfl
@[simp] theorem deviceReset_rxPort (s : State) : (deviceReset s).rxPort = s.rxPort := rfl
@[simp] theorem deviceReset_txAnswers (s : State) : (deviceReset s).txAnswers = s.txAnswers := rfl
@[simp] theorem deviceReset_inputs (s : State) : (deviceReset s).inputs = s.inputs := rfl
@[simp] theorem deviceReset_opsBegun (s : State) : (deviceReset s).opsBegun = s.opsBegun := rfl
@[simp] theorem deviceReset_busOutcome (s : State) : (deviceReset s).busOutcome = s.busOutcome := rfl
@[simp] theorem deviceReset_busBuffer (s : State) : (deviceReset s).busBuffer = s.busBuffer := rfl
@[simp] theorem deviceReset_history (s : State) : (deviceReset s).history = s.history ++ [.resetHook] := rfl
@[simp] theorem deviceReset_errorLog (s : State) : (deviceReset s).errorLog = s.errorLog := rfl
@[simp] theorem deviceReset_queue (s : State) (j : QueueId) : (deviceReset s).queue j = Queue.zero := by cases j <;> rfl

/-! ## powerOn -/

@[simp] theorem powerOn_cfg (s : State) : (powerOn s).cfg = s.cfg := rfl
@[simp] theorem powerOn_status (s : State) : (powerOn s).status = 0#8 := rfl
@[simp] theorem powerOn_operational (s : State) : (powerOn s).operational = false := rfl
@[simp] theorem powerOn_failedByDevice (s : State) : (powerOn s).failedByDevice = false := rfl
@[simp] theorem powerOn_hostFeaturesSel (s : State) : (powerOn s).hostFeaturesSel = 0#32 := rfl
@[simp] theorem powerOn_guestFeaturesSel (s : State) : (powerOn s).guestFeaturesSel = 0#32 := rfl
@[simp] theorem powerOn_driverFeatures (s : State) : (powerOn s).driverFeatures = 0#64 := rfl
@[simp] theorem powerOn_pageSize (s : State) : (powerOn s).pageSize = 0#32 := rfl
@[simp] theorem powerOn_queueSel (s : State) : (powerOn s).queueSel = 0#32 := rfl
@[simp] theorem powerOn_interruptStatus (s : State) : (powerOn s).interruptStatus = 0#32 := rfl
@[simp] theorem powerOn_rxq (s : State) : (powerOn s).rxq = Queue.zero := rfl
@[simp] theorem powerOn_txq (s : State) : (powerOn s).txq = Queue.zero := rfl
@[simp] theorem powerOn_configSpace (s : State) : (powerOn s).configSpace = configBytes s.cfg := rfl
@[simp] theorem powerOn_diag (s : State) : (powerOn s).diag = Diag.zero := rfl
@[simp] theorem powerOn_mem (s : State) : (powerOn s).mem = s.mem := rfl
@[simp] theorem powerOn_race (s : State) : (powerOn s).race = s.race := rfl
@[simp] theorem powerOn_rxPort (s : State) : (powerOn s).rxPort = s.rxPort := rfl
@[simp] theorem powerOn_txAnswers (s : State) : (powerOn s).txAnswers = s.txAnswers := rfl
@[simp] theorem powerOn_inputs (s : State) : (powerOn s).inputs = s.inputs := rfl
@[simp] theorem powerOn_opsBegun (s : State) : (powerOn s).opsBegun = s.opsBegun := rfl
@[simp] theorem powerOn_busOutcome (s : State) : (powerOn s).busOutcome = s.busOutcome := rfl
@[simp] theorem powerOn_busBuffer (s : State) : (powerOn s).busBuffer = s.busBuffer := rfl
@[simp] theorem powerOn_history (s : State) : (powerOn s).history = s.history := rfl
@[simp] theorem powerOn_errorLog (s : State) : (powerOn s).errorLog = [] := rfl
@[simp] theorem powerOn_queue (s : State) (j : QueueId) : (powerOn s).queue j = Queue.zero := by cases j <;> rfl

/-! ## availAdvance -/

@[simp] theorem availAdvance_cfg (i : QueueId) (s : State) : (availAdvance i s).cfg = s.cfg := by cases i <;> rfl
@[simp] theorem availAdvance_status (i : QueueId) (s : State) : (availAdvance i s).status = s.status := by cases i <;> rfl
@[simp] theorem availAdvance_operational (i : QueueId) (s : State) : (availAdvance i s).operational = s.operational := by cases i <;> rfl
@[simp] theorem availAdvance_failedByDevice (i : QueueId) (s : State) : (availAdvance i s).failedByDevice = s.failedByDevice := by cases i <;> rfl
@[simp] theorem availAdvance_hostFeaturesSel (i : QueueId) (s : State) : (availAdvance i s).hostFeaturesSel = s.hostFeaturesSel := by cases i <;> rfl
@[simp] theorem availAdvance_guestFeaturesSel (i : QueueId) (s : State) : (availAdvance i s).guestFeaturesSel = s.guestFeaturesSel := by cases i <;> rfl
@[simp] theorem availAdvance_driverFeatures (i : QueueId) (s : State) : (availAdvance i s).driverFeatures = s.driverFeatures := by cases i <;> rfl
@[simp] theorem availAdvance_pageSize (i : QueueId) (s : State) : (availAdvance i s).pageSize = s.pageSize := by cases i <;> rfl
@[simp] theorem availAdvance_queueSel (i : QueueId) (s : State) : (availAdvance i s).queueSel = s.queueSel := by cases i <;> rfl
@[simp] theorem availAdvance_interruptStatus (i : QueueId) (s : State) : (availAdvance i s).interruptStatus = s.interruptStatus := by cases i <;> rfl
@[simp] theorem availAdvance_configSpace (i : QueueId) (s : State) : (availAdvance i s).configSpace = s.configSpace := by cases i <;> rfl
@[simp] theorem availAdvance_diag (i : QueueId) (s : State) : (availAdvance i s).diag = s.diag := by cases i <;> rfl
@[simp] theorem availAdvance_mem (i : QueueId) (s : State) : (availAdvance i s).mem = s.mem := by cases i <;> rfl
@[simp] theorem availAdvance_race (i : QueueId) (s : State) : (availAdvance i s).race = s.race := by cases i <;> rfl
@[simp] theorem availAdvance_rxPort (i : QueueId) (s : State) : (availAdvance i s).rxPort = s.rxPort := by cases i <;> rfl
@[simp] theorem availAdvance_txAnswers (i : QueueId) (s : State) : (availAdvance i s).txAnswers = s.txAnswers := by cases i <;> rfl
@[simp] theorem availAdvance_inputs (i : QueueId) (s : State) : (availAdvance i s).inputs = s.inputs := by cases i <;> rfl
@[simp] theorem availAdvance_opsBegun (i : QueueId) (s : State) : (availAdvance i s).opsBegun = s.opsBegun := by cases i <;> rfl
@[simp] theorem availAdvance_busOutcome (i : QueueId) (s : State) : (availAdvance i s).busOutcome = s.busOutcome := by cases i <;> rfl
@[simp] theorem availAdvance_busBuffer (i : QueueId) (s : State) : (availAdvance i s).busBuffer = s.busBuffer := by cases i <;> rfl
@[simp] theorem availAdvance_history (i : QueueId) (s : State) : (availAdvance i s).history = s.history := by cases i <;> rfl
@[simp] theorem availAdvance_errorLog (i : QueueId) (s : State) : (availAdvance i s).errorLog = s.errorLog := by cases i <;> rfl
@[simp] theorem availAdvance_queue_same (i : QueueId) (s : State) : (availAdvance i s).queue i = { s.queue i with nextAvail := (s.queue i).nextAvail + 1#16 } := by cases i <;> rfl
theorem availAdvance_queue_other (i j : QueueId) (s : State) (h : j ≠ i) : (availAdvance i s).queue j = s.queue j := by cases i <;> cases j <;> first | rfl | exact absurd rfl h

/-! ## usedAdvance -/

@[simp] theorem usedAdvance_cfg (i : QueueId) (s : State) : (usedAdvance i s).cfg = s.cfg := by cases i <;> rfl
@[simp] theorem usedAdvance_status (i : QueueId) (s : State) : (usedAdvance i s).status = s.status := by cases i <;> rfl
@[simp] theorem usedAdvance_operational (i : QueueId) (s : State) : (usedAdvance i s).operational = s.operational := by cases i <;> rfl
@[simp] theorem usedAdvance_failedByDevice (i : QueueId) (s : State) : (usedAdvance i s).failedByDevice = s.failedByDevice := by cases i <;> rfl
@[simp] theorem usedAdvance_hostFeaturesSel (i : QueueId) (s : State) : (usedAdvance i s).hostFeaturesSel = s.hostFeaturesSel := by cases i <;> rfl
@[simp] theorem usedAdvance_guestFeaturesSel (i : QueueId) (s : State) : (usedAdvance i s).guestFeaturesSel = s.guestFeaturesSel := by cases i <;> rfl
@[simp] theorem usedAdvance_driverFeatures (i : QueueId) (s : State) : (usedAdvance i s).driverFeatures = s.driverFeatures := by cases i <;> rfl
@[simp] theorem usedAdvance_pageSize (i : QueueId) (s : State) : (usedAdvance i s).pageSize = s.pageSize := by cases i <;> rfl
@[simp] theorem usedAdvance_queueSel (i : QueueId) (s : State) : (usedAdvance i s).queueSel = s.queueSel := by cases i <;> rfl
@[simp] theorem usedAdvance_interruptStatus (i : QueueId) (s : State) : (usedAdvance i s).interruptStatus = s.interruptStatus := by cases i <;> rfl
@[simp] theorem usedAdvance_configSpace (i : QueueId) (s : State) : (usedAdvance i s).configSpace = s.configSpace := by cases i <;> rfl
@[simp] theorem usedAdvance_diag (i : QueueId) (s : State) : (usedAdvance i s).diag = s.diag := by cases i <;> rfl
@[simp] theorem usedAdvance_mem (i : QueueId) (s : State) : (usedAdvance i s).mem = s.mem := by cases i <;> rfl
@[simp] theorem usedAdvance_race (i : QueueId) (s : State) : (usedAdvance i s).race = s.race := by cases i <;> rfl
@[simp] theorem usedAdvance_rxPort (i : QueueId) (s : State) : (usedAdvance i s).rxPort = s.rxPort := by cases i <;> rfl
@[simp] theorem usedAdvance_txAnswers (i : QueueId) (s : State) : (usedAdvance i s).txAnswers = s.txAnswers := by cases i <;> rfl
@[simp] theorem usedAdvance_inputs (i : QueueId) (s : State) : (usedAdvance i s).inputs = s.inputs := by cases i <;> rfl
@[simp] theorem usedAdvance_opsBegun (i : QueueId) (s : State) : (usedAdvance i s).opsBegun = s.opsBegun := by cases i <;> rfl
@[simp] theorem usedAdvance_busOutcome (i : QueueId) (s : State) : (usedAdvance i s).busOutcome = s.busOutcome := by cases i <;> rfl
@[simp] theorem usedAdvance_busBuffer (i : QueueId) (s : State) : (usedAdvance i s).busBuffer = s.busBuffer := by cases i <;> rfl
@[simp] theorem usedAdvance_history (i : QueueId) (s : State) : (usedAdvance i s).history = s.history := by cases i <;> rfl
@[simp] theorem usedAdvance_errorLog (i : QueueId) (s : State) : (usedAdvance i s).errorLog = s.errorLog := by cases i <;> rfl
@[simp] theorem usedAdvance_queue_same (i : QueueId) (s : State) : (usedAdvance i s).queue i = { s.queue i with nextUsed := (s.queue i).nextUsed + 1#16 } := by cases i <;> rfl
theorem usedAdvance_queue_other (i j : QueueId) (s : State) (h : j ≠ i) : (usedAdvance i s).queue j = s.queue j := by cases i <;> cases j <;> first | rfl | exact absurd rfl h

/-! ## raiseIrq -/

@[simp] theorem raiseIrq_cfg (i : QueueId) (s : State) : (raiseIrq i s).cfg = s.cfg := by unfold raiseIrq; split <;> rfl
@[simp] theorem raiseIrq_status (i : QueueId) (s : State) : (raiseIrq i s).status = s.status := by unfold raiseIrq; split <;> rfl
@[simp] theorem raiseIrq_operational (i : QueueId) (s : State) : (raiseIrq i s).operational = s.operational := by unfold raiseIrq; split <;> rfl
@[simp] theorem raiseIrq_failedByDevice (i : QueueId) (s : State) : (raiseIrq i s).failedByDevice = s.failedByDevice := by unfold raiseIrq; split <;> rfl
@[simp] theorem raiseIrq_hostFeaturesSel (i : QueueId) (s : State) : (raiseIrq i s).hostFeaturesSel = s.hostFeaturesSel := by unfold raiseIrq; split <;> rfl
@[simp] theorem raiseIrq_guestFeaturesSel (i : QueueId) (s : State) : (raiseIrq i s).guestFeaturesSel = s.guestFeaturesSel := by unfold raiseIrq; split <;> rfl
@[simp] theorem raiseIrq_driverFeatures (i : QueueId) (s : State) : (raiseIrq i s).driverFeatures = s.driverFeatures := by unfold raiseIrq; split <;> rfl
@[simp] theorem raiseIrq_pageSize (i : QueueId) (s : State) : (raiseIrq i s).pageSize = s.pageSize := by unfold raiseIrq; split <;> rfl
@[simp] theorem raiseIrq_queueSel (i : QueueId) (s : State) : (raiseIrq i s).queueSel = s.queueSel := by unfold raiseIrq; split <;> rfl
@[simp] theorem raiseIrq_interruptStatus (i : QueueId) (s : State) : (raiseIrq i s).interruptStatus = s.interruptStatus ||| irqBit s.cfg i := by unfold raiseIrq; split <;> rfl
@[simp] theorem raiseIrq_rxq (i : QueueId) (s : State) : (raiseIrq i s).rxq = s.rxq := by unfold raiseIrq; split <;> rfl
@[simp] theorem raiseIrq_txq (i : QueueId) (s : State) : (raiseIrq i s).txq = s.txq := by unfold raiseIrq; split <;> rfl
@[simp] theorem raiseIrq_configSpace (i : QueueId) (s : State) : (raiseIrq i s).configSpace = s.configSpace := by unfold raiseIrq; split <;> rfl
@[simp] theorem raiseIrq_diag (i : QueueId) (s : State) : (raiseIrq i s).diag = s.diag := by unfold raiseIrq; split <;> rfl
@[simp] theorem raiseIrq_mem (i : QueueId) (s : State) : (raiseIrq i s).mem = s.mem := by unfold raiseIrq; split <;> rfl
@[simp] theorem raiseIrq_race (i : QueueId) (s : State) : (raiseIrq i s).race = s.race := by unfold raiseIrq; split <;> rfl
@[simp] theorem raiseIrq_rxPort (i : QueueId) (s : State) : (raiseIrq i s).rxPort = s.rxPort := by unfold raiseIrq; split <;> rfl
@[simp] theorem raiseIrq_txAnswers (i : QueueId) (s : State) : (raiseIrq i s).txAnswers = s.txAnswers := by unfold raiseIrq; split <;> rfl
@[simp] theorem raiseIrq_inputs (i : QueueId) (s : State) : (raiseIrq i s).inputs = s.inputs := by unfold raiseIrq; split <;> rfl
@[simp] theorem raiseIrq_opsBegun (i : QueueId) (s : State) : (raiseIrq i s).opsBegun = s.opsBegun := by unfold raiseIrq; split <;> rfl
@[simp] theorem raiseIrq_busOutcome (i : QueueId) (s : State) : (raiseIrq i s).busOutcome = s.busOutcome := by unfold raiseIrq; split <;> rfl
@[simp] theorem raiseIrq_busBuffer (i : QueueId) (s : State) : (raiseIrq i s).busBuffer = s.busBuffer := by unfold raiseIrq; split <;> rfl
@[simp] theorem raiseIrq_errorLog (i : QueueId) (s : State) : (raiseIrq i s).errorLog = s.errorLog := by unfold raiseIrq; split <;> rfl
@[simp] theorem raiseIrq_queue (i : QueueId) (s : State) (j : QueueId) : (raiseIrq i s).queue j = s.queue j := by cases j <;> simp [State.queue]

/-! ## activate -/

@[simp] theorem activate_cfg (s : State) : (activate s).cfg = s.cfg := rfl
@[simp] theorem activate_status (s : State) : (activate s).status = s.status := rfl
@[simp] theorem activate_operational (s : State) : (activate s).operational = true := rfl
@[simp] theorem activate_failedByDevice (s : State) : (activate s).failedByDevice = s.failedByDevice := rfl
@[simp] theorem activate_hostFeaturesSel (s : State) : (activate s).hostFeaturesSel = s.hostFeaturesSel := rfl
@[simp] theorem activate_guestFeaturesSel (s : State) : (activate s).guestFeaturesSel = s.guestFeaturesSel := rfl
@[simp] theorem activate_driverFeatures (s : State) : (activate s).driverFeatures = s.driverFeatures := rfl
@[simp] theorem activate_pageSize (s : State) : (activate s).pageSize = s.pageSize := rfl
@[simp] theorem activate_queueSel (s : State) : (activate s).queueSel = s.queueSel := rfl
@[simp] theorem activate_interruptStatus (s : State) : (activate s).interruptStatus = s.interruptStatus := rfl
@[simp] theorem activate_rxq (s : State) : (activate s).rxq = s.rxq := rfl
@[simp] theorem activate_txq (s : State) : (activate s).txq = s.txq := rfl
@[simp] theorem activate_configSpace (s : State) : (activate s).configSpace = s.configSpace := rfl
@[simp] theorem activate_diag (s : State) : (activate s).diag = s.diag := rfl
@[simp] theorem activate_mem (s : State) : (activate s).mem = s.mem := rfl
@[simp] theorem activate_race (s : State) : (activate s).race = s.race := rfl
@[simp] theorem activate_rxPort (s : State) : (activate s).rxPort = s.rxPort := rfl
@[simp] theorem activate_txAnswers (s : State) : (activate s).txAnswers = s.txAnswers := rfl
@[simp] theorem activate_inputs (s : State) : (activate s).inputs = s.inputs := rfl
@[simp] theorem activate_opsBegun (s : State) : (activate s).opsBegun = s.opsBegun := rfl
@[simp] theorem activate_busOutcome (s : State) : (activate s).busOutcome = s.busOutcome := rfl
@[simp] theorem activate_busBuffer (s : State) : (activate s).busBuffer = s.busBuffer := rfl
@[simp] theorem activate_history (s : State) : (activate s).history = s.history ++ [.activateHook (negotiated s)] := rfl
@[simp] theorem activate_errorLog (s : State) : (activate s).errorLog = s.errorLog := rfl
@[simp] theorem activate_queue (s : State) (j : QueueId) : (activate s).queue j = s.queue j := by cases j <;> rfl

/-! ## guestTurn -/

@[simp] theorem guestTurn_cfg (s : State) : (guestTurn s).cfg = s.cfg := by unfold guestTurn; split <;> simp_all
@[simp] theorem guestTurn_status (s : State) : (guestTurn s).status = s.status := by unfold guestTurn; split <;> simp_all
@[simp] theorem guestTurn_operational (s : State) : (guestTurn s).operational = s.operational := by unfold guestTurn; split <;> simp_all
@[simp] theorem guestTurn_failedByDevice (s : State) : (guestTurn s).failedByDevice = s.failedByDevice := by unfold guestTurn; split <;> simp_all
@[simp] theorem guestTurn_hostFeaturesSel (s : State) : (guestTurn s).hostFeaturesSel = s.hostFeaturesSel := by unfold guestTurn; split <;> simp_all
@[simp] theorem guestTurn_guestFeaturesSel (s : State) : (guestTurn s).guestFeaturesSel = s.guestFeaturesSel := by unfold guestTurn; split <;> simp_all
@[simp] theorem guestTurn_driverFeatures (s : State) : (guestTurn s).driverFeatures = s.driverFeatures := by unfold guestTurn; split <;> simp_all
@[simp] theorem guestTurn_pageSize (s : State) : (guestTurn s).pageSize = s.pageSize := by unfold guestTurn; split <;> simp_all
@[simp] theorem guestTurn_queueSel (s : State) : (guestTurn s).queueSel = s.queueSel := by unfold guestTurn; split <;> simp_all
@[simp] theorem guestTurn_interruptStatus (s : State) : (guestTurn s).interruptStatus = s.interruptStatus := by unfold guestTurn; split <;> simp_all
@[simp] theorem guestTurn_rxq (s : State) : (guestTurn s).rxq = s.rxq := by unfold guestTurn; split <;> simp_all
@[simp] theorem guestTurn_txq (s : State) : (guestTurn s).txq = s.txq := by unfold guestTurn; split <;> simp_all
@[simp] theorem guestTurn_configSpace (s : State) : (guestTurn s).configSpace = s.configSpace := by unfold guestTurn; split <;> simp_all
@[simp] theorem guestTurn_diag (s : State) : (guestTurn s).diag = s.diag := by unfold guestTurn; split <;> simp_all
@[simp] theorem guestTurn_race (s : State) : (guestTurn s).race = s.race.tail := by unfold guestTurn; split <;> simp_all
@[simp] theorem guestTurn_rxPort (s : State) : (guestTurn s).rxPort = s.rxPort := by unfold guestTurn; split <;> simp_all
@[simp] theorem guestTurn_txAnswers (s : State) : (guestTurn s).txAnswers = s.txAnswers := by unfold guestTurn; split <;> simp_all
@[simp] theorem guestTurn_inputs (s : State) : (guestTurn s).inputs = s.inputs := by unfold guestTurn; split <;> simp_all
@[simp] theorem guestTurn_opsBegun (s : State) : (guestTurn s).opsBegun = s.opsBegun := by unfold guestTurn; split <;> simp_all
@[simp] theorem guestTurn_busOutcome (s : State) : (guestTurn s).busOutcome = s.busOutcome := by unfold guestTurn; split <;> simp_all
@[simp] theorem guestTurn_busBuffer (s : State) : (guestTurn s).busBuffer = s.busBuffer := by unfold guestTurn; split <;> simp_all
@[simp] theorem guestTurn_history (s : State) : (guestTurn s).history = s.history := by unfold guestTurn; split <;> simp_all
@[simp] theorem guestTurn_errorLog (s : State) : (guestTurn s).errorLog = s.errorLog := by unfold guestTurn; split <;> simp_all
@[simp] theorem guestTurn_queue (s : State) (j : QueueId) : (guestTurn s).queue j = s.queue j := by cases j <;> simp [State.queue]

/-! ## beginOp -/

@[simp] theorem beginOp_cfg (s : State) (image : List Byte) (rest : List Input) : (beginOp s image rest).cfg = s.cfg := rfl
@[simp] theorem beginOp_status (s : State) (image : List Byte) (rest : List Input) : (beginOp s image rest).status = s.status := rfl
@[simp] theorem beginOp_operational (s : State) (image : List Byte) (rest : List Input) : (beginOp s image rest).operational = s.operational := rfl
@[simp] theorem beginOp_failedByDevice (s : State) (image : List Byte) (rest : List Input) : (beginOp s image rest).failedByDevice = s.failedByDevice := rfl
@[simp] theorem beginOp_hostFeaturesSel (s : State) (image : List Byte) (rest : List Input) : (beginOp s image rest).hostFeaturesSel = s.hostFeaturesSel := rfl
@[simp] theorem beginOp_guestFeaturesSel (s : State) (image : List Byte) (rest : List Input) : (beginOp s image rest).guestFeaturesSel = s.guestFeaturesSel := rfl
@[simp] theorem beginOp_driverFeatures (s : State) (image : List Byte) (rest : List Input) : (beginOp s image rest).driverFeatures = s.driverFeatures := rfl
@[simp] theorem beginOp_pageSize (s : State) (image : List Byte) (rest : List Input) : (beginOp s image rest).pageSize = s.pageSize := rfl
@[simp] theorem beginOp_queueSel (s : State) (image : List Byte) (rest : List Input) : (beginOp s image rest).queueSel = s.queueSel := rfl
@[simp] theorem beginOp_interruptStatus (s : State) (image : List Byte) (rest : List Input) : (beginOp s image rest).interruptStatus = s.interruptStatus := rfl
@[simp] theorem beginOp_rxq (s : State) (image : List Byte) (rest : List Input) : (beginOp s image rest).rxq = s.rxq := rfl
@[simp] theorem beginOp_txq (s : State) (image : List Byte) (rest : List Input) : (beginOp s image rest).txq = s.txq := rfl
@[simp] theorem beginOp_configSpace (s : State) (image : List Byte) (rest : List Input) : (beginOp s image rest).configSpace = s.configSpace := rfl
@[simp] theorem beginOp_diag (s : State) (image : List Byte) (rest : List Input) : (beginOp s image rest).diag = s.diag := rfl
@[simp] theorem beginOp_mem (s : State) (image : List Byte) (rest : List Input) : (beginOp s image rest).mem = s.mem := rfl
@[simp] theorem beginOp_race (s : State) (image : List Byte) (rest : List Input) : (beginOp s image rest).race = s.race := rfl
@[simp] theorem beginOp_rxPort (s : State) (image : List Byte) (rest : List Input) : (beginOp s image rest).rxPort = s.rxPort := rfl
@[simp] theorem beginOp_txAnswers (s : State) (image : List Byte) (rest : List Input) : (beginOp s image rest).txAnswers = s.txAnswers := rfl
@[simp] theorem beginOp_inputs (s : State) (image : List Byte) (rest : List Input) : (beginOp s image rest).inputs = rest := rfl
@[simp] theorem beginOp_opsBegun (s : State) (image : List Byte) (rest : List Input) : (beginOp s image rest).opsBegun = s.opsBegun + 1 := rfl
@[simp] theorem beginOp_busOutcome (s : State) (image : List Byte) (rest : List Input) : (beginOp s image rest).busOutcome = none := rfl
@[simp] theorem beginOp_busBuffer (s : State) (image : List Byte) (rest : List Input) : (beginOp s image rest).busBuffer = image.drop 2 := rfl
@[simp] theorem beginOp_history (s : State) (image : List Byte) (rest : List Input) : (beginOp s image rest).history = s.history := rfl
@[simp] theorem beginOp_errorLog (s : State) (image : List Byte) (rest : List Input) : (beginOp s image rest).errorLog = s.errorLog := rfl
@[simp] theorem beginOp_queue (s : State) (image : List Byte) (rest : List Input) (j : QueueId) : (beginOp s image rest).queue j = s.queue j := by cases j <;> rfl

/-! ## guestWrites -/

@[simp] theorem guestWrites_cfg (s : State) (g : GuestStore) (rest : List Input) : (guestWrites s g rest).cfg = s.cfg := rfl
@[simp] theorem guestWrites_status (s : State) (g : GuestStore) (rest : List Input) : (guestWrites s g rest).status = s.status := rfl
@[simp] theorem guestWrites_operational (s : State) (g : GuestStore) (rest : List Input) : (guestWrites s g rest).operational = s.operational := rfl
@[simp] theorem guestWrites_failedByDevice (s : State) (g : GuestStore) (rest : List Input) : (guestWrites s g rest).failedByDevice = s.failedByDevice := rfl
@[simp] theorem guestWrites_hostFeaturesSel (s : State) (g : GuestStore) (rest : List Input) : (guestWrites s g rest).hostFeaturesSel = s.hostFeaturesSel := rfl
@[simp] theorem guestWrites_guestFeaturesSel (s : State) (g : GuestStore) (rest : List Input) : (guestWrites s g rest).guestFeaturesSel = s.guestFeaturesSel := rfl
@[simp] theorem guestWrites_driverFeatures (s : State) (g : GuestStore) (rest : List Input) : (guestWrites s g rest).driverFeatures = s.driverFeatures := rfl
@[simp] theorem guestWrites_pageSize (s : State) (g : GuestStore) (rest : List Input) : (guestWrites s g rest).pageSize = s.pageSize := rfl
@[simp] theorem guestWrites_queueSel (s : State) (g : GuestStore) (rest : List Input) : (guestWrites s g rest).queueSel = s.queueSel := rfl
@[simp] theorem guestWrites_interruptStatus (s : State) (g : GuestStore) (rest : List Input) : (guestWrites s g rest).interruptStatus = s.interruptStatus := rfl
@[simp] theorem guestWrites_rxq (s : State) (g : GuestStore) (rest : List Input) : (guestWrites s g rest).rxq = s.rxq := rfl
@[simp] theorem guestWrites_txq (s : State) (g : GuestStore) (rest : List Input) : (guestWrites s g rest).txq = s.txq := rfl
@[simp] theorem guestWrites_configSpace (s : State) (g : GuestStore) (rest : List Input) : (guestWrites s g rest).configSpace = s.configSpace := rfl
@[simp] theorem guestWrites_diag (s : State) (g : GuestStore) (rest : List Input) : (guestWrites s g rest).diag = s.diag := rfl
@[simp] theorem guestWrites_mem (s : State) (g : GuestStore) (rest : List Input) : (guestWrites s g rest).mem = writeBytes s.mem g.addr g.bytes := rfl
@[simp] theorem guestWrites_race (s : State) (g : GuestStore) (rest : List Input) : (guestWrites s g rest).race = s.race := rfl
@[simp] theorem guestWrites_rxPort (s : State) (g : GuestStore) (rest : List Input) : (guestWrites s g rest).rxPort = s.rxPort := rfl
@[simp] theorem guestWrites_txAnswers (s : State) (g : GuestStore) (rest : List Input) : (guestWrites s g rest).txAnswers = s.txAnswers := rfl
@[simp] theorem guestWrites_inputs (s : State) (g : GuestStore) (rest : List Input) : (guestWrites s g rest).inputs = rest := rfl
@[simp] theorem guestWrites_opsBegun (s : State) (g : GuestStore) (rest : List Input) : (guestWrites s g rest).opsBegun = s.opsBegun := rfl
@[simp] theorem guestWrites_busOutcome (s : State) (g : GuestStore) (rest : List Input) : (guestWrites s g rest).busOutcome = s.busOutcome := rfl
@[simp] theorem guestWrites_busBuffer (s : State) (g : GuestStore) (rest : List Input) : (guestWrites s g rest).busBuffer = s.busBuffer := rfl
@[simp] theorem guestWrites_history (s : State) (g : GuestStore) (rest : List Input) : (guestWrites s g rest).history = s.history := rfl
@[simp] theorem guestWrites_errorLog (s : State) (g : GuestStore) (rest : List Input) : (guestWrites s g rest).errorLog = s.errorLog := rfl
@[simp] theorem guestWrites_queue (s : State) (g : GuestStore) (rest : List Input) (j : QueueId) : (guestWrites s g rest).queue j = s.queue j := by cases j <;> rfl

/-! ## hostQueues -/

@[simp] theorem hostQueues_cfg (s : State) (item : RxItem) (rest : List Input) : (hostQueues s item rest).cfg = s.cfg := rfl
@[simp] theorem hostQueues_status (s : State) (item : RxItem) (rest : List Input) : (hostQueues s item rest).status = s.status := rfl
@[simp] theorem hostQueues_operational (s : State) (item : RxItem) (rest : List Input) : (hostQueues s item rest).operational = s.operational := rfl
@[simp] theorem hostQueues_failedByDevice (s : State) (item : RxItem) (rest : List Input) : (hostQueues s item rest).failedByDevice = s.failedByDevice := rfl
@[simp] theorem hostQueues_hostFeaturesSel (s : State) (item : RxItem) (rest : List Input) : (hostQueues s item rest).hostFeaturesSel = s.hostFeaturesSel := rfl
@[simp] theorem hostQueues_guestFeaturesSel (s : State) (item : RxItem) (rest : List Input) : (hostQueues s item rest).guestFeaturesSel = s.guestFeaturesSel := rfl
@[simp] theorem hostQueues_driverFeatures (s : State) (item : RxItem) (rest : List Input) : (hostQueues s item rest).driverFeatures = s.driverFeatures := rfl
@[simp] theorem hostQueues_pageSize (s : State) (item : RxItem) (rest : List Input) : (hostQueues s item rest).pageSize = s.pageSize := rfl
@[simp] theorem hostQueues_queueSel (s : State) (item : RxItem) (rest : List Input) : (hostQueues s item rest).queueSel = s.queueSel := rfl
@[simp] theorem hostQueues_interruptStatus (s : State) (item : RxItem) (rest : List Input) : (hostQueues s item rest).interruptStatus = s.interruptStatus := rfl
@[simp] theorem hostQueues_rxq (s : State) (item : RxItem) (rest : List Input) : (hostQueues s item rest).rxq = s.rxq := rfl
@[simp] theorem hostQueues_txq (s : State) (item : RxItem) (rest : List Input) : (hostQueues s item rest).txq = s.txq := rfl
@[simp] theorem hostQueues_configSpace (s : State) (item : RxItem) (rest : List Input) : (hostQueues s item rest).configSpace = s.configSpace := rfl
@[simp] theorem hostQueues_diag (s : State) (item : RxItem) (rest : List Input) : (hostQueues s item rest).diag = s.diag := rfl
@[simp] theorem hostQueues_mem (s : State) (item : RxItem) (rest : List Input) : (hostQueues s item rest).mem = s.mem := rfl
@[simp] theorem hostQueues_race (s : State) (item : RxItem) (rest : List Input) : (hostQueues s item rest).race = s.race := rfl
@[simp] theorem hostQueues_rxPort (s : State) (item : RxItem) (rest : List Input) : (hostQueues s item rest).rxPort = s.rxPort ++ [item] := rfl
@[simp] theorem hostQueues_txAnswers (s : State) (item : RxItem) (rest : List Input) : (hostQueues s item rest).txAnswers = s.txAnswers := rfl
@[simp] theorem hostQueues_inputs (s : State) (item : RxItem) (rest : List Input) : (hostQueues s item rest).inputs = rest := rfl
@[simp] theorem hostQueues_opsBegun (s : State) (item : RxItem) (rest : List Input) : (hostQueues s item rest).opsBegun = s.opsBegun := rfl
@[simp] theorem hostQueues_busOutcome (s : State) (item : RxItem) (rest : List Input) : (hostQueues s item rest).busOutcome = s.busOutcome := rfl
@[simp] theorem hostQueues_busBuffer (s : State) (item : RxItem) (rest : List Input) : (hostQueues s item rest).busBuffer = s.busBuffer := rfl
@[simp] theorem hostQueues_history (s : State) (item : RxItem) (rest : List Input) : (hostQueues s item rest).history = s.history := rfl
@[simp] theorem hostQueues_errorLog (s : State) (item : RxItem) (rest : List Input) : (hostQueues s item rest).errorLog = s.errorLog := rfl
@[simp] theorem hostQueues_queue (s : State) (item : RxItem) (rest : List Input) (j : QueueId) : (hostQueues s item rest).queue j = s.queue j := by cases j <;> rfl

/-! ## Fields an update of memory, port or answers leaves to a plain record update -/

@[simp] theorem queue_rx (s : State) : s.queue .rx = s.rxq := rfl
@[simp] theorem queue_tx (s : State) : s.queue .tx = s.txq := rfl
theorem guestTurn_quiet {s : State} (h : s.race = []) : guestTurn s = s := by unfold guestTurn; rw [h]

end Sys2Proof.Machine
end

