-- ==== Sys2Proof/Laws/Access.lean ====
section
/-! SUPPORT. What an access to guest memory can do: one relation between the state before and the state an
access ends in, whether it answers or faults, and the closed form of each access while the guest is quiet. -/

namespace Sys2Proof.Machine

/-- The state a sub-operation ends in, whether it answers or faults. -/
def Res.state {α : Type} : Res α → State
  | .ok _ s => s
  | .fault _ _ s => s

@[simp] theorem Res.state_ok {α : Type} (a : α) (s : State) : (Res.ok a s).state = s := rfl
@[simp] theorem Res.state_fault {α : Type} (a n : Nat) (s : State) : (Res.fault a n s : Res α).state = s := rfl
@[simp] theorem Res.bind_ok {α β : Type} (a : α) (s : State) (f : α → State → Res β) :
    (Res.ok a s).bind f = f a s := rfl
@[simp] theorem Res.bind_fault {α β : Type} (a n : Nat) (s : State) (f : α → State → Res β) :
    (Res.fault a n s : Res α).bind f = .fault a n s := rfl

/-- An answer of a sequence comes from an answer of each part. -/
theorem Res.bind_eq_ok {α β : Type} {r : Res α} {f : α → State → Res β} {b : β} {t : State}
    (h : r.bind f = .ok b t) : ∃ a s, r = .ok a s ∧ f a s = .ok b t := by
  cases r with
  | ok a s => exact ⟨a, s, rfl, h⟩
  | fault a n s => cases h

/-- A transitive relation that holds for both parts of a sequence holds for the sequence. -/
theorem Res.bind_rel {α β : Type} {R : State → State → Prop} (trans : ∀ {a b c}, R a b → R b c → R a c)
    {s : State} {r : Res α} {f : α → State → Res β} (h1 : R s r.state)
    (h2 : ∀ a t, r = .ok a t → R t (f a t).state) : R s (r.bind f).state := by
  cases r with
  | ok a t => exact trans h1 (h2 a t rfl)
  | fault a n t => exact h1

/-- An access changes memory and uses up turns of the guest, and nothing else; it keeps the canonical form. -/
structure AccessStep (s t : State) : Prop where
  only : t = { s with mem := t.mem, race := t.race }
  wf : s.mem.wf = true → t.mem.wf = true
  race : ∃ k, t.race = s.race.drop k

theorem AccessStep.refl (s : State) : AccessStep s s := ⟨rfl, id, 0, rfl⟩

theorem AccessStep.trans {s t u : State} (h1 : AccessStep s t) (h2 : AccessStep t u) : AccessStep s u := by
  obtain ⟨o1, w1, k1, r1⟩ := h1
  obtain ⟨o2, w2, k2, r2⟩ := h2
  refine ⟨?_, w2 ∘ w1, k1 + k2, by rw [r2, r1, List.drop_drop]⟩
  rw [o2, o1]

theorem AccessStep.quiet {s t : State} (h : AccessStep s t) (hq : s.race = []) : t.race = [] := by
  obtain ⟨k, hk⟩ := h.race
  rw [hk, hq, List.drop_nil]

theorem AccessStep.race_le {s t : State} (h : AccessStep s t) : t.race.length ≤ s.race.length := by
  obtain ⟨k, hk⟩ := h.race
  rw [hk, List.length_drop]; omega

/-! ## Single accesses -/

theorem guestTurn_access (s : State) : AccessStep s (guestTurn s) := by
  unfold guestTurn
  split
  · exact .refl s
  · next t race h => exact ⟨rfl, applyStores_wf _, 1, by simp [h]⟩

/-- A turn of the guest is used up, where there is one. -/
theorem guestTurn_race_lt {s : State} (h : s.race ≠ []) : (guestTurn s).race.length < s.race.length := by
  rw [guestTurn_race, List.length_tail]
  have := List.length_pos_of_ne_nil h
  omega

theorem memRead_access (a : Dword) (n : Nat) (s : State) : AccessStep s (memRead a n s).state := by
  unfold memRead
  split
  · exact .refl s
  · split
    · exact guestTurn_access s
    · exact .refl s

/-- What a read that answers has done. -/
theorem memRead_ok {a : Dword} {n : Nat} {s t : State} {b : List Byte} (hn : n ≠ 0)
    (h : memRead a n s = .ok b t) :
    accessOk s a n = true ∧ t = guestTurn s ∧ b = readBytes t.mem a n := by
  unfold memRead at h
  rw [if_neg hn] at h
  split at h
  · cases h; exact ⟨‹_›, rfl, rfl⟩
  · cases h

theorem memWrite_access (a : Dword) (bs : List Byte) (s : State) : AccessStep s (memWrite a bs s).state := by
  unfold memWrite
  split
  · exact .refl s
  · split
    · obtain ⟨o, w, k, r⟩ := guestTurn_access s
      refine ⟨?_, fun h => writeBytes_wf bs a (w h), k, r⟩
      simp only [Res.state_ok]
      rw [o]
    · exact .refl s

/-- What a write that answers has done. -/
theorem memWrite_ok {a : Dword} {bs : List Byte} {s t : State} (hn : bs ≠ [])
    (h : memWrite a bs s = .ok () t) :
    accessOk s a bs.length = true
      ∧ t = { guestTurn s with mem := writeBytes (guestTurn s).mem a bs } := by
  unfold memWrite at h
  rw [if_neg hn] at h
  split at h
  · cases h; exact ⟨‹_›, rfl⟩
  · cases h

/-! ## Accesses in pieces -/

theorem tornRead_spec (a : Dword) : ∀ (race : List RaceTurn) (ps : List Piece) (m : Memory) (acc : List Byte),
    (m.wf = true → (tornRead a race ps m acc).2.1.wf = true)
      ∧ ∃ k, (tornRead a race ps m acc).2.2 = race.drop k
  | [], _, _, _ => ⟨id, 0, rfl⟩
  | _ :: _, [], _, _ => ⟨id, 0, rfl⟩
  | t :: race, p :: ps, m, acc => by
    obtain ⟨h1, k, h2⟩ := tornRead_spec a race ((p :: ps).eraseIdx (t.pick % (ps.length + 1)))
      (applyStores m t.stores) (readPiece (applyStores m t.stores) a acc
        ((p :: ps).getD (t.pick % (ps.length + 1)) p))
    exact ⟨fun h => h1 (applyStores_wf _ h), k + 1, h2⟩

theorem memReadTorn_access (ps : List Piece) (a : Dword) (n : Nat) (s : State) :
    AccessStep s (memReadTorn ps a n s).state := by
  unfold memReadTorn
  split
  · exact .refl s
  · split
    · split
      · exact .refl s
      · obtain ⟨h1, h2⟩ := tornRead_spec a s.race ps s.mem (List.replicate n 0#8)
        exact ⟨rfl, h1, h2⟩
    · exact .refl s

theorem foldl_writePiece_wf (a : Dword) (bs : List Byte) : ∀ (ps : List Piece) (m : Memory),
    m.wf = true → (ps.foldl (writePiece a bs) m).wf = true
  | [], _, h => h
  | _ :: ps, _, h => foldl_writePiece_wf a bs ps _ (writeBytes_wf _ _ h)

theorem tornWrite_spec (a : Dword) (bs : List Byte) : ∀ (race : List RaceTurn) (ps : List Piece) (m : Memory),
    (m.wf = true → (tornWrite a bs race ps m).1.wf = true)
      ∧ ∃ k, (tornWrite a bs race ps m).2 = race.drop k
  | [], ps, m => ⟨foldl_writePiece_wf a bs ps m, 0, rfl⟩
  | _ :: _, [], _ => ⟨id, 0, rfl⟩
  | t :: race, p :: ps, m => by
    obtain ⟨h1, k, h2⟩ := tornWrite_spec a bs race ((p :: ps).eraseIdx (t.pick % (ps.length + 1)))
      (writePiece a bs (applyStores m t.stores) ((p :: ps).getD (t.pick % (ps.length + 1)) p))
    exact ⟨fun h => h1 (writeBytes_wf _ _ (applyStores_wf _ h)), k + 1, h2⟩

theorem memWriteTorn_access (a : Dword) (bs : List Byte) (s : State) :
    AccessStep s (memWriteTorn a bs s).state := by
  unfold memWriteTorn
  split
  · exact .refl s
  · split
    · split
      · next h => exact ⟨by rfl, writeBytes_wf bs a, 0, rfl⟩
      · obtain ⟨h1, h2⟩ := tornWrite_spec a bs s.race (bytePieces bs.length) s.mem
        exact ⟨rfl, h1, h2⟩
    · exact .refl s

/-! ## The typed forms -/

theorem memRead16_access (a : Dword) (s : State) : AccessStep s (memRead16 a s).state :=
  Res.bind_rel .trans (memRead_access a 2 s) fun _ t _ => .refl t

theorem memWrite16_access (a : Dword) (v : Half) (s : State) : AccessStep s (memWrite16 a v s).state :=
  memWrite_access _ _ s

theorem memWrite32_access (a : Dword) (v : Word) (s : State) : AccessStep s (memWrite32 a v s).state :=
  memWrite_access _ _ s

/-- What a 16-bit read that answers has done. -/
theorem memRead16_ok {a : Dword} {s t : State} {v : Half} (h : memRead16 a s = .ok v t) :
    accessOk s a 2 = true ∧ t = guestTurn s ∧ v = le16 (readBytes t.mem a 2) := by
  obtain ⟨b, u, hr, hv⟩ := Res.bind_eq_ok h
  obtain ⟨h1, h2, h3⟩ := memRead_ok (by decide) hr
  cases hv
  exact ⟨h1, h2, by rw [h3]⟩

/-! ## The closed forms while the guest is quiet -/

theorem memRead_quiet {s : State} (hq : s.race = []) (a : Dword) {n : Nat} (hn : n ≠ 0) :
    memRead a n s = if accessOk s a n then .ok (readBytes s.mem a n) s else .fault a.toNat n s := by
  rw [memRead, if_neg hn, guestTurn_quiet hq]

theorem memRead16_quiet {s : State} (hq : s.race = []) (a : Dword) :
    memRead16 a s = if accessOk s a 2 then .ok (le16 (readBytes s.mem a 2)) s else .fault a.toNat 2 s := by
  rw [memRead16, memRead_quiet hq a (by decide)]
  split <;> rfl

theorem memWrite_quiet {s : State} (hq : s.race = []) (a : Dword) {bs : List Byte} (hn : bs ≠ []) :
    memWrite a bs s =
      if accessOk s a bs.length then .ok () { s with mem := writeBytes s.mem a bs }
      else .fault a.toNat bs.length s := by
  rw [memWrite, if_neg hn, guestTurn_quiet hq]

theorem memWrite16_quiet {s : State} (hq : s.race = []) (a : Dword) (v : Half) :
    memWrite16 a v s =
      if accessOk s a 2 then .ok () { s with mem := writeBytes s.mem a (bytesLE 2 v.toNat) }
      else .fault a.toNat 2 s := by
  rw [memWrite16, memWrite_quiet hq a (by simp [bytesLE_eq_nil]), bytesLE_length]

theorem memWrite32_quiet {s : State} (hq : s.race = []) (a : Dword) (v : Word) :
    memWrite32 a v s =
      if accessOk s a 4 then .ok () { s with mem := writeBytes s.mem a (bytesLE 4 v.toNat) }
      else .fault a.toNat 4 s := by
  rw [memWrite32, memWrite_quiet hq a (by simp [bytesLE_eq_nil]), bytesLE_length]

theorem memReadTorn_quiet {s : State} (hq : s.race = []) (ps : List Piece) (a : Dword) {n : Nat} (hn : n ≠ 0) :
    memReadTorn ps a n s = if accessOk s a n then .ok (readBytes s.mem a n) s else .fault a.toNat n s := by
  rw [memReadTorn, if_neg hn, hq]

theorem memWriteTorn_quiet {s : State} (hq : s.race = []) (a : Dword) {bs : List Byte} (hn : bs ≠ []) :
    memWriteTorn a bs s =
      if accessOk s a bs.length then .ok () { s with mem := writeBytes s.mem a bs }
      else .fault a.toNat bs.length s := by
  rw [memWriteTorn, if_neg hn, hq]

/-- `accessOk` is decided by the configuration alone. -/
theorem accessOk_cfg {s t : State} (h : t.cfg = s.cfg) (a : Dword) (n : Nat) : accessOk t a n = accessOk s a n := by
  rw [accessOk, accessOk, h]

/-- A permitted access does not run past the address space. -/
theorem accessOk_bound {s : State} {a : Dword} {n : Nat} (h : accessOk s a n = true) :
    a.toNat + n ≤ 2 ^ 64 := by
  simp only [accessOk, Bool.and_eq_true, decide_eq_true_eq] at h
  exact h.1

end Sys2Proof.Machine
end

