-- ==== Sys2Proof/Laws/Config.lean ====
section
/-! SUPPORT. What the parameters of a well-formed configuration say (spec/00_scope.md R4, R5): the shape of the
block, and the operand forms that read a parameter. -/

namespace Sys2Proof.Machine

/-- The shape of the block, field by field. -/
theorem shape_of_wf {c : Config} (h : c.wf = true) :
    c.numQueues = 2 ∧ c.rxIndex = 0#32 ∧ c.txIndex = 1#32 ∧ c.configLen = 17 ∧ c.mmioWindow = 0x1000 := by
  simp only [Config.wf, Config.shapeOk, Bool.and_eq_true, beq_iff_eq] at h
  tauto

/-- `QUEUE_NUM_MAX` is a size a bank can hold. -/
theorem queueNumMax_of_wf {c : Config} (h : c.wf = true) :
    isPowerOfTwo c.queueNumMax.toNat = true ∧ c.queueNumMax.toNat ≤ 256 := by
  simp only [Config.wf, Bool.and_eq_true, decide_eq_true_eq] at h
  tauto

theorem queueOf_queueIndex {c : Config} (h : c.wf = true) (i : QueueId) : queueOf c (queueIndex i) = some i := by
  obtain ⟨h1, h2, h3, -⟩ := shape_of_wf h
  cases i <;> simp [queueOf, queueIndex, h1, h2, h3]

theorem queueOf_zero {c : Config} (h : c.wf = true) : queueOf c 0#32 = some .rx := queueOf_queueIndex h .rx
theorem queueOf_one {c : Config} (h : c.wf = true) : queueOf c 1#32 = some .tx := queueOf_queueIndex h .tx

/-- An index of 2 or more names no queue. -/
theorem queueOf_none {c : Config} (h : c.wf = true) {v : Word} (hv : 2 ≤ v.toNat) : queueOf c v = none := by
  rw [queueOf, (shape_of_wf h).1, if_pos hv]

/-- The legal sizes are the nine up to `QUEUE_NUM_MAX` (log 27). -/
theorem legalQueueNum_iff {c : Config} (h : c.wf = true) (v : Word) :
    legalQueueNum c v = true ↔ v ∈ nineSizes ∧ v.toNat ≤ c.queueNumMax.toNat := by
  have hm := (queueNumMax_of_wf h).2
  have nine : ∀ k : Fin 257,
      (BitVec.ofNat 32 k.1 ≠ 0#32 ∧ BitVec.ofNat 32 k.1 &&& (BitVec.ofNat 32 k.1 - 1#32) = 0#32)
        ↔ BitVec.ofNat 32 k.1 ∈ nineSizes := by decide +kernel
  simp only [legalQueueNum, Bool.and_eq_true, bne_iff_ne, ne_eq, decide_eq_true_eq, beq_iff_eq]
  constructor
  · rintro ⟨⟨h0, hl⟩, hp⟩
    refine ⟨?_, hl⟩
    have := (nine ⟨v.toNat, by omega⟩).1
    simp only [BitVec.ofNat_toNat, BitVec.setWidth_eq] at this
    exact this ⟨h0, hp⟩
  · rintro ⟨hn, hl⟩
    have := (nine ⟨v.toNat, by omega⟩).2
    simp only [BitVec.ofNat_toNat, BitVec.setWidth_eq] at this
    exact ⟨⟨(this hn).1, hl⟩, (this hn).2⟩

/-- A configuration access stays inside the 17 bytes. -/
theorem configExtentOk_iff {c : Config} (h : c.wf = true) (k : Offset) (n : Nat) :
    configExtentOk c k n = true ↔ n ≠ 0 ∧ k.toNat + n ≤ 17 := by
  simp [configExtentOk, (shape_of_wf h).2.2.2.1]

end Sys2Proof.Machine
end

