-- ==== Sys2Proof/Laws/Decode.lean ====
section
/-! SUPPORT. What the decoder makes of a transaction's image, once for every offset and direction. -/

namespace Sys2Proof

open Sys2Proof.Machine

/-- The direction's bit of the selector word, bit 12. -/
def dirBit : Dir → Nat
  | .read => 0
  | .write => 1

theorem decode_cons (b0 b1 : Byte) (data : List Byte) :
    decode (b0 :: b1 :: data) = decodeSel (le16 [b0, b1]) data := rfl

theorem sel_bytes (o : Offset) (d : Nat) :
    le16 [BitVec.ofNat 8 o.toNat, BitVec.ofNat 8 (o.toNat / 256 + 16 * d)]
      = BitVec.ofNat 16 (o.toNat + 4096 * d) := by
  have ho := o.isLt
  apply BitVec.eq_of_toNat_eq
  simp only [le16, leNat, BitVec.toNat_ofNat]
  omega

/-- A selector word below 0x2000 is a bus transaction's. -/
theorem decodeSel_bus (dir : Dir) (o : Offset) (data : List Byte) :
    decodeSel (BitVec.ofNat 16 (o.toNat + 4096 * dirBit dir)) data = .ok (decodeBus dir o data) := by
  have ho := o.isLt
  have hd : dirBit dir ≤ 1 := by cases dir <;> decide
  have h1 : (BitVec.ofNat 16 (o.toNat + 4096 * dirBit dir)).extractLsb' 14 2 = 0#2 := by
    apply BitVec.eq_of_toNat_eq
    simp only [BitVec.extractLsb'_toNat, BitVec.toNat_ofNat, Nat.shiftRight_eq_div_pow]
    omega
  have h2 : (BitVec.ofNat 16 (o.toNat + 4096 * dirBit dir)).getLsbD 13 = false := by
    rw [BitVec.getLsbD, BitVec.toNat_ofNat, Nat.testBit_eq_decide_div_mod_eq, decide_eq_false_iff_not]
    omega
  have h3 : (BitVec.ofNat 16 (o.toNat + 4096 * dirBit dir)).getLsbD 12 = decide (dirBit dir = 1) := by
    rw [BitVec.getLsbD, BitVec.toNat_ofNat, Nat.testBit_eq_decide_div_mod_eq, decide_eq_decide]
    omega
  have h4 : (BitVec.ofNat 16 (o.toNat + 4096 * dirBit dir)).extractLsb' 0 12 = o := by
    apply BitVec.eq_of_toNat_eq
    simp only [BitVec.extractLsb'_toNat, BitVec.toNat_ofNat, Nat.shiftRight_eq_div_pow]
    omega
  rw [decodeSel, h1, h2, h3, h4]
  cases dir <;> rfl

/-- The image of a transaction, byte by byte. -/
theorem decode_bus (dir : Dir) (o : Offset) (data : List Byte) :
    decode (BitVec.ofNat 8 o.toNat :: BitVec.ofNat 8 (o.toNat / 256 + 16 * dirBit dir) :: data)
      = .ok (decodeBus dir o data) := by
  rw [decode_cons, sel_bytes, decodeSel_bus]

theorem encodeBus_bytes (dir : Dir) (o : Offset) (data : List Byte) :
    encodeBus dir o data
      = BitVec.ofNat 8 o.toNat :: BitVec.ofNat 8 (o.toNat / 256 + 16 * dirBit dir) :: data := by
  have h (v w : Nat) (hvw : v % 256 = w % 256) : BitVec.ofNat 8 v = BitVec.ofNat 8 w := by
    apply BitVec.eq_of_toNat_eq
    rw [BitVec.toNat_ofNat, BitVec.toNat_ofNat]
    exact hvw
  cases dir
  · exact congrArg₂ (fun a b => a :: b :: data) (h _ _ (by dsimp only; omega)) (h _ _ (by dsimp only [dirBit]; omega))
  · exact congrArg₂ (fun a b => a :: b :: data) (h _ _ (by dsimp only; omega)) (h _ _ (by dsimp only [dirBit]; omega))

theorem decode_encodeBus (dir : Dir) (o : Offset) (data : List Byte) :
    decode (encodeBus dir o data) = .ok (decodeBus dir o data) := by
  rw [encodeBus_bytes, decode_bus]

/-- Whether an offset is a register with a direction does not depend on the value written. -/
theorem regAccess_isSome (dir : Dir) (o : Offset) (v w : Word) :
    (regAccess dir o v).isSome = (regAccess dir o w).isSome := by
  unfold regAccess
  cases regAt o with
  | none => rfl
  | some r => cases dir <;> cases r <;> rfl

/-- A register's own offset finds it. -/
theorem regAt_regOffset (r : Reg) : regAt (regOffset r) = some r := by cases r <;> rfl

/-- A 4-byte write to a register that has a write direction. -/
theorem decode_regWrite (r : Reg) (i : Word → Instr) (h : ∀ v, regWrite v r = some (i v)) (b0 b1 b2 b3 : Byte) :
    decode (encodeBus .write (regOffset r) [b0, b1, b2, b3]) = .ok (i (b3 ++ b2 ++ b1 ++ b0)) := by
  have hl : (regOffset r).toNat < 0x100 := by cases r <;> decide
  rw [decode_encodeBus]
  unfold decodeBus
  rw [if_neg (by omega), if_pos (by rfl), le32_quad]
  simp [regAccess, regAt_regOffset, h]

end Sys2Proof
end

