-- ==== Sys2Proof/Laws/Engine.lean ====
section
/-! SUPPORT. What the engine can do: one relation between the state before and the state each sub-operation ends
in, whether it answers or faults. -/

namespace Sys2Proof.Machine

/-- The part of a bank that only the queue registers write. -/
def Queue.sameRings (p q : Queue) : Prop :=
  q.size = p.size ∧ q.descAddr = p.descAddr ∧ q.availAddr = p.availAddr ∧ q.usedAddr = p.usedAddr

theorem Queue.sameRings.refl (q : Queue) : q.sameRings q := ⟨rfl, rfl, rfl, rfl⟩

theorem Queue.sameRings.trans {p q r : Queue} (h1 : p.sameRings q) (h2 : q.sameRings r) : p.sameRings r :=
  ⟨h2.1.trans h1.1, h2.2.1.trans h1.2.1, h2.2.2.1.trans h1.2.2.1, h2.2.2.2.trans h1.2.2.2⟩

/-- The diagnostic counters count the recorded errors (the clause of `State.Inv`). -/
def countersMatch (s : State) : Prop :=
  s.diag =
    { registerErrors := errorCount 1 s.errorLog
      malformedChains := errorCount 2 s.errorLog
      oversizedFrames := errorCount 3 s.errorLog
      guestMemoryFaults := errorCount 4 s.errorLog
      hostIoErrors := errorCount 5 s.errorLog }

/-- What a sub-operation of the engine on queue `i` can do. It never touches the control registers, the
configuration bytes, the other bank, the rings' places, what is still to come, or the bus; it only appends to the
event history, only takes frames from the front of the port (none on TX), answers from the front of the host's (none
on RX) and turns from the front of the guest's, and keeps the canonical form of memory. -/
structure EngineStep (i : QueueId) (s t : State) : Prop where
  cfg : t.cfg = s.cfg
  status : t.status = s.status
  operational : t.operational = s.operational
  failedByDevice : t.failedByDevice = s.failedByDevice
  hostFeaturesSel : t.hostFeaturesSel = s.hostFeaturesSel
  guestFeaturesSel : t.guestFeaturesSel = s.guestFeaturesSel
  driverFeatures : t.driverFeatures = s.driverFeatures
  pageSize : t.pageSize = s.pageSize
  queueSel : t.queueSel = s.queueSel
  configSpace : t.configSpace = s.configSpace
  inputs : t.inputs = s.inputs
  opsBegun : t.opsBegun = s.opsBegun
  busOutcome : t.busOutcome = s.busOutcome
  busBuffer : t.busBuffer = s.busBuffer
  other : ∀ j, j ≠ i → t.queue j = s.queue j
  rings : (s.queue i).sameRings (t.queue i)
  wf : s.mem.wf = true → t.mem.wf = true
  race : ∃ k, t.race = s.race.drop k
  rxPort : ∃ k, t.rxPort = s.rxPort.drop k
  txAnswers : ∃ k, t.txAnswers = s.txAnswers.drop k
  portKept : i = .tx → t.rxPort = s.rxPort
  answersKept : i = .rx → t.txAnswers = s.txAnswers
  counters : countersMatch s → countersMatch t
  faults : t.diag.guestMemoryFaults = s.diag.guestMemoryFaults
  ioErrors : s.diag.hostIoErrors ≤ t.diag.hostIoErrors
  history : ∃ es, t.history = s.history ++ es

/-- Sub-operations before `MaybeNotify` leave the interrupt bits and send no pulse. -/
structure NoIrqStep (s t : State) : Prop where
  interruptStatus : t.interruptStatus = s.interruptStatus
  history : ∃ es : List (List Byte), t.history = s.history ++ es.map Event.hostTxPush

theorem NoIrqStep.refl (s : State) : NoIrqStep s s := ⟨rfl, [], by simp⟩

theorem NoIrqStep.trans {s t u : State} (h1 : NoIrqStep s t) (h2 : NoIrqStep t u) : NoIrqStep s u := by
  obtain ⟨i1, e1, p1⟩ := h1
  obtain ⟨i2, e2, p2⟩ := h2
  exact ⟨i2.trans i1, e1 ++ e2, by rw [p2, p1, List.map_append, List.append_assoc]⟩

theorem EngineStep.refl (i : QueueId) (s : State) : EngineStep i s s := by
  constructor <;> first | rfl | exact le_refl _ | exact id | exact fun _ _ => rfl | exact fun _ => rfl | exact .refl _ | exact ⟨0, rfl⟩ | exact ⟨[], by simp⟩

theorem EngineStep.trans {i : QueueId} {s t u : State} (h1 : EngineStep i s t) (h2 : EngineStep i t u) :
    EngineStep i s u where
  cfg := h2.cfg.trans h1.cfg
  status := h2.status.trans h1.status
  operational := h2.operational.trans h1.operational
  failedByDevice := h2.failedByDevice.trans h1.failedByDevice
  hostFeaturesSel := h2.hostFeaturesSel.trans h1.hostFeaturesSel
  guestFeaturesSel := h2.guestFeaturesSel.trans h1.guestFeaturesSel
  driverFeatures := h2.driverFeatures.trans h1.driverFeatures
  pageSize := h2.pageSize.trans h1.pageSize
  queueSel := h2.queueSel.trans h1.queueSel
  configSpace := h2.configSpace.trans h1.configSpace
  inputs := h2.inputs.trans h1.inputs
  opsBegun := h2.opsBegun.trans h1.opsBegun
  busOutcome := h2.busOutcome.trans h1.busOutcome
  busBuffer := h2.busBuffer.trans h1.busBuffer
  other j hj := (h2.other j hj).trans (h1.other j hj)
  rings := h1.rings.trans h2.rings
  wf := h2.wf ∘ h1.wf
  race := by
    obtain ⟨a, ha⟩ := h1.race
    obtain ⟨b, hb⟩ := h2.race
    exact ⟨a + b, by rw [hb, ha, List.drop_drop]⟩
  rxPort := by
    obtain ⟨a, ha⟩ := h1.rxPort
    obtain ⟨b, hb⟩ := h2.rxPort
    exact ⟨a + b, by rw [hb, ha, List.drop_drop]⟩
  txAnswers := by
    obtain ⟨a, ha⟩ := h1.txAnswers
    obtain ⟨b, hb⟩ := h2.txAnswers
    exact ⟨a + b, by rw [hb, ha, List.drop_drop]⟩
  portKept hi := (h2.portKept hi).trans (h1.portKept hi)
  answersKept hi := (h2.answersKept hi).trans (h1.answersKept hi)
  counters := h2.counters ∘ h1.counters
  faults := h2.faults.trans h1.faults
  ioErrors := h1.ioErrors.trans h2.ioErrors
  history := by
    obtain ⟨a, ha⟩ := h1.history
    obtain ⟨b, hb⟩ := h2.history
    exact ⟨a ++ b, by rw [hb, ha, List.append_assoc]⟩

/-! ## From accesses and record updates -/

theorem AccessStep.engine {i : QueueId} {s t : State} (h : AccessStep s t) : EngineStep i s t := by
  have o := h.only
  constructor
  case other => intro j _; rw [o]; cases j <;> rfl
  case rings => rw [o]; cases i <;> exact .refl _
  case wf => exact h.wf
  case race => exact h.race
  case rxPort => exact ⟨0, by rw [o]; rfl⟩
  case txAnswers => exact ⟨0, by rw [o]; rfl⟩
  case portKept => intro _; rw [o]
  case answersKept => intro _; rw [o]
  case counters => intro hc; rw [o]; exact hc
  case ioErrors => rw [o]
  case history => exact ⟨[], by rw [o]; simp⟩
  all_goals rw [o]

theorem AccessStep.noIrq {s t : State} (h : AccessStep s t) : NoIrqStep s t := by
  have o := h.only
  exact ⟨by rw [o], [], by rw [o]; simp⟩

/-- Changing the cursors or the suppression flag of bank `i`. -/
theorem setQueue_engine {i : QueueId} {s : State} {q : Queue} (h : (s.queue i).sameRings q) :
    EngineStep i s (s.setQueue i q) := by
  constructor
  case other => exact fun j hj => setQueue_queue_other s i j q hj
  case rings => rw [setQueue_queue_same]; exact h
  case wf => simp
  case race => exact ⟨0, by simp⟩
  case rxPort => exact ⟨0, by simp⟩
  case txAnswers => exact ⟨0, by simp⟩
  case portKept => intro _; simp
  case answersKept => intro _; simp
  case counters => cases i <;> exact id
  case history => exact ⟨[], by simp⟩
  all_goals simp

theorem setQueue_noIrq (i : QueueId) (s : State) (q : Queue) : NoIrqStep s (s.setQueue i q) :=
  ⟨by simp, [], by simp⟩

theorem errorCount_append (c : Nat) (log : List ErrorInfo) (e : ErrorInfo) :
    errorCount c (log ++ [e]) = errorCount c log + if e.code = c then 1 else 0 := by
  rw [errorCount, errorCount, List.filter_append, List.length_append]
  by_cases h : e.code = c <;> simp [h]

/-- An update that counts one error and records it. -/
theorem count_engine {i : QueueId} {s t : State} (hc : countersMatch s → countersMatch t)
    (ht : t = { s with diag := t.diag, errorLog := t.errorLog })
    (hf : t.diag.guestMemoryFaults = s.diag.guestMemoryFaults)
    (hi : s.diag.hostIoErrors ≤ t.diag.hostIoErrors) : EngineStep i s t := by
  constructor
  case other => intro j _; rw [ht]; cases j <;> rfl
  case rings => rw [ht]; cases i <;> exact .refl _
  case wf => rw [ht]; exact id
  case race => exact ⟨0, by rw [ht]; rfl⟩
  case rxPort => exact ⟨0, by rw [ht]; rfl⟩
  case txAnswers => exact ⟨0, by rw [ht]; rfl⟩
  case portKept => intro _; rw [ht]
  case answersKept => intro _; rw [ht]
  case counters => exact hc
  case faults => exact hf
  case ioErrors => exact hi
  case history => exact ⟨[], by rw [ht]; simp⟩
  all_goals rw [ht]

theorem countMalformedChain_counters {head : Half} {s : State} (h : countersMatch s) :
    countersMatch (countMalformedChain head s) := by
  simp [countersMatch, errorCount_append, ErrorInfo.code] at h ⊢
  simp [h]

theorem countOversizedFrame_counters {n c : Nat} {s : State} (h : countersMatch s) :
    countersMatch (countOversizedFrame n c s) := by
  simp [countersMatch, errorCount_append, ErrorInfo.code] at h ⊢
  simp [h]

theorem countHostIoError_counters {s : State} (h : countersMatch s) : countersMatch (countHostIoError s) := by
  simp [countersMatch, errorCount_append, ErrorInfo.code] at h ⊢
  simp [h]

theorem deviceFail_counters {a n : Nat} {s : State} (h : countersMatch s) : countersMatch (deviceFail a n s) := by
  simp [countersMatch, errorCount_append, ErrorInfo.code] at h ⊢
  simp [h]

theorem raiseRegisterError_counters {d : Dir} {o : Offset} {n : Nat} {s : State} (h : countersMatch s) :
    countersMatch (raiseRegisterError d o n s) := by
  simp [countersMatch, errorCount_append, ErrorInfo.code] at h ⊢
  simp [h]

/-! ## The sub-operations -/

/-- Everything the engine does on queue `i` before `MaybeNotify`. -/
def WorkStep (i : QueueId) (s t : State) : Prop := EngineStep i s t ∧ NoIrqStep s t

theorem WorkStep.refl (i : QueueId) (s : State) : WorkStep i s s := ⟨.refl i s, .refl s⟩

theorem WorkStep.trans {i : QueueId} {s t u : State} (h1 : WorkStep i s t) (h2 : WorkStep i t u) :
    WorkStep i s u := ⟨h1.1.trans h2.1, h1.2.trans h2.2⟩

theorem AccessStep.work {i : QueueId} {s t : State} (h : AccessStep s t) : WorkStep i s t :=
  ⟨h.engine, h.noIrq⟩

theorem setQueue_work {i : QueueId} {s : State} {q : Queue} (h : (s.queue i).sameRings q) :
    WorkStep i s (s.setQueue i q) := ⟨setQueue_engine h, setQueue_noIrq i s q⟩

theorem count_work {i : QueueId} {s t : State} (hc : countersMatch s → countersMatch t)
    (ht : t = { s with diag := t.diag, errorLog := t.errorLog })
    (hf : t.diag.guestMemoryFaults = s.diag.guestMemoryFaults)
    (hi : s.diag.hostIoErrors ≤ t.diag.hostIoErrors) : WorkStep i s t :=
  ⟨count_engine hc ht hf hi, ⟨by rw [ht], [], by rw [ht]; simp⟩⟩

theorem countMalformedChain_work (i : QueueId) (head : Half) (s : State) :
    WorkStep i s (countMalformedChain head s) := count_work countMalformedChain_counters rfl rfl (le_refl _)

theorem countOversizedFrame_work (i : QueueId) (n c : Nat) (s : State) :
    WorkStep i s (countOversizedFrame n c s) := count_work countOversizedFrame_counters rfl rfl (le_refl _)

theorem countHostIoError_work (i : QueueId) (s : State) : WorkStep i s (countHostIoError s) :=
  count_work countHostIoError_counters rfl rfl (Nat.le_succ _)

theorem descRead_access (i : QueueId) (k : Half) (s : State) : AccessStep s (descRead i k s).state :=
  Res.bind_rel .trans (memReadTorn_access _ _ _ s) fun _ t _ => .refl t

theorem walkFrom_access (i : QueueId) (n : Nat) : ∀ (rem : Nat) (k : Half) (first : Bool) (s : State),
    AccessStep s (walkFrom i n rem k first s).state
  | 0, _, _, s => .refl s
  | rem + 1, k, first, s => by
    refine Res.bind_rel .trans (descRead_access i k s) fun d t _ => ?_
    split
    · exact .refl t
    · split
      · exact .refl t
      · split
        · exact .refl t
        · exact Res.bind_rel .trans (walkFrom_access i n rem d.next false t) fun _ u _ => .refl u

/-- Walking a chain only reads. -/
theorem walkChain_access (i : QueueId) (head : Half) (s : State) : AccessStep s (walkChain i head s).state := by
  unfold walkChain
  split
  · exact .refl s
  · exact walkFrom_access ..

theorem availPending_access (i : QueueId) (s : State) : AccessStep s (availPending i s).state :=
  Res.bind_rel .trans (memRead16_access _ s) fun _ t _ => .refl t

theorem availPeek_access (i : QueueId) (s : State) : AccessStep s (availPeek i s).state :=
  memRead16_access _ s

theorem availAdvance_work (i : QueueId) (s : State) : WorkStep i s (availAdvance i s) :=
  setQueue_work ⟨rfl, rfl, rfl, rfl⟩

theorem usedAdvance_work (i : QueueId) (s : State) : WorkStep i s (usedAdvance i s) :=
  setQueue_work ⟨rfl, rfl, rfl, rfl⟩

theorem notifyDisable_work (i : QueueId) (s : State) : WorkStep i s (notifyDisable i s).state :=
  .trans (setQueue_work (q := { s.queue i with notifySuppressed := true }) ⟨rfl, rfl, rfl, rfl⟩)
    (memWrite16_access _ _ _).work

theorem notifyEnable_work (i : QueueId) (s : State) : WorkStep i s (notifyEnable i s).state :=
  .trans (setQueue_work (q := { s.queue i with notifySuppressed := false }) ⟨rfl, rfl, rfl, rfl⟩)
    (memWrite16_access _ _ _).work

theorem reArm_work (i : QueueId) (s : State) : WorkStep i s (reArm i s).state := by
  refine Res.bind_rel .trans (notifyEnable_work i s) fun _ t _ => ?_
  refine Res.bind_rel .trans (availPending_access i t).work fun raced u _ => ?_
  split
  · exact Res.bind_rel .trans (notifyDisable_work i u) fun _ v _ => .refl i v
  · exact .refl i u

theorem usedPost_work (i : QueueId) (head : Half) (n : Word) (s : State) :
    WorkStep i s (usedPost i head n s).state := by
  refine Res.bind_rel .trans (memWrite32_access _ _ s).work fun _ t _ => ?_
  refine Res.bind_rel .trans (memWrite32_access _ _ t).work fun _ u _ => ?_
  exact .trans (usedAdvance_work i u) (memWrite16_access _ _ _).work

theorem txGather_access : ∀ (chain : List Desc) (s : State), AccessStep s (txGather chain s).state
  | [], s => .refl s
  | _ :: ds, s =>
    Res.bind_rel .trans (memReadTorn_access _ _ _ s) fun _ t _ =>
      Res.bind_rel .trans (txGather_access ds t) fun _ u _ => .refl u

theorem rxCopy_access (frame : List Byte) : ∀ (chain : List Desc) (cursor : Nat) (s : State),
    AccessStep s (rxCopy frame chain cursor s).state
  | [], _, s => .refl s
  | d :: ds, cursor, s => by
    unfold rxCopy
    split
    · exact .refl s
    · exact Res.bind_rel .trans (memWriteTorn_access _ _ s) fun _ t _ => rxCopy_access frame ds _ t

theorem rxTransfer_work (i : QueueId) (chain : List Desc) (frame : List Byte) (s : State) :
    WorkStep i s (rxTransfer chain frame s).state := by
  refine Res.bind_rel .trans (rxCopy_access frame chain 0 s).work fun cursor t _ => ?_
  split
  · exact countOversizedFrame_work i _ _ t
  · exact .refl i t

theorem hostTxPush_work (bytes : List Byte) (s : State) : WorkStep .tx s (hostTxPush bytes s).2 := by
  refine ⟨?_, rfl, [bytes], rfl⟩
  constructor
  case other => intro j _; cases j <;> rfl
  case rings => exact .refl _
  case wf => exact id
  case race => exact ⟨0, rfl⟩
  case rxPort => exact ⟨0, rfl⟩
  case txAnswers => exact ⟨1, rfl⟩
  case portKept => exact fun _ => rfl
  case answersKept => intro h; cases h
  case counters => exact id
  case history => exact ⟨[.hostTxPush bytes], rfl⟩
  all_goals rfl

theorem pushFrame_work (bytes : List Byte) (s : State) : WorkStep .tx s (pushFrame bytes s) := by
  have h := hostTxPush_work bytes s
  unfold pushFrame
  cases hp : hostTxPush bytes s with
  | mk a t =>
    rw [hp] at h
    cases a with
    | ok => exact h
    | error => exact h.trans (countHostIoError_work .tx t)

theorem txTransfer_work (chain : List Desc) (s : State) : WorkStep .tx s (txTransfer chain s).state :=
  Res.bind_rel .trans (txGather_access chain s).work fun bytes t _ => pushFrame_work bytes t

theorem txChain_work (s : State) : WorkStep .tx s (txChain s).state := by
  refine Res.bind_rel .trans (availPeek_access .tx s).work fun head t _ => ?_
  refine Res.bind_rel .trans (.trans (availAdvance_work .tx t) (walkChain_access .tx head _).work)
    fun chain u _ => ?_
  cases chain with
  | none => exact countMalformedChain_work .tx head u
  | some list =>
    exact Res.bind_rel .trans (txTransfer_work list u) fun _ v _ => usedPost_work .tx head _ v

theorem hostRxPop_work (s : State) : WorkStep .rx s (hostRxPop s).2 := by
  unfold hostRxPop
  split
  · exact .refl .rx s
  · next item rest h =>
    refine ⟨?_, rfl, [], by simp⟩
    constructor
    case other => intro j _; cases j <;> rfl
    case rings => exact .refl _
    case wf => exact id
    case race => exact ⟨0, rfl⟩
    case rxPort => exact ⟨1, by simp [h]⟩
    case txAnswers => exact ⟨0, rfl⟩
    case portKept => intro h; cases h
    case answersKept => exact fun _ => rfl
    case counters => exact id
    case history => exact ⟨[], by simp⟩
    all_goals rfl

theorem rxDeliver_work (head : Half) (list : List Desc) (s : State) :
    WorkStep .rx s (rxDeliver head list s).state := by
  have h := hostRxPop_work s
  unfold rxDeliver
  cases hp : hostRxPop s with
  | mk item t =>
    rw [hp] at h
    cases item with
    | none => exact h
    | some item =>
      cases item with
      | error =>
        exact h.trans (.trans (countHostIoError_work .rx t)
          (Res.bind_rel .trans (notifyEnable_work .rx _) fun _ u _ => .refl .rx u))
      | frame bytes =>
        refine h.trans (.trans (availAdvance_work .rx t) ?_)
        refine Res.bind_rel .trans (rxTransfer_work .rx list bytes _) fun n u _ => ?_
        exact Res.bind_rel .trans (usedPost_work .rx head _ u) fun _ v _ => .refl .rx v

theorem rxChain_work (s : State) : WorkStep .rx s (rxChain s).state := by
  refine Res.bind_rel .trans (availPeek_access .rx s).work fun head t _ => ?_
  refine Res.bind_rel .trans (walkChain_access .rx head t).work fun chain u _ => ?_
  cases chain with
  | none => exact .trans (availAdvance_work .rx u) (countMalformedChain_work .rx head _)
  | some list => exact rxDeliver_work head list u

/-- What the loops of `ProcessTx` can do, however they end. -/
theorem txLoop_work : ∀ (fuel : Nat) (s : State) (r : Res Unit), txLoop fuel s = some r →
    WorkStep .tx s r.state
  | 0, _, _, h => by cases h
  | fuel + 1, s, r, h => by
    have hp := (availPending_access .tx s).work (i := .tx)
    unfold txLoop at h
    cases h1 : availPending .tx s with
    | fault a n t => rw [h1] at h hp; cases h; exact hp
    | ok pending t =>
      rw [h1] at h hp
      cases pending with
      | true =>
        have hc := txChain_work t
        cases h2 : txChain t with
        | fault a n u => simp only [h2] at h hc; cases h; exact hp.trans hc
        | ok _ u => simp only [h2] at h hc; exact (hp.trans hc).trans (txLoop_work fuel u r h)
      | false =>
        have hc := reArm_work .tx t
        cases h2 : reArm .tx t with
        | fault a n u => simp only [h2] at h hc; cases h; exact hp.trans hc
        | ok raced u =>
          simp only [h2] at h hc
          cases raced with
          | true => exact (hp.trans hc).trans (txLoop_work fuel u r h)
          | false => cases h; exact hp.trans hc

/-- What the loop of `PumpRx` can do, however it ends. -/
theorem rxLoop_work : ∀ (fuel : Nat) (s : State) (r : Res Unit), rxLoop fuel s = some r →
    WorkStep .rx s r.state
  | 0, _, _, h => by cases h
  | fuel + 1, s, r, h => by
    have hp := (availPending_access .rx s).work (i := .rx)
    unfold rxLoop at h
    split at h
    · cases h; exact notifyEnable_work .rx s
    · cases h1 : availPending .rx s with
      | fault a n t => rw [h1] at h hp; cases h; exact hp
      | ok pending t =>
        rw [h1] at h hp
        cases pending with
        | false =>
          have hc := reArm_work .rx t
          cases h2 : reArm .rx t with
          | fault a n u => simp only [h2] at h hc; cases h; exact hp.trans hc
          | ok raced u =>
            simp only [h2] at h hc
            cases raced with
            | true => exact (hp.trans hc).trans (rxLoop_work fuel u r h)
            | false => cases h; exact hp.trans hc
        | true =>
          have hc := rxChain_work t
          cases h2 : rxChain t with
          | fault a n u => simp only [h2] at h hc; cases h; exact hp.trans hc
          | ok more u =>
            simp only [h2] at h hc
            cases more with
            | true => exact (hp.trans hc).trans (rxLoop_work fuel u r h)
            | false => cases h; exact hp.trans hc

/-! ## The interrupt -/

/-- What `MaybeNotify` can do to the interrupt bits and the pulses: nothing, or the bit of this queue, with a
pulse when it was clear. -/
structure IrqStep (i : QueueId) (s t : State) : Prop where
  cases : (t.interruptStatus = s.interruptStatus ∧ t.history = s.history)
    ∨ (t.interruptStatus = s.interruptStatus ||| irqBit s.cfg i
        ∧ t.history = s.history ++ if irqEdge s.interruptStatus (irqBit s.cfg i) then [.irqPulse 1] else [])

theorem raiseIrq_engine (i : QueueId) (s : State) : EngineStep i s (raiseIrq i s) := by
  constructor
  case other => intro j _; simp
  case rings => rw [raiseIrq_queue]; exact .refl _
  case wf => simp
  case race => exact ⟨0, by simp⟩
  case rxPort => exact ⟨0, by simp⟩
  case txAnswers => exact ⟨0, by simp⟩
  case portKept => intro _; simp
  case answersKept => intro _; simp
  case counters => intro h; simpa [countersMatch] using h
  case history =>
    unfold raiseIrq
    split
    · exact ⟨[.irqPulse 1], rfl⟩
    · exact ⟨[], by simp⟩
  all_goals simp

theorem raiseIrq_irq (i : QueueId) (s : State) : IrqStep i s (raiseIrq i s) := by
  refine ⟨.inr ⟨by simp, ?_⟩⟩
  unfold raiseIrq
  split <;> simp

theorem maybeNotify_engine (i : QueueId) (s : State) : EngineStep i s (maybeNotify i s).state := by
  unfold maybeNotify
  split
  · exact .refl i s
  · refine Res.bind_rel .trans
      (.trans (setQueue_engine (q := { s.queue i with signalledUsed := (s.queue i).nextUsed }) ⟨rfl, rfl, rfl, rfl⟩)
        (memRead16_access _ _).engine) fun f t _ => ?_
    split
    · exact .refl i t
    · exact raiseIrq_engine i t

theorem maybeNotify_irq (i : QueueId) (s : State) : IrqStep i s (maybeNotify i s).state := by
  unfold maybeNotify
  split
  · exact ⟨.inl ⟨rfl, rfl⟩⟩
  · have ho := (memRead16_access (availFlagsAddr (s.queue i))
      (s.setQueue i { s.queue i with signalledUsed := (s.queue i).nextUsed })).only
    have hi : ∀ t : State, t = { s.setQueue i { s.queue i with signalledUsed := (s.queue i).nextUsed } with
          mem := t.mem, race := t.race } →
        t.interruptStatus = s.interruptStatus ∧ t.history = s.history ∧ t.cfg = s.cfg := by
      intro t h; rw [h]; simp
    cases hr : memRead16 (availFlagsAddr (s.queue i))
        (s.setQueue i { s.queue i with signalledUsed := (s.queue i).nextUsed }) with
    | fault a n t =>
      rw [hr] at ho
      obtain ⟨h1, h2, -⟩ := hi t ho
      exact ⟨.inl ⟨h1, h2⟩⟩
    | ok f t =>
      rw [hr] at ho
      obtain ⟨h1, h2, h3⟩ := hi t ho
      rw [Res.bind_ok]
      split
      · exact ⟨.inl ⟨h1, h2⟩⟩
      · have h := (raiseIrq_irq i t).cases
        rw [h1, h2, h3] at h
        exact ⟨h⟩

/-- Where `MaybeNotify` faults it has raised nothing. -/
theorem maybeNotify_fault {i : QueueId} {s t : State} {a n : Nat} (h : maybeNotify i s = .fault a n t) :
    WorkStep i s t := by
  unfold maybeNotify at h
  split at h
  · cases h
  · have hw := (setQueue_work (i := i) (s := s) (q := { s.queue i with signalledUsed := (s.queue i).nextUsed })
      ⟨rfl, rfl, rfl, rfl⟩).trans (memRead16_access (availFlagsAddr (s.queue i)) _).work
    cases hr : memRead16 (availFlagsAddr (s.queue i))
        (s.setQueue i { s.queue i with signalledUsed := (s.queue i).nextUsed }) with
    | fault a' n' t' =>
      rw [hr] at h hw
      cases h
      exact hw
    | ok f t' =>
      rw [hr, Res.bind_ok] at h
      split at h <;> cases h

/-! ## The drains -/

/-- How a drain ends: normally, in a state the engine's steps reach; or with `DeviceFail` in such a state. -/
inductive DrainStep (i : QueueId) (s : State) : State → Prop where
  | normal (u t : State) (work : WorkStep i s u) (last : EngineStep i u t) (irq : IrqStep i u t) :
      DrainStep i s t
  | failed (a n : Nat) (t : State) (work : WorkStep i s t) : DrainStep i s (deviceFail a n t)

theorem endDrain_step {i : QueueId} {s t : State} {r : Option (Res Unit)}
    (hw : ∀ x, r = some x → WorkStep i s x.state) (h : endDrain i r = some t) : DrainStep i s t := by
  cases r with
  | none => cases h
  | some x =>
    have hx := hw x rfl
    cases x with
    | fault a n u => cases h; exact .failed a n u hx
    | ok _ u =>
      have he := maybeNotify_engine i u
      have hi := maybeNotify_irq i u
      simp only [endDrain] at h
      cases hm : maybeNotify i u with
      | ok _ v =>
        simp only [hm, Option.some.injEq] at h he hi
        exact h ▸ .normal u v hx he hi
      | fault a n v =>
        simp only [hm, Option.some.injEq] at h
        exact h ▸ .failed a n v (hx.trans (maybeNotify_fault hm))

/-- What `ProcessTx` can do. -/
theorem processTx_step {s t : State} (h : processTx s = some t) : DrainStep .tx s t := by
  have hd := notifyDisable_work .tx s
  unfold processTx at h
  cases hn : notifyDisable .tx s with
  | fault a n u => simp only [hn] at h hd; cases h; exact .failed a n u hd
  | ok _ u =>
    simp only [hn] at h hd
    exact endDrain_step (fun x hx => hd.trans (txLoop_work _ u x hx)) h

/-- What `PumpRx` can do. -/
theorem pumpRx_step {s t : State} (h : pumpRx s = some t) : DrainStep .rx s t := by
  have hd := notifyDisable_work .rx s
  unfold pumpRx at h
  cases hn : notifyDisable .rx s with
  | fault a n u => simp only [hn] at h hd; cases h; exact .failed a n u hd
  | ok _ u =>
    simp only [hn] at h hd
    exact endDrain_step (fun x hx => hd.trans (rxLoop_work _ u x hx)) h

/-- What processing a queue can do. -/
theorem processQueue_step {i : QueueId} {s t : State} (h : processQueue i s = some t) : DrainStep i s t := by
  cases i with
  | rx => exact pumpRx_step h
  | tx => exact processTx_step h

end Sys2Proof.Machine
end

