-- ==== Sys2Proof/Laws/PerInstr.lean ====
section
/-! SUPPORT. Facts about every operation, one lemma per constructor: an operation's image begins with the
selector word of its rows of spec/opcode_table.json (spec/30_encoding.md R80). -/

namespace Sys2Proof.Laws

open Sys2Proof.Machine

/-- A row's `match` and `mask`. -/
structure SelRow where
  value : Nat
  mask : Nat
  deriving DecidableEq, Repr

/-- The row of a register access or an event: all 14 bits are fixed. -/
def exactRow (value : Nat) : List SelRow := [⟨value, 0x3FFF⟩]

/-- The rows of an operation's mnemonic in spec/opcode_table.json; the catch-all row's direction bit is an
operand. -/
def rowsOf : Instr → List SelRow
  | .rdMagic => exactRow 0x0000
  | .rdVersion => exactRow 0x0004
  | .rdDeviceId => exactRow 0x0008
  | .rdVendorId => exactRow 0x000C
  | .rdHostFeatures => exactRow 0x0010
  | .wrHostFeaturesSel _ => exactRow 0x1014
  | .wrGuestFeatures _ => exactRow 0x1020
  | .wrGuestFeaturesSel _ => exactRow 0x1024
  | .wrGuestPageSize _ => exactRow 0x1028
  | .wrQueueSel _ => exactRow 0x1030
  | .rdQueueNumMax => exactRow 0x0034
  | .wrQueueNum _ => exactRow 0x1038
  | .wrQueueAlign _ => exactRow 0x103C
  | .rdQueuePfn => exactRow 0x0040
  | .wrQueuePfn _ => exactRow 0x1040
  | .wrQueueNotify _ => exactRow 0x1050
  | .rdInterruptStatus => exactRow 0x0060
  | .wrInterruptAck _ => exactRow 0x1064
  | .rdStatus => exactRow 0x0070
  | .wrStatus _ => exactRow 0x1070
  | .rdConfig _ _ => [⟨0x0100, 0x3F00⟩, ⟨0x0200, 0x3E00⟩, ⟨0x0400, 0x3C00⟩, ⟨0x0800, 0x3800⟩]
  | .wrConfig _ _ => [⟨0x1100, 0x3F00⟩, ⟨0x1200, 0x3E00⟩, ⟨0x1400, 0x3C00⟩, ⟨0x1800, 0x3800⟩]
  | .invalidAccess _ _ _ => [⟨0x0000, 0x2000⟩]
  | .evtHostRxReady => exactRow 0x2001
  | .evtPowerOn => exactRow 0x2002

/-- The selector word of a byte image. -/
def selOf (image : List Byte) : Nat := leNat (image.take 2)

/-- A well-formed operation's image carries the selector of one of its rows. -/
def EncodesItsRow.Statement (i : Instr) : Prop :=
  i.wf = true → ∃ r ∈ rowsOf i, selOf (encode i) &&& r.mask = r.value

/-- The selector word of a transaction's image. -/
theorem selOf_encodeBus (dir : Dir) (o : Offset) (data : List Byte) :
    selOf (encodeBus dir o data) = o.toNat + (match dir with | .read => 0 | .write => 0x1000) := by
  have ho := o.isLt
  have h (v : Nat) : (bytesLE 2 v ++ data).take 2 = bytesLE 2 v := rfl
  have hv (v : Nat) (hlt : v < 65536) : leNat (bytesLE 2 v) = v := by
    simp only [bytesLE, leNat, BitVec.toNat_ofNat]
    omega
  cases dir
  · exact (congrArg leNat (h _)).trans (hv _ (by dsimp only; omega))
  · exact (congrArg leNat (h _)).trans (hv _ (by dsimp only; omega))

/-- Every offset from 0x100 on lies in one of the four ranges of the DeviceSpecific rows. -/
theorem configRows (k : Offset) (hk : k.toNat + 0x100 < 0x1000) :
    ∃ r ∈ rowsOf (.rdConfig k 0), (k + 0x100#12).toNat &&& r.mask = r.value := by
  have h : ∀ o : Offset, 0x100 ≤ o.toNat →
      o.toNat &&& 0x3F00 = 0x0100 ∨ o.toNat &&& 0x3E00 = 0x0200 ∨ o.toNat &&& 0x3C00 = 0x0400
        ∨ o.toNat &&& 0x3800 = 0x0800 := by decide +kernel
  have ho : 0x100 ≤ (k + 0x100#12).toNat := by rw [BitVec.toNat_add]; simp only [BitVec.toNat_ofNat]; omega
  rcases h _ ho with h | h | h | h
  · exact ⟨_, .head _, h⟩
  · exact ⟨_, .tail _ (.head _), h⟩
  · exact ⟨_, .tail _ (.tail _ (.head _)), h⟩
  · exact ⟨_, .tail _ (.tail _ (.tail _ (.head _))), h⟩

theorem configRowsWrite (k : Offset) (hk : k.toNat + 0x100 < 0x1000) :
    ∃ r ∈ rowsOf (.wrConfig k 0), ((k + 0x100#12).toNat + 0x1000) &&& r.mask = r.value := by
  have h : ∀ o : Offset, 0x100 ≤ o.toNat →
      (o.toNat + 0x1000) &&& 0x3F00 = 0x1100 ∨ (o.toNat + 0x1000) &&& 0x3E00 = 0x1200
        ∨ (o.toNat + 0x1000) &&& 0x3C00 = 0x1400 ∨ (o.toNat + 0x1000) &&& 0x3800 = 0x1800 := by decide +kernel
  have ho : 0x100 ≤ (k + 0x100#12).toNat := by rw [BitVec.toNat_add]; simp only [BitVec.toNat_ofNat]; omega
  rcases h _ ho with h | h | h | h
  · exact ⟨_, .head _, h⟩
  · exact ⟨_, .tail _ (.head _), h⟩
  · exact ⟨_, .tail _ (.tail _ (.head _)), h⟩
  · exact ⟨_, .tail _ (.tail _ (.tail _ (.head _))), h⟩

/-- An operation whose image starts with the fixed word of its one row. -/
theorem exact_row {i : Instr} {v : Nat} (h : rowsOf i = exactRow v) (he : selOf (encode i) &&& 0x3FFF = v) :
    EncodesItsRow.Statement i := fun _ => ⟨⟨v, 0x3FFF⟩, by rw [h]; exact .head _, he⟩

/-- The same for a register write, whose operand stands behind the selector word. -/
theorem write_row {i : Instr} {r : Reg} {v : Word} {n : Nat} (h : rowsOf i = exactRow n)
    (he : encode i = encodeWrite r v) (hn : ((regOffset r).toNat + 0x1000) &&& 0x3FFF = n) :
    EncodesItsRow.Statement i := exact_row h (by rw [he, encodeWrite, selOf_encodeBus]; exact hn)

theorem EncodesItsRow.rdMagic : Statement .rdMagic := exact_row rfl rfl
theorem EncodesItsRow.rdVersion : Statement .rdVersion := exact_row rfl rfl
theorem EncodesItsRow.rdDeviceId : Statement .rdDeviceId := exact_row rfl rfl
theorem EncodesItsRow.rdVendorId : Statement .rdVendorId := exact_row rfl rfl
theorem EncodesItsRow.rdHostFeatures : Statement .rdHostFeatures := exact_row rfl rfl
theorem EncodesItsRow.wrHostFeaturesSel (v : Word) : Statement (.wrHostFeaturesSel v) := write_row rfl rfl rfl
theorem EncodesItsRow.wrGuestFeatures (v : Word) : Statement (.wrGuestFeatures v) := write_row rfl rfl rfl
theorem EncodesItsRow.wrGuestFeaturesSel (v : Word) : Statement (.wrGuestFeaturesSel v) := write_row rfl rfl rfl
theorem EncodesItsRow.wrGuestPageSize (v : Word) : Statement (.wrGuestPageSize v) := write_row rfl rfl rfl
theorem EncodesItsRow.wrQueueSel (v : Word) : Statement (.wrQueueSel v) := write_row rfl rfl rfl
theorem EncodesItsRow.rdQueueNumMax : Statement .rdQueueNumMax := exact_row rfl rfl
theorem EncodesItsRow.wrQueueNum (v : Word) : Statement (.wrQueueNum v) := write_row rfl rfl rfl
theorem EncodesItsRow.wrQueueAlign (v : Word) : Statement (.wrQueueAlign v) := write_row rfl rfl rfl
theorem EncodesItsRow.rdQueuePfn : Statement .rdQueuePfn := exact_row rfl rfl
theorem EncodesItsRow.wrQueuePfn (v : Word) : Statement (.wrQueuePfn v) := write_row rfl rfl rfl
theorem EncodesItsRow.wrQueueNotify (v : Word) : Statement (.wrQueueNotify v) := write_row rfl rfl rfl
theorem EncodesItsRow.rdInterruptStatus : Statement .rdInterruptStatus := exact_row rfl rfl
theorem EncodesItsRow.wrInterruptAck (v : Word) : Statement (.wrInterruptAck v) := write_row rfl rfl rfl
theorem EncodesItsRow.rdStatus : Statement .rdStatus := exact_row rfl rfl
theorem EncodesItsRow.wrStatus (v : Word) : Statement (.wrStatus v) := write_row rfl rfl rfl
theorem EncodesItsRow.evtHostRxReady : Statement .evtHostRxReady := exact_row rfl rfl
theorem EncodesItsRow.evtPowerOn : Statement .evtPowerOn := exact_row rfl rfl

theorem EncodesItsRow.rdConfig (k : Offset) (n : Nat) : Statement (.rdConfig k n) := fun h => by
  obtain ⟨r, hr, he⟩ := configRows k (of_decide_eq_true h)
  refine ⟨r, hr, ?_⟩
  rw [encode, selOf_encodeBus]
  exact he

theorem EncodesItsRow.wrConfig (k : Offset) (n : Nat) : Statement (.wrConfig k n) := fun h => by
  obtain ⟨r, hr, he⟩ := configRowsWrite k (of_decide_eq_true h)
  refine ⟨r, hr, ?_⟩
  rw [encode, selOf_encodeBus]
  exact he

theorem EncodesItsRow.invalidAccess (dir : Dir) (o : Offset) (len : Nat) :
    Statement (.invalidAccess dir o len) := fun _ => by
  refine ⟨_, .head _, ?_⟩
  rw [encode, selOf_encodeBus]
  have h : ∀ p : Offset, p.toNat &&& 0x2000 = 0 ∧ (p.toNat + 0x1000) &&& 0x2000 = 0 := by decide +kernel
  cases dir
  · exact (h o).1
  · exact (h o).2

end Sys2Proof.Laws
end

