-- ==== Sys2Proof/Laws/Quiet.lean ====
section
/-! SUPPORT. The engine while the guest is quiet (no turn in `race`): each sub-operation as an equation, and the reads
of the rings after a store into the used ring. -/

namespace Sys2Proof.Machine

/-- The state after a store of the device, the guest being quiet. -/
def State.stored (s : State) (a : Dword) (bs : List Byte) : State := { s with mem := writeBytes s.mem a bs }

@[simp] theorem stored_cfg (s : State) (a : Dword) (bs : List Byte) : (s.stored a bs).cfg = s.cfg := rfl
@[simp] theorem stored_mem (s : State) (a : Dword) (bs : List Byte) : (s.stored a bs).mem = writeBytes s.mem a bs := rfl
@[simp] theorem stored_race (s : State) (a : Dword) (bs : List Byte) : (s.stored a bs).race = s.race := rfl
@[simp] theorem stored_rxPort (s : State) (a : Dword) (bs : List Byte) : (s.stored a bs).rxPort = s.rxPort := rfl
@[simp] theorem stored_queue (s : State) (a : Dword) (bs : List Byte) (j : QueueId) :
    (s.stored a bs).queue j = s.queue j := by cases j <;> rfl

@[simp] theorem accessOk_stored (s : State) (b : Dword) (bs : List Byte) (a : Dword) (n : Nat) :
    accessOk (s.stored b bs) a n = accessOk s a n := rfl

@[simp] theorem accessOk_setQueue (s : State) (i : QueueId) (q : Queue) (a : Dword) (n : Nat) :
    accessOk (s.setQueue i q) a n = accessOk s a n := accessOk_cfg (by simp) a n

/-- A prefix of a permitted access is permitted. -/
theorem accessOk_prefix {s : State} {a : Dword} {n m : Nat} (h : accessOk s a n = true) (hm : m ≤ n) :
    accessOk s a m = true := by
  simp only [accessOk, mapped, Bool.and_eq_true, decide_eq_true_eq, List.any_eq_true] at h ⊢
  obtain ⟨hb, r, hr, h1, h2⟩ := h
  exact ⟨by omega, r, hr, h1, by omega⟩

theorem memWrite16_quiet_ok {s : State} (hq : s.race = []) {a : Dword} (h : accessOk s a 2 = true) (v : Half) :
    memWrite16 a v s = .ok () (s.stored a (bytesLE 2 v.toNat)) := by
  rw [memWrite16_quiet hq, if_pos h]
  rfl

theorem memWrite32_quiet_ok {s : State} (hq : s.race = []) {a : Dword} (h : accessOk s a 4 = true) (v : Word) :
    memWrite32 a v s = .ok () (s.stored a (bytesLE 4 v.toNat)) := by
  rw [memWrite32_quiet hq, if_pos h]
  rfl

theorem memRead16_quiet_ok {s : State} (hq : s.race = []) {a : Dword} (h : accessOk s a 2 = true) :
    memRead16 a s = .ok (le16 (readBytes s.mem a 2)) s := by
  rw [memRead16_quiet hq, if_pos h]

theorem availPending_quiet {s : State} (hq : s.race = []) {i : QueueId}
    (h : accessOk s (availIdxAddr (s.queue i)) 2 = true) :
    availPending i s = .ok (availIdx s i != (s.queue i).nextAvail) s := by
  rw [availPending, memRead16_quiet_ok hq h]
  rfl

theorem availPeek_quiet {s : State} (hq : s.race = []) {i : QueueId}
    (h : accessOk s (availRingAddr (s.queue i)) 2 = true) : availPeek i s = .ok (availHead s i) s :=
  memRead16_quiet_ok hq h

theorem notifyDisable_quiet {s : State} (hq : s.race = []) {i : QueueId}
    (h : accessOk s (usedFlagsAddr (s.queue i)) 2 = true) :
    notifyDisable i s =
      .ok () ((s.setQueue i { s.queue i with notifySuppressed := true }).stored (usedFlagsAddr (s.queue i))
        [1#8, 0#8]) :=
  memWrite16_quiet_ok (by simpa using hq) (by simpa using h) 1#16

theorem notifyEnable_quiet {s : State} (hq : s.race = []) {i : QueueId}
    (h : accessOk s (usedFlagsAddr (s.queue i)) 2 = true) :
    notifyEnable i s =
      .ok () ((s.setQueue i { s.queue i with notifySuppressed := false }).stored (usedFlagsAddr (s.queue i))
        [0#8, 0#8]) :=
  memWrite16_quiet_ok (by simpa using hq) (by simpa using h) 0#16

theorem descRead_quiet {s : State} (hq : s.race = []) {i : QueueId} {k : Half}
    (h : accessOk s (descEntryAddr (s.queue i) k) 16 = true) : descRead i k s = .ok (descAt s i k) s := by
  rw [descRead, memReadTorn_quiet hq _ _ (by decide), if_pos h]
  rfl

/-- Posting a used entry, every access permitted. -/
theorem usedPost_quiet {s : State} (hq : s.race = []) {i : QueueId} (head : Half) (n : Word)
    (h1 : accessOk s (usedIdAddr (s.queue i)) 4 = true) (h2 : accessOk s (usedLenAddr (s.queue i)) 4 = true)
    (h3 : accessOk s (usedIdxAddr (s.queue i)) 2 = true) :
    usedPost i head n s =
      .ok () (((s.setQueue i { s.queue i with nextUsed := (s.queue i).nextUsed + 1#16 }).stored
        (usedIdAddr (s.queue i)) (bytesLE 4 (head.zeroExtend 32).toNat)).stored
        (usedLenAddr (s.queue i)) (bytesLE 4 n.toNat) |>.stored
        (usedIdxAddr (s.queue i)) (bytesLE 2 ((s.queue i).nextUsed + 1#16).toNat)) := by
  rw [usedPost, memWrite32_quiet_ok hq h1, Res.bind_ok, stored_queue,
    memWrite32_quiet_ok (s := s.stored _ _) hq h2, Res.bind_ok]
  simp only [stored_queue]
  rw [memWrite16_quiet_ok (by simpa [usedAdvance] using hq) (by simpa [usedAdvance] using h3)]
  cases i <;> rfl

/-! ## Reading beside a store -/

theorem readBytes_stored_outside {s : State} (hw : s.mem.wf = true) {a c : Dword} {bs : List Byte} {n : Nat}
    (ha : accessOk s a bs.length = true) (hc : accessOk s c n = true)
    (ho : c.toNat + n ≤ a.toNat ∨ a.toNat + bs.length ≤ c.toNat) :
    readBytes (s.stored a bs).mem c n = readBytes s.mem c n :=
  readBytes_writeBytes_outside hw (accessOk_bound ha) (accessOk_bound hc) ho

theorem stored_wf {s : State} (hw : s.mem.wf = true) (a : Dword) (bs : List Byte) : (s.stored a bs).mem.wf = true :=
  writeBytes_wf _ _ hw

/-! ## Where the rings lie -/

theorem slot_lt (c n : Half) (h : 0 < n.toNat) : slotOf c n < n.toNat := Nat.mod_lt _ h

theorem addr_usedIdx {q : Queue} (h : RingsApart q) : (usedIdxAddr q).toNat = q.usedAddr.toNat + 2 := by
  have := h.used
  exact addr_add_toNat (i := 2) (by omega)

theorem addr_availIdx {q : Queue} (h : RingsApart q) : (availIdxAddr q).toNat = q.availAddr.toNat + 2 := by
  have := h.avail
  have := h.used
  exact addr_add_toNat (i := 2) (by omega)

theorem addr_availRing {q : Queue} (h : RingsApart q) (hz : 0 < q.size.toNat) :
    (availRingAddr q).toNat = q.availAddr.toNat + 4 + 2 * slotOf q.nextAvail q.size := by
  have := h.avail
  have := h.used
  have := slot_lt q.nextAvail q.size hz
  have h1 : (q.availAddr + 4#64).toNat = q.availAddr.toNat + 4 := addr_add_toNat (i := 4) (by omega)
  unfold availRingAddr
  rw [addr_add_toNat (by omega), h1]

theorem addr_usedId {q : Queue} (h : RingsApart q) (hz : 0 < q.size.toNat) :
    (usedIdAddr q).toNat = q.usedAddr.toNat + 4 + 8 * slotOf q.nextUsed q.size := by
  have := h.used
  have := slot_lt q.nextUsed q.size hz
  have h1 : (q.usedAddr + 4#64).toNat = q.usedAddr.toNat + 4 := addr_add_toNat (i := 4) (by omega)
  unfold usedIdAddr
  rw [addr_add_toNat (by omega), h1]

theorem addr_usedLen {q : Queue} (h : RingsApart q) (hz : 0 < q.size.toNat) :
    (usedLenAddr q).toNat = q.usedAddr.toNat + 8 + 8 * slotOf q.nextUsed q.size := by
  have := h.used
  have := slot_lt q.nextUsed q.size hz
  have h1 : (q.usedAddr + 8#64).toNat = q.usedAddr.toNat + 8 := addr_add_toNat (i := 8) (by omega)
  unfold usedLenAddr
  rw [addr_add_toNat (by omega), h1]

theorem addr_desc {q : Queue} (h : RingsApart q) (k : Half) (hk : k.toNat < q.size.toNat) :
    (descEntryAddr q k).toNat = q.descAddr.toNat + 16 * k.toNat := by
  have := h.table
  have := h.avail
  have := h.used
  have h1 : 16#64 * k.zeroExtend 64 = BitVec.ofNat 64 (16 * k.toNat) := by
    apply BitVec.eq_of_toNat_eq
    simp [BitVec.toNat_mul]
  unfold descEntryAddr
  rw [h1, addr_add_toNat (by omega)]

/-- A chain stays linked where no descriptor of the table changes. -/
theorem linked_congr {s t : State} {i : QueueId} (hq : (t.queue i).size = (s.queue i).size)
    (hd : ∀ k : Half, k.toNat < (s.queue i).size.toNat → descAt t i k = descAt s i k) :
    ∀ (l : List Desc) (k : Half), k.toNat < (s.queue i).size.toNat → linked s i k l → linked t i k l
  | [], _, _, h => h
  | [_], k, hk, h => ⟨by rw [hd k hk]; exact h.1, h.2⟩
  | _ :: e :: ds, k, hk, h =>
    ⟨by rw [hd k hk]; exact h.1, h.2.1, by rw [hq]; exact h.2.2.1,
      linked_congr hq hd (e :: ds) _ h.2.2.1 h.2.2.2⟩

end Sys2Proof.Machine
end

