-- ==== Sys2Proof/Laws/Rings.lean ====
section
/-! SUPPORT. Runs of the engine on rings that lie apart, the guest being quiet: states that differ from a first one
only in a bank's cursors and inside its used ring, and what each sub-operation does in such a state. -/

namespace Sys2Proof.Machine

/-! ## Memories that agree outside a used ring -/

/-- Two memories that agree outside the used ring of a bank. -/
def agreeOutside (q : Queue) (m m' : Memory) : Prop :=
  ∀ a, (a < q.usedAddr.toNat ∨ q.usedAddr.toNat + 4 + 8 * q.size.toNat ≤ a) → memGet m' a = memGet m a

theorem agreeOutside_refl (q : Queue) (m : Memory) : agreeOutside q m m := fun _ _ => rfl

theorem agreeOutside_trans {q : Queue} {m m' m'' : Memory} (h : agreeOutside q m m') (h' : agreeOutside q m' m'') :
    agreeOutside q m m'' := fun a ha => (h' a ha).trans (h a ha)

/-- A store inside the used ring. -/
theorem agreeOutside_write {q : Queue} {m : Memory} (hw : m.wf = true) {a : Dword} {bs : List Byte}
    (h1 : q.usedAddr.toNat ≤ a.toNat) (h2 : a.toNat + bs.length ≤ q.usedAddr.toNat + 4 + 8 * q.size.toNat)
    (h3 : q.usedAddr.toNat + 6 + 8 * q.size.toNat ≤ 2 ^ 64) : agreeOutside q m (writeBytes m a bs) := by
  intro x hx
  exact memGet_writeBytes_outside hw (by omega) (by omega)

/-- A read beside the used ring. -/
theorem agreeOutside_read {q : Queue} {m m' : Memory} (h : agreeOutside q m m') {a : Dword} {n : Nat}
    (hb : a.toNat + n ≤ 2 ^ 64)
    (ho : a.toNat + n ≤ q.usedAddr.toNat ∨ q.usedAddr.toNat + 4 + 8 * q.size.toNat ≤ a.toNat) :
    readBytes m' a n = readBytes m a n := by
  apply List.ext_getElem (by simp)
  intro i h1 h2
  simp only [readBytes_length] at h1
  rw [readBytes_getElem, readBytes_getElem, addr_add_toNat (by omega)]
  exact h _ (by omega)

/-- What agrees outside the used ring agrees at every address that is not in it. -/
theorem agreeOutside_inUsedRing {q : Queue} (h : RingsApart q) {m m' : Memory} (ha : agreeOutside q m m') (a : Nat)
    (hn : ¬ inUsedRing q a) : memGet m' a = memGet m a := by
  apply ha
  by_contra hc
  apply hn
  have := h.used
  refine ⟨a - q.usedAddr.toNat, by omega, ?_⟩
  rw [addr_add_toNat (by omega)]
  omega

theorem configured_size_pos {q : Queue} (h : configured q = true) : 0 < q.size.toNat := by
  simp only [configured, Bool.and_eq_true, bne_iff_ne, ne_eq] at h
  rcases Nat.eq_zero_or_pos q.size.toNat with h0 | h0
  · exact absurd (BitVec.eq_of_toNat_eq (by simpa using h0)) h.1
  · exact h0

section reads
variable {s t : State} {i : QueueId} (hr : RingsApart (s.queue i)) (hq : (s.queue i).sameRings (t.queue i))
  (ha : agreeOutside (s.queue i) s.mem t.mem)
include hr hq ha

theorem availIdx_agree : availIdx t i = availIdx s i := by
  unfold availIdx availIdxAddr
  rw [hq.2.2.1]
  have e := addr_availIdx hr
  have := hr.avail
  have := hr.used
  unfold availIdxAddr at e
  rw [agreeOutside_read ha (by omega) (by omega)]

theorem availFlags_agree : availFlags t i = availFlags s i := by
  unfold availFlags availFlagsAddr
  rw [hq.2.2.1]
  have := hr.avail
  have := hr.used
  rw [agreeOutside_read ha (by omega) (by omega)]

theorem availHead_agree (hz : 0 < (s.queue i).size.toNat)
    (hn : (t.queue i).nextAvail = (s.queue i).nextAvail) : availHead t i = availHead s i := by
  unfold availHead
  have e := addr_availRing hr hz
  have := hr.avail
  have := hr.used
  have := slot_lt (s.queue i).nextAvail _ hz
  have e' : availRingAddr (t.queue i) = availRingAddr (s.queue i) := by
    unfold availRingAddr
    rw [hq.2.2.1, hn, hq.1]
  rw [e', agreeOutside_read ha (by omega) (by omega)]

theorem descAt_agree (k : Half) (hk : k.toNat < (s.queue i).size.toNat) : descAt t i k = descAt s i k := by
  unfold descAt
  have e := addr_desc hr k hk
  have := hr.avail
  have := hr.used
  have := hr.table
  have e' : descEntryAddr (t.queue i) k = descEntryAddr (s.queue i) k := by
    unfold descEntryAddr
    rw [hq.2.1]
  rw [e', agreeOutside_read ha (by omega) (by omega)]

end reads

/-- A well-formed chain stays one where size, header length and descriptors are the same. -/
theorem wellFormedChain_congr {s t : State} {i : QueueId} {head : Half} {chain : List Desc} (hc : t.cfg = s.cfg)
    (hq : (t.queue i).size = (s.queue i).size)
    (hd : ∀ k : Half, k.toNat < (s.queue i).size.toNat → descAt t i k = descAt s i k)
    (h : WellFormedChain s i head chain) : WellFormedChain t i head chain :=
  ⟨by rw [hq]; exact h.inTable, linked_congr hq hd chain head h.inTable h.links, by rw [hq]; exact h.length,
    by rw [hc]; exact h.header⟩

/-! ## States of one run -/

/-- `t` differs from `s`, as far as an engine run on queue `i` reads it, only in the cursors of the bank and inside
its used ring. -/
structure Reached (i : QueueId) (s t : State) : Prop where
  cfg : t.cfg = s.cfg
  race : t.race = s.race
  rings : (s.queue i).sameRings (t.queue i)
  agree : agreeOutside (s.queue i) s.mem t.mem
  wf : t.mem.wf = true

theorem reached_refl {i : QueueId} {s : State} (hw : s.mem.wf = true) : Reached i s s :=
  ⟨rfl, rfl, ⟨rfl, rfl, rfl, rfl⟩, agreeOutside_refl _ _, hw⟩

theorem reached_accessOk {i : QueueId} {s t : State} (h : Reached i s t) (a : Dword) (n : Nat) :
    accessOk t a n = accessOk s a n := accessOk_cfg h.cfg a n

theorem reached_setQueue {i : QueueId} {s t : State} (h : Reached i s t) {q : Queue}
    (hq : (s.queue i).sameRings q) : Reached i s (t.setQueue i q) :=
  ⟨by simp [h.cfg], by simp [h.race], by simpa using hq, by simpa using h.agree, by simpa using h.wf⟩

theorem reached_availAdvance {i : QueueId} {s t : State} (h : Reached i s t) : Reached i s (availAdvance i t) :=
  reached_setQueue h ⟨h.rings.1, h.rings.2.1, h.rings.2.2.1, h.rings.2.2.2⟩

theorem reached_stored {i : QueueId} {s t : State} (h : Reached i s t) (hr : RingsApart (s.queue i)) {a : Dword}
    {bs : List Byte} (h1 : (s.queue i).usedAddr.toNat ≤ a.toNat)
    (h2 : a.toNat + bs.length ≤ (s.queue i).usedAddr.toNat + 4 + 8 * (s.queue i).size.toNat) :
    Reached i s (t.stored a bs) :=
  ⟨h.cfg, h.race, by simpa using h.rings, agreeOutside_trans h.agree (agreeOutside_write h.wf h1 h2 hr.used),
    stored_wf h.wf _ _⟩

/-- Output, the ports, the counters and the interrupt bits do not matter. -/
theorem reached_of_eq {i : QueueId} {s t u : State} (h : Reached i s t)
    (e : u = { t with
      history := u.history, txAnswers := u.txAnswers, diag := u.diag, errorLog := u.errorLog
      rxPort := u.rxPort, interruptStatus := u.interruptStatus, busOutcome := u.busOutcome }) : Reached i s u := by
  rw [e]
  obtain ⟨a, b, c, d, w⟩ := h
  exact ⟨a, b, by cases i <;> exact c, d, w⟩

/-- The state after `NotifyDisable`. -/
def disabled (i : QueueId) (u : Dword) (t : State) : State :=
  (t.setQueue i { t.queue i with notifySuppressed := true }).stored u [1#8, 0#8]

/-- The state after `NotifyEnable`. -/
def enabled (i : QueueId) (u : Dword) (t : State) : State :=
  (t.setQueue i { t.queue i with notifySuppressed := false }).stored u [0#8, 0#8]

/-- The state after `UsedPost`; the addresses are those of the bank `q`. -/
def posted (i : QueueId) (q : Queue) (head : Half) (n : Word) (t : State) : State :=
  (((t.setQueue i { t.queue i with nextUsed := (t.queue i).nextUsed + 1#16 }).stored
    (usedIdAddr q) (bytesLE 4 (head.zeroExtend 32).toNat)).stored
    (usedLenAddr q) (bytesLE 4 n.toNat)).stored
    (usedIdxAddr q) (bytesLE 2 ((t.queue i).nextUsed + 1#16).toNat)

/-! ## The sub-operations in a state of the run -/

section steps
variable {i : QueueId} {s t : State} (h : Reached i s t) (hq : quiet s) (hr : RingsApart (s.queue i))
  (ha : RingsAccessible s i)
include h hr

theorem reached_disabled : Reached i s (disabled i (s.queue i).usedAddr t) := by
  refine reached_stored (reached_setQueue (q := { t.queue i with notifySuppressed := true }) h
    ⟨h.rings.1, h.rings.2.1, h.rings.2.2.1, h.rings.2.2.2⟩) hr (le_refl _) ?_
  simp only [List.length_cons, List.length_nil]
  omega

theorem reached_enabled : Reached i s (enabled i (s.queue i).usedAddr t) := by
  refine reached_stored (reached_setQueue (q := { t.queue i with notifySuppressed := false }) h
    ⟨h.rings.1, h.rings.2.1, h.rings.2.2.1, h.rings.2.2.2⟩) hr (le_refl _) ?_
  simp only [List.length_cons, List.length_nil]
  omega

theorem reached_posted (hz : 0 < (s.queue i).size.toNat) (head : Half) (n : Word) :
    Reached i s (posted i (s.queue i) head n t) := by
  have a1 := addr_usedId hr hz
  have a2 := addr_usedLen hr hz
  have a3 := addr_usedIdx hr
  have := slot_lt (s.queue i).nextUsed _ hz
  refine reached_stored (reached_stored (reached_stored
    (reached_setQueue (q := { t.queue i with nextUsed := (t.queue i).nextUsed + 1#16 }) h
      ⟨h.rings.1, h.rings.2.1, h.rings.2.2.1, h.rings.2.2.2⟩) hr ?_ ?_) hr ?_ ?_) hr ?_ ?_ <;>
    (try simp only [bytesLE_length]) <;> omega

include hq ha

theorem reached_availPending :
    availPending i t = .ok (availIdx s i != (t.queue i).nextAvail) t := by
  rw [availPending_quiet (h.race.trans hq), availIdx_agree hr h.rings h.agree]
  rw [reached_accessOk h]
  unfold availIdxAddr
  rw [h.rings.2.2.1]
  exact ha.availIdx

omit hr in
theorem reached_notifyDisable : notifyDisable i t = .ok () (disabled i (s.queue i).usedAddr t) := by
  rw [notifyDisable_quiet (h.race.trans hq)]
  · simp only [usedFlagsAddr, h.rings.2.2.2, disabled]
  · rw [reached_accessOk h]
    unfold usedFlagsAddr
    rw [h.rings.2.2.2]
    exact ha.usedFlags

omit hr in
theorem reached_notifyEnable : notifyEnable i t = .ok () (enabled i (s.queue i).usedAddr t) := by
  rw [notifyEnable_quiet (h.race.trans hq)]
  · simp only [usedFlagsAddr, h.rings.2.2.2, enabled]
  · rw [reached_accessOk h]
    unfold usedFlagsAddr
    rw [h.rings.2.2.2]
    exact ha.usedFlags

theorem reached_availPeek (hz : 0 < (s.queue i).size.toNat) (hn : (t.queue i).nextAvail = (s.queue i).nextAvail) :
    availPeek i t = .ok (availHead s i) t := by
  have e : availRingAddr (t.queue i) = availRingAddr (s.queue i) := by
    unfold availRingAddr
    rw [h.rings.2.2.1, hn, h.rings.1]
  rw [availPeek_quiet (h.race.trans hq), availHead_agree hr h.rings h.agree hz hn]
  rw [reached_accessOk h, e]
  exact ha.availRing

/-- The re-check finds nothing where the cursor has met the index. -/
theorem reached_reArm (hn : availIdx s i = (t.queue i).nextAvail) :
    reArm i t = .ok false (enabled i (s.queue i).usedAddr t) := by
  rw [reArm, reached_notifyEnable h hq ha, Res.bind_ok, reached_availPending (reached_enabled h hr) hq hr ha]
  simp [hn, enabled]

/-- An interrupt decision with entries posted. -/
theorem reached_maybeNotify (hn : (t.queue i).nextUsed ≠ (t.queue i).signalledUsed) :
    maybeNotify i t = .ok ()
      (if (availFlags s i).getLsbD 0 then t.setQueue i { t.queue i with signalledUsed := (t.queue i).nextUsed }
       else raiseIrq i (t.setQueue i { t.queue i with signalledUsed := (t.queue i).nextUsed })) := by
  have h' : Reached i s (t.setQueue i { t.queue i with signalledUsed := (t.queue i).nextUsed }) :=
    reached_setQueue h ⟨h.rings.1, h.rings.2.1, h.rings.2.2.1, h.rings.2.2.2⟩
  have ea : availFlagsAddr (t.queue i) = availFlagsAddr (s.queue i) := h.rings.2.2.1
  have ef : le16 (readBytes (t.setQueue i { t.queue i with signalledUsed := (t.queue i).nextUsed }).mem
      (availFlagsAddr (t.queue i)) 2) = availFlags s i := by
    rw [← availFlags_agree hr h.rings h.agree]
    unfold availFlags
    simp
  rw [maybeNotify, if_neg hn,
    memRead16_quiet_ok (h'.race.trans hq) (by rw [reached_accessOk h', ea]; exact ha.availFlags), Res.bind_ok, ef,
    suppressFlag]
  split <;> rfl

omit hr in
/-- Posting an entry. -/
theorem reached_usedPost (hn : (t.queue i).nextUsed = (s.queue i).nextUsed) (head : Half) (n : Word) :
    usedPost i head n t = .ok () (posted i (s.queue i) head n t) := by
  have e1 : usedIdAddr (t.queue i) = usedIdAddr (s.queue i) := by
    unfold usedIdAddr
    rw [h.rings.2.2.2, hn, h.rings.1]
  have e2 : usedLenAddr (t.queue i) = usedLenAddr (s.queue i) := by
    unfold usedLenAddr
    rw [h.rings.2.2.2, hn, h.rings.1]
  have e3 : usedIdxAddr (t.queue i) = usedIdxAddr (s.queue i) := by
    unfold usedIdxAddr
    rw [h.rings.2.2.2]
  rw [usedPost_quiet (h.race.trans hq)]
  · rw [e1, e2, e3]
    rfl
  · rw [reached_accessOk h, e1]
    exact ha.usedId
  · rw [reached_accessOk h, e2]
    exact ha.usedLen
  · rw [reached_accessOk h, e3]
    exact ha.usedIdx

end steps

/-- No interrupt decision without a posted entry. -/
theorem maybeNotify_none {i : QueueId} {t : State} (hn : (t.queue i).nextUsed = (t.queue i).signalledUsed) :
    maybeNotify i t = .ok () t := by
  rw [maybeNotify, if_pos hn]

/-- Raising the interrupt bit, as one update. -/
theorem raiseIrq_eq (i : QueueId) (s : State) :
    raiseIrq i s = { s with
      interruptStatus := s.interruptStatus ||| irqBit s.cfg i
      history := s.history ++ if s.interruptStatus &&& irqBit s.cfg i = 0#32 then [.irqPulse 1] else [] } := by
  unfold raiseIrq irqEdge
  by_cases h : s.interruptStatus &&& irqBit s.cfg i = 0#32
  · simp [h, State.emit]
  · simp [h]

/-- A drain has fuel for three rounds at least. -/
theorem drainFuel_three (s : State) : ∃ f, drainFuel s = f + 3 := ⟨drainFuel s - 3, by unfold drainFuel; omega⟩

end Sys2Proof.Machine
end

