-- ==== Sys2Proof/Tests/Slice0.lean ====
section
/-! SUPPORT. Tests on single steps, and a witness for the hypotheses of each obligation that has some. The expected
values of the vectors and programs are those of spec/95_test_vectors.md, named V… and P… as there; the images are
written out from spec/30_encoding.md R71, R73 and R80. -/

namespace Sys2Proof.Tests

open Sys2Proof Sys2Proof.Machine

/-! ## Well-formedness: one ill-formed term for each check -/

theorem test_wf_refuses_config_read_past_the_window : Instr.wf (.rdConfig 0xF00#12 1) = false := by decide
theorem test_wf_refuses_config_write_past_the_window : Instr.wf (.wrConfig 0xF00#12 1) = false := by decide
theorem test_wf_refuses_invalid_access_in_config_range : Instr.wf (.invalidAccess .read 0x100#12 4) = false := by
  decide
theorem test_wf_refuses_invalid_access_to_a_readable_register :
    Instr.wf (.invalidAccess .read 0x070#12 4) = false := by decide
theorem test_wf_refuses_invalid_access_to_a_writable_register :
    Instr.wf (.invalidAccess .write 0x070#12 4) = false := by decide
theorem test_wf_accepts_the_last_config_offset :
    Instr.wf (.rdConfig 0xEFF#12 1) = true ∧ Instr.wf (.wrConfig 0xEFF#12 1) = true := by decide
theorem test_wf_accepts_the_wrong_direction_and_length :
    Instr.wf (.invalidAccess .write 0x000#12 4) = true ∧ Instr.wf (.invalidAccess .read 0x070#12 2) = true := by decide

/-! ## Decoding: an image for every constructor, written out from R80 (`sel` low byte, high byte, then the data) -/

theorem test_decode_identity :
    decode [0x00#8, 0x00#8, 0#8, 0#8, 0#8, 0#8] = .ok .rdMagic
      ∧ decode [0x04#8, 0x00#8, 0#8, 0#8, 0#8, 0#8] = .ok .rdVersion
      ∧ decode [0x08#8, 0x00#8, 0#8, 0#8, 0#8, 0#8] = .ok .rdDeviceId
      ∧ decode [0x0C#8, 0x00#8, 0#8, 0#8, 0#8, 0#8] = .ok .rdVendorId := ⟨rfl, rfl, rfl, rfl⟩
theorem test_decode_features :
    decode [0x10#8, 0x00#8, 0#8, 0#8, 0#8, 0#8] = .ok .rdHostFeatures
      ∧ decode [0x14#8, 0x10#8, 1#8, 0#8, 0#8, 0#8] = .ok (.wrHostFeaturesSel 1#32)
      ∧ decode [0x20#8, 0x10#8, 0x78#8, 0x56#8, 0x34#8, 0x12#8] = .ok (.wrGuestFeatures 0x12345678#32)
      ∧ decode [0x24#8, 0x10#8, 0xFF#8, 0xFF#8, 0xFF#8, 0xFF#8] = .ok (.wrGuestFeaturesSel 0xFFFFFFFF#32) :=
  ⟨rfl, rfl, rfl, rfl⟩
theorem test_decode_queue_reads :
    decode [0x34#8, 0x00#8, 0#8, 0#8, 0#8, 0#8] = .ok .rdQueueNumMax
      ∧ decode [0x40#8, 0x00#8, 0#8, 0#8, 0#8, 0#8] = .ok .rdQueuePfn := ⟨rfl, rfl⟩
theorem test_decode_queue_writes :
    decode [0x28#8, 0x10#8, 0#8, 0x10#8, 0#8, 0#8] = .ok (.wrGuestPageSize 4096#32)
      ∧ decode [0x30#8, 0x10#8, 1#8, 0#8, 0#8, 0#8] = .ok (.wrQueueSel 1#32)
      ∧ decode [0x38#8, 0x10#8, 0#8, 1#8, 0#8, 0#8] = .ok (.wrQueueNum 256#32)
      ∧ decode [0x3C#8, 0x10#8, 0#8, 0x10#8, 0#8, 0#8] = .ok (.wrQueueAlign 4096#32)
      ∧ decode [0x40#8, 0x10#8, 0x10#8, 0#8, 0#8, 0#8] = .ok (.wrQueuePfn 0x10#32)
      ∧ decode [0x50#8, 0x10#8, 1#8, 0#8, 0#8, 0#8] = .ok (.wrQueueNotify 1#32) := ⟨rfl, rfl, rfl, rfl, rfl, rfl⟩
theorem test_decode_interrupt_status :
    decode [0x60#8, 0x00#8, 0#8, 0#8, 0#8, 0#8] = .ok .rdInterruptStatus
      ∧ decode [0x64#8, 0x10#8, 2#8, 0#8, 0#8, 0#8] = .ok (.wrInterruptAck 2#32)
      ∧ decode [0x70#8, 0x00#8, 0#8, 0#8, 0#8, 0#8] = .ok .rdStatus
      ∧ decode [0x70#8, 0x10#8, 0x0F#8, 0#8, 0#8, 0#8] = .ok (.wrStatus 0x0F#32) := ⟨rfl, rfl, rfl, rfl⟩
theorem test_decode_config :
    decode [0x00#8, 0x01#8, 0#8] = .ok (.rdConfig 0#12 1)
      ∧ decode [0xFF#8, 0x0F#8, 0#8, 0#8] = .ok (.rdConfig 0xEFF#12 2)
      ∧ decode [0x06#8, 0x11#8, 0#8, 0#8] = .ok (.wrConfig 6#12 2)
      ∧ decode [0x00#8, 0x18#8, 0#8, 0#8, 0#8, 0#8] = .ok (.wrConfig 0x700#12 4) := ⟨rfl, rfl, rfl, rfl⟩
theorem test_decode_invalid_access :
    decode [0x00#8, 0x00#8, 0#8, 0#8] = .ok (.invalidAccess .read 0x000#12 2)
      ∧ decode [0x02#8, 0x00#8, 0#8, 0#8, 0#8, 0#8] = .ok (.invalidAccess .read 0x002#12 4)
      ∧ decode [0x00#8, 0x10#8, 0#8, 0#8, 0#8, 0#8] = .ok (.invalidAccess .write 0x000#12 4)
      ∧ decode [0x00#8, 0x00#8] = .ok (.invalidAccess .read 0x000#12 0) := ⟨rfl, rfl, rfl, rfl⟩
theorem test_decode_events :
    decode [0x01#8, 0x20#8] = .ok .evtHostRxReady ∧ decode [0x02#8, 0x20#8] = .ok .evtPowerOn := ⟨rfl, rfl⟩
theorem test_decode_refuses_what_is_no_operation :
    decode [0x03#8, 0x20#8] = .error (.unknownEvent 3#12) ∧ decode [0x01#8, 0x30#8] = .error .reservedBits
      ∧ decode [0x00#8, 0x40#8] = .error .reservedBits ∧ decode [0x01#8, 0x20#8, 0#8] = .error .eventBuffer
      ∧ decode [0x00#8] = .error .noSelector := ⟨rfl, rfl, rfl, rfl, rfl⟩
theorem test_decode_table_word :
    decodeTableWord 14 0x1070 = some (.wrStatus 0#32) ∧ decodeTableWord 14 0x0100 = some (.rdConfig 0#12 4)
      ∧ decodeTableWord 14 0x2001 = some .evtHostRxReady := ⟨rfl, rfl, rfl⟩

/-! ## Small states -/

/-- The next state of an outcome. -/
def answer : Host.Outcome State Fault Refusal → Option State
  | .next t => some t
  | .fault _ => none
  | .refused _ => none

theorem next_of_answer {o : Host.Outcome State Fault Refusal} (h : (answer o).isSome = true) :
    ∃ t, o = .next t := by
  cases o with
  | next t => exact ⟨t, rfl⟩
  | fault f => simp [answer] at h
  | refused r => simp [answer] at h

/-- A next state with a property, found by evaluation. -/
theorem next_with {o : Host.Outcome State Fault Refusal} {p : State → Prop} [DecidablePred p]
    (h : (answer o).any (fun t => decide (p t)) = true) : ∃ t, o = .next t ∧ p t := by
  cases o with
  | next t => exact ⟨t, rfl, by simpa [answer] using h⟩
  | fault f => simp [answer] at h
  | refused r => simp [answer] at h

/-- `s` after a store of the guest. -/
def put (a : Nat) (bs : List Byte) (s : State) : State := { s with mem := writeBytes s.mem (BitVec.ofNat 64 a) bs }

/-- A bank of size 256 with its table at `base`, as P1 places it. -/
def bank (base : Nat) : Queue :=
  { Queue.zero with
    size := 256#16
    descAddr := BitVec.ofNat 64 base
    availAddr := BitVec.ofNat 64 (base + 0x1000)
    usedAddr := BitVec.ofNat 64 (base + 0x2000) }

/-- The state S1 that program P1 ends in (without its output and its counted error), its operations counted as one. -/
def s1 : State :=
  { State.reset with
    opsBegun := 1
    status := 0x0F#8
    operational := true
    hostFeaturesSel := 1#32
    guestFeaturesSel := 1#32
    driverFeatures := 0x100000000#64
    pageSize := 4096#32
    queueSel := 1#32
    rxq := bank 0x10000
    txq := bank 0x20000 }

/-- The bytes of a descriptor (R76). -/
def descBytes (addr len flags next : Nat) : List Byte :=
  bytesLE 8 addr ++ bytesLE 4 len ++ bytesLE 2 flags ++ bytesLE 2 next

/-- Before the notify of P2: a TX chain of 12 zero bytes and 6 bytes of payload. -/
def p2 : State :=
  put 0x21002 [1#8, 0#8] <| put 0x20010 (descBytes 0x41000 6 0 0) <| put 0x20000 (descBytes 0x40000 12 1 1) <|
    put 0x41000 [0xAA#8, 0xBB#8, 0xCC#8, 0xDD#8, 0xEE#8, 0xFF#8] s1

/-- The chain of P2. -/
def p2Chain : List Desc := [⟨0x40000#64, 12#32, 1#16, 1#16⟩, ⟨0x41000#64, 6#32, 0#16, 0#16⟩]

/-- Before the notify of P7: a TX chain whose buffer is not mapped. -/
def p7 : State := put 0x21002 [1#8, 0#8] <| put 0x20000 (descBytes 0x09000000 64 0 0) s1

/-- One TX entry whose head lies outside the table (V71). -/
def badTx : State := put 0x21002 [1#8, 0#8] <| put 0x21004 [0#8, 1#8] s1

/-- One RX chain of capacity 40 (P3 with a smaller buffer). -/
def rxRing : State := put 0x11002 [1#8, 0#8] <| put 0x10000 (descBytes 0x50000 40 2 0) s1

/-- The chain of `rxRing`. -/
def rxChain40 : List Desc := [⟨0x50000#64, 40#32, 2#16, 0#16⟩]

/-- `fr(n, b)` (spec/95 section 2.7). -/
def fr (n b : Nat) : List Byte := (List.range n).map fun k => BitVec.ofNat 8 (b + k)

/-- `rxRing` with what waits in the host port. -/
def rxWith (items : List RxItem) : State := { rxRing with rxPort := items }

/-! ## Registers (vectors of spec/95 sections 2.1 to 2.5) -/

theorem test_v13_host_features_low :
    exec .rdHostFeatures State.reset
      = .next { State.reset with busOutcome := some .ok, busBuffer := [0x83#8, 0x5D#8, 0#8, 0#8] } := rfl
theorem test_v14_host_features_high :
    exec .rdHostFeatures { State.reset with hostFeaturesSel := 1#32 }
      = .next { State.reset with
          hostFeaturesSel := 1#32, busOutcome := some .ok, busBuffer := [1#8, 0#8, 0#8, 0#8] } := rfl
theorem test_v18_a_half_is_replaced :
    exec (.wrGuestFeatures 0#32) { State.reset with driverFeatures := 0x100000003#64 }
      = .next { State.reset with driverFeatures := 0x100000000#64, busOutcome := some .ok } := rfl
theorem test_v28_an_illegal_size :
    exec (.wrQueueNum 0x00010100#32) { State.reset with rxq := { Queue.zero with size := 8#16 } }
      = .next (afterRegisterError { State.reset with rxq := { Queue.zero with size := 8#16 } } .write 0x038#12 4) :=
  rfl
theorem test_v32_ring_addresses :
    exec (.wrQueuePfn 0x20#32)
      { State.reset with pageSize := 4096#32, queueSel := 1#32, txq := { Queue.zero with size := 8#16 } }
      = .next { State.reset with
          pageSize := 4096#32, queueSel := 1#32, busOutcome := some .ok
          txq := { Queue.zero with
            size := 8#16, descAddr := 0x20000#64, availAddr := 0x20080#64, usedAddr := 0x21000#64 } } := rfl
theorem test_v34_an_odd_page_size :
    exec (.wrQueuePfn 3#32) { State.reset with pageSize := 1000#32, rxq := { Queue.zero with size := 4#16 } }
      = .next { State.reset with
          pageSize := 1000#32, busOutcome := some .ok
          rxq := { Queue.zero with
            size := 4#16, descAddr := 0xBB8#64, availAddr := 0xBF8#64, usedAddr := 0x1000#64 } } := rfl
theorem test_v35_the_other_order :
    exec (.wrQueueNum 256#32)
      { State.reset with
        pageSize := 4096#32
        rxq := { Queue.zero with descAddr := 0x10000#64, availAddr := 0x10000#64, usedAddr := 0x11000#64 } }
      = .next { State.reset with pageSize := 4096#32, busOutcome := some .ok, rxq := bank 0x10000 } := rfl
theorem test_v39_the_largest_address :
    exec (.wrQueuePfn 0xFFFFFFFF#32)
      { State.reset with pageSize := 0xFFFFFFFF#32, rxq := { Queue.zero with size := 256#16 } }
      = .next { State.reset with
          pageSize := 0xFFFFFFFF#32, busOutcome := some .ok
          rxq := { Queue.zero with
            size := 256#16, descAddr := 0xFFFFFFFE00000001#64, availAddr := 0xFFFFFFFE00001001#64
            usedAddr := 0xFFFFFFFE00002000#64 } } := rfl
theorem test_v53_acknowledge_is_precise :
    exec (.wrInterruptAck 1#32) { State.reset with interruptStatus := 3#32 }
      = .next { State.reset with interruptStatus := 2#32, busOutcome := some .ok } := rfl
theorem test_v58_no_progression_check :
    exec (.wrStatus 4#32) State.reset
      = .next { State.reset with
          status := 4#8, operational := true, history := [.activateHook 0#64], busOutcome := some .ok } := rfl
theorem test_v59_no_second_hook :
    exec (.wrStatus 0x0F#32) { s1 with status := 0x0B#8 } = .next { s1 with busOutcome := some .ok } := rfl
theorem test_v60_the_configuration_bytes :
    exec (.rdConfig 0#12 17) State.reset
      = .next { State.reset with
          busOutcome := some .ok
          busBuffer := [0x02#8, 0#8, 0#8, 0#8, 0#8, 0x01#8, 0x01#8, 0#8, 0x01#8, 0#8, 0xDC#8, 0x05#8, 0xE8#8, 0x03#8,
            0#8, 0#8, 0x01#8] } := rfl
theorem test_v122_power_on : exec .evtPowerOn s1 = .next { State.reset with opsBegun := 1 } := rfl

/-! ## The engine (vectors of spec/95 sections 2.6 to 2.8, programs P2 to P8) -/

/-- The state with Q8 as queue 1 and some bytes of memory. -/
def q8 (m : List (Nat × List Byte)) : State :=
  m.foldl (fun s p => put p.1 p.2 s)
    { State.reset with
      txq := { Queue.zero with
        size := 8#16, descAddr := 0x20000#64, availAddr := 0x20080#64, usedAddr := 0x21000#64 } }

/-- The length of an accepted chain, none for MalformedChain. -/
def walkLength (s : State) (head : Half) : Option Nat :=
  match walkChain .tx head s with
  | .ok l _ => l.map List.length
  | .fault _ _ _ => none

theorem test_v72_a_chain_through_itself : walkLength (q8 [(0x20000, descBytes 0x40000 12 1 0)]) 0#16 = none := by
  decide +kernel
theorem test_v73_the_header_must_fit :
    walkLength (q8 [(0x20000, descBytes 0x40000 11 0 0)]) 0#16 = none
      ∧ walkLength (q8 [(0x20000, descBytes 0x40000 12 0 0xFFFF)]) 0#16 = some 1 := by decide +kernel
theorem test_v75_a_next_outside_the_table :
    walkLength (q8 [(0x20000, descBytes 0x40000 12 1 8)]) 0#16 = none := by decide +kernel
theorem test_v78_other_flag_bits_do_not_matter :
    walkLength (q8 [(0x20000, descBytes 0x40000 12 0xFFFD 1), (0x20010, descBytes 0x41000 6 0 0)]) 0#16 = some 2 := by
  decide +kernel
theorem test_v84_posting_wraps :
    usedPost .tx 5#16 18#32 { q8 [] with txq := { (q8 []).txq with nextUsed := 0xFFFF#16 } }
      = .ok () { q8 [] with
          txq := { (q8 []).txq with nextUsed := 0#16 }
          mem := [(0x2103C, 5#8), (0x21040, 18#8)] } := by decide +kernel
theorem test_v96_a_fault_between_two_buffers :
    rxTransfer [⟨0x50000#64, 12#32, 1#16, 1#16⟩, ⟨0x09000000#64, 100#32, 0#16, 0#16⟩] (fr 64 1) s1
      = .fault 0x09000000 52 (put 0x50000 (fr 12 1) s1) := by decide +kernel
theorem test_v116_pulse_after_a_wrap :
    maybeNotify .tx { s1 with txq := { s1.txq with signalledUsed := 0xFFFF#16 } }
      = .ok () { s1 with interruptStatus := 1#32, history := [.irqPulse 1] } := by decide +kernel

theorem test_p2_transmit :
    (answer (exec (.wrQueueNotify 1#32) p2)).map (fun t => (t.history, t.txq.nextUsed, t.interruptStatus,
      readBytes t.mem 0x22000#64 12))
      = some ([.hostTxPush [0#8, 0#8, 0#8, 0#8, 0#8, 0#8, 0#8, 0#8, 0#8, 0#8, 0#8, 0#8,
          0xAA#8, 0xBB#8, 0xCC#8, 0xDD#8, 0xEE#8, 0xFF#8], .irqPulse 1], 1#16, 1#32,
          [0#8, 0#8, 1#8, 0#8, 0#8, 0#8, 0#8, 0#8, 1#8, 0#8, 0#8, 0#8]) := by decide +kernel

/-- The guest publishes a second entry between `NotifyEnable` and the re-check (P4): the turns are those before the
accesses of the drain, of which the last here is the read of the re-check. -/
def p4 : State :=
  { p2 with
    race := List.replicate 34 { stores := [], pick := 0 } ++
      [{ stores := [⟨0x20030#64, descBytes 0x40000 12 0 0⟩, ⟨0x21006#64, [3#8, 0#8]⟩, ⟨0x21002#64, [2#8, 0#8]⟩]
         pick := 0 }] }

theorem test_p4_no_lost_wakeup :
    (answer (exec (.wrQueueNotify 1#32) p4)).map (fun t => (t.race, t.history.length, t.txq.nextAvail, t.txq.nextUsed,
      readBytes t.mem 0x2200C#64 4))
      = some ([], 3, 2#16, 2#16, [3#8, 0#8, 0#8, 0#8]) := by decide +kernel

/-- A guest that changes a descriptor between two of its four field reads (R52): the length is read last. -/
theorem test_a_descriptor_is_four_reads :
    descRead .tx 0#16
        { p2 with
          race := [⟨[], 0⟩, ⟨[], 1⟩, ⟨[], 1⟩, ⟨[⟨0x20008#64, [0x63#8]⟩, ⟨0x2000E#64, [0x63#8]⟩], 0⟩] }
      = .ok ⟨0x40000#64, 0x63#32, 1#16, 1#16⟩ (put 0x2000E [0x63#8] (put 0x20008 [0x63#8] p2)) := by decide +kernel

theorem test_p3_receive :
    (answer (exec .evtHostRxReady (rxWith [.frame (fr 40 0)]))).any (fun t =>
      t.rxPort == [] && t.rxq.nextUsed == 1#16 && t.interruptStatus == 1#32 && t.history == [.irqPulse 1]
        && readBytes t.mem 0x50000#64 40 == fr 40 0
        && readBytes t.mem 0x12000#64 12 == [0#8, 0#8, 1#8, 0#8, 0#8, 0#8, 0#8, 0#8, 40#8, 0#8, 0#8, 0#8]) = true := by
  decide +kernel

theorem test_p7_fault :
    answer (exec (.wrQueueNotify 1#32) p7)
      = some { put 0x22000 [1#8, 0#8] p7 with
          status := 0x8F#8, operational := false, failedByDevice := true, busOutcome := some .ok
          txq := { p7.txq with nextAvail := 1#16, notifySuppressed := true }
          diag := { Diag.zero with guestMemoryFaults := 1 }
          errorLog := [.guestMemoryFault 0x09000000 64] } := by decide +kernel

/-- After the fault of P7 the driver writes 0x0B and then 0x0F, without a reset: the block stays down (R237, R243). A
write of 0 lets it activate again. -/
theorem test_only_a_reset_revives_after_a_fault :
    ((answer (exec (.wrStatus 0x0B#32) { p7 with status := 0x8F#8, operational := false, failedByDevice := true })).bind
        (fun t => answer (exec (.wrStatus 0x0F#32) t))).map (fun t => (t.status, t.operational, t.history))
      = some (0x0F#8, false, [])
      ∧ ((answer (exec (.wrStatus 0#32)
            { p7 with status := 0x8F#8, operational := false, failedByDevice := true })).bind
        (fun t => answer (exec (.wrStatus 0x0F#32) t))).map (fun t => (t.status, t.operational, t.history))
      = some (0x0F#8, true, [.resetHook, .activateHook 0#64]) := by decide +kernel

/-- A host that refuses the frame of P2: counted, and the used entry is posted all the same (R202, R234). -/
theorem test_a_refused_frame_completes_its_chain :
    (answer (exec (.wrQueueNotify 1#32) { p2 with txAnswers := [.error] })).map (fun t => (t.diag.hostIoErrors,
      t.txq.nextUsed, readBytes t.mem 0x22000#64 4)) = some (1, 1#16, [0#8, 0#8, 1#8, 0#8]) := by decide +kernel

/-- A malformed RX chain before a well-formed one: the frame goes into the second (R204, R232). -/
theorem test_the_frame_goes_into_the_next_well_formed_chain :
    (answer (exec .evtHostRxReady
        { put 0x11002 [2#8, 0#8] (put 0x11004 [0#8, 1#8, 0#8, 0#8] rxRing) with rxPort := [.frame (fr 20 0)] })).any
      (fun t => t.rxPort == [] && t.diag.malformedChains == 1 && t.rxq.nextAvail == 2#16 && t.rxq.nextUsed == 1#16
        && readBytes t.mem 0x50000#64 20 == fr 20 0) = true := by decide +kernel

theorem test_p8_truncation_and_backpressure :
    (answer (exec (.wrQueueNotify 0#32) (rxWith [.frame (fr 64 0), .frame (fr 20 0x80)]))).any (fun t =>
      t.rxPort == [.frame (fr 20 0x80)] && t.diag.oversizedFrames == 1 && t.rxq.nextAvail == 1#16
        && t.rxq.nextUsed == 1#16 && readBytes t.mem 0x50000#64 40 == fr 40 0
        && readBytes t.mem 0x50028#64 1 == [0#8] && readBytes t.mem 0x12008#64 2 == [40#8, 0#8]) = true := by
  decide +kernel

/-! ## The step and the host's two functions -/

theorem test_reset_memory_is_canonical : State.reset.mem.wf = true := rfl
theorem test_idle : step State.reset = .next State.reset := rfl
theorem test_unknown_event_is_refused :
    step { State.reset with inputs := [.op [0x03#8, 0x20#8]] } = .refused (.undecodable (.unknownEvent 3#12)) := rfl
theorem test_power_on_comes_first_or_not_at_all :
    step { s1 with opsBegun := 0, inputs := [.op [0x02#8, 0x20#8]] } = .next { State.reset with opsBegun := 1 }
      ∧ step { s1 with inputs := [.op [0x02#8, 0x20#8]] } = .refused .powerOnNotFirst := ⟨rfl, rfl⟩
theorem test_fetch_word :
    step (State.reset.withFetchWord 14 0x0000)
      = .next { State.reset with
          opsBegun := 1, busOutcome := some .ok, busBuffer := [0x76#8, 0x69#8, 0x72#8, 0x74#8] } := rfl

/-! ## Witnesses: concrete inputs that meet the hypotheses of each obligation that has some, for each of its clauses -/

theorem witness_DecodeInvertsEncode :
    Instr.wf (.rdConfig 0xEFF#12 2) = true ∧ Instr.wf (.invalidAccess .read 0x0FF#12 4) = true
      ∧ Instr.wf (.wrStatus 0xFFFFFFFF#32) = true := by decide
theorem witness_DecodedOperationsAreWellFormed : decode [0x02#8, 0x00#8] = .ok (.invalidAccess .read 2#12 0) := rfl
theorem witness_EveryTransactionDecodesAndNoUnknownEventDoes :
    (0x1F#8 : Byte).toNat < 0x20 ∧ (0#12 : Offset) ≠ 1#12 ∧ (3#12 : Offset) ≠ 2#12 := by decide
theorem witness_StepRunsTheDecodedOperation :
    (s1.withFetchWord 14 0x1050).inputs = .op [0x50#8, 0x10#8, 0#8, 0#8, 0#8, 0#8] :: []
      ∧ decode [0x50#8, 0x10#8, 0#8, 0#8, 0#8, 0#8] = .ok (.wrQueueNotify 0#32) := ⟨rfl, rfl⟩

/-- A machine whose longest frame has two bytes, with the given inputs. -/
def smallFrames (inputs : List Input) : State :=
  { State.reset with cfg := { Config.cfg0 with maxFrameLen := 2 }, inputs := inputs }

theorem witness_StepTakesTheOtherInputs :
    (smallFrames []).inputs = []
      ∧ (smallFrames [.guestStore ⟨5#64, [1#8]⟩]).inputs = .guestStore ⟨5#64, [1#8]⟩ :: []
      ∧ ((smallFrames [.hostFrame (.frame [1#8, 2#8])]).inputs = .hostFrame (.frame [1#8, 2#8]) :: []
        ∧ [1#8, 2#8].length ≤ (smallFrames []).cfg.maxFrameLen)
      ∧ (smallFrames [.hostFrame .error]).inputs = .hostFrame .error :: []
      ∧ ((smallFrames [.hostFrame (.frame [1#8, 2#8, 3#8])]).inputs = .hostFrame (.frame [1#8, 2#8, 3#8]) :: []
        ∧ (smallFrames []).cfg.maxFrameLen < [1#8, 2#8, 3#8].length)
      ∧ (smallFrames [.op []]).inputs = .op [] :: [] ∧ decode [] = .error .noSelector :=
  ⟨rfl, rfl, ⟨rfl, by decide⟩, rfl, ⟨rfl, by decide⟩, rfl, rfl⟩

theorem witness_GuestFeaturesReplacesTheSelectedHalf :
    s1.guestFeaturesSel = 1#32 ∧ State.reset.guestFeaturesSel = 0#32
      ∧ ({ s1 with guestFeaturesSel := 2#32 }).guestFeaturesSel ≠ 0#32
      ∧ ({ s1 with guestFeaturesSel := 2#32 }).guestFeaturesSel ≠ 1#32 := by decide
theorem witness_RepeatedWritesAreIdempotent :
    (answer (exec (.wrQueueNum 1#32) s1)).map (·.busOutcome) = some (some .ok)
      ∧ (answer (exec (.wrQueueNum 256#32) s1)).map (·.busOutcome) = some (some .ok)
      ∧ (answer (exec (.wrQueuePfn 7#32) s1)).map (·.busOutcome) = some (some .ok)
      ∧ (answer (exec (.wrInterruptAck 1#32) s1)).map (·.busOutcome) = some (some .ok) := by decide
theorem witness_AlignUpIsTheNextMultiple : 0 < 1 := by decide
theorem witness_QueueNumTakesTheNineLegalSizes :
    (s1.cfg.wf = true ∧ s1.queueSel = queueIndex .tx ∧ 1#32 ∈ nineSizes ∧ 256#32 ∈ nineSizes
        ∧ (256#32 : Word).toNat ≤ s1.cfg.queueNumMax.toNat ∧ (s1.queue .tx).descAddr ≠ 0#64)
      ∧ (State.reset.queueSel = queueIndex .rx ∧ (State.reset.queue .rx).descAddr = 0#64)
      ∧ 2 ≤ ({ s1 with queueSel := 2#32 }).queueSel.toNat ∧ 0#32 ∉ nineSizes ∧ 257#32 ∉ nineSizes
      ∧ (({ Config.cfg0 with queueNumMax := 128#32 } : Config).wf = true
        ∧ ({ Config.cfg0 with queueNumMax := 128#32 } : Config).queueNumMax.toNat < (256#32 : Word).toNat) := by decide
theorem witness_QueuePfnPlacesTheRings :
    (s1.cfg.wf = true ∧ s1.queueSel = queueIndex .tx ∧ (0#32 : Word).toNat * s1.pageSize.toNat = 0)
      ∧ ((1#32 : Word).toNat * s1.pageSize.toNat ≠ 0
        ∧ (0x1000#64 : Dword).toNat = (1#32 : Word).toNat * s1.pageSize.toNat)
      ∧ (0xFFFFFFFE00000001#64 : Dword).toNat
          = (0xFFFFFFFF#32 : Word).toNat * ({ s1 with pageSize := 0xFFFFFFFF#32 }).pageSize.toNat
      ∧ 2 ≤ ({ s1 with queueSel := 2#32 }).queueSel.toNat := by decide
theorem witness_QueueNotifyIsRejectedUnlessReady :
    s1.cfg.wf = true ∧ 2 ≤ (2#32 : Word).toNat ∧ State.reset.operational = false
      ∧ (∃ i, 1#32 = queueIndex i
        ∧ (({ s1 with txq := { s1.txq with size := 0#16 } }).queue i).size = 0#16)
      ∧ ∃ i, 0#32 = queueIndex i
        ∧ (({ s1 with rxq := { s1.rxq with descAddr := 0#64 } }).queue i).descAddr = 0#64 :=
  ⟨by decide, by decide, rfl, ⟨.tx, by decide⟩, ⟨.rx, by decide⟩⟩
theorem witness_StatusWriteOfZeroResets : (0#32 : Word).toNat % 256 = 0 ∧ (0xFFFFFF00#32 : Word).toNat % 256 = 0 := by
  decide
theorem witness_StatusWriteOfFailedResetsAndKeepsTheByte :
    (0x80#32 : Word).getLsbD 7 = true ∧ (0xFFFFFFFF#32 : Word).getLsbD 7 = true := by decide
theorem witness_StatusWriteOfDriverOkActivates :
    (4#32 : Word).getLsbD 7 = false ∧ (4#32 : Word).getLsbD 2 = true ∧ State.reset.status.getLsbD 2 = false
      ∧ State.reset.operational = false ∧ State.reset.failedByDevice = false := by decide
theorem witness_StatusWriteOfAnyOtherByteStores :
    ((3#32 : Word).toNat % 256 ≠ 0 ∧ (3#32 : Word).getLsbD 7 = false ∧ (3#32 : Word).getLsbD 2 = false)
      ∧ ((4#32 : Word).toNat % 256 ≠ 0 ∧ s1.status.getLsbD 2 = true)
      ∧ ({ s1 with status := 0x0B#8 }).operational = true
      ∧ ({ s1 with status := 0x0B#8, operational := false, failedByDevice := true }).failedByDevice = true := by decide

theorem witness_LifecycleTransitions :
    (State.reset.operational = false ∧ (answer (exec (.wrStatus 4#32) State.reset)).map (·.operational) = some true)
      ∧ s1.operational = true
      ∧ (answer (exec (.wrStatus 0#32) s1)).map (·.operational) = some false
      ∧ (answer (exec (.wrStatus 0x80#32) s1)).map (·.operational) = some false
      ∧ (answer (exec (.wrQueueNotify 1#32) p7)).map (·.operational) = some false
      ∧ (answer (exec .evtPowerOn s1)).map (·.operational) = some false
      ∧ (answer (exec (.wrStatus 0x0B#32)
          { s1 with status := 0x8F#8, operational := false, failedByDevice := true })).map (·.failedByDevice)
            = some true := by decide +kernel

/-- S1 with the interrupt bit set. -/
def s1Irq : State := { s1 with interruptStatus := 1#32 }

theorem witness_InterruptBitsAreSticky :
    s1Irq.interruptStatus.getLsbD 0 = true
      ∧ (answer (exec (.wrInterruptAck 1#32) s1Irq)).map (·.interruptStatus.getLsbD 0) = some false
      ∧ (answer (exec (.wrStatus 0#32) s1Irq)).map (·.interruptStatus.getLsbD 0) = some false
      ∧ (answer (exec (.wrStatus 0x80#32) s1Irq)).map (·.interruptStatus.getLsbD 0) = some false
      ∧ (answer (exec .evtPowerOn s1Irq)).map (·.interruptStatus.getLsbD 0) = some false := by decide

theorem witness_ConfigReadStaysInsideTheExtent :
    0x100 ≤ (0x100#12 : Offset).toNat ∧ 0x100 ≤ (0xFFF#12 : Offset).toNat ∧ s1.cfg.wf = true
      ∧ (0 < 17 ∧ (0#12 : Offset).toNat + 17 ≤ 17) ∧ (0 < 1 ∧ (16#12 : Offset).toNat + 1 ≤ 17)
      ∧ 17 < (17#12 : Offset).toNat + 1 ∧ 17 < (0#12 : Offset).toNat + 18 := by decide

/-- S1 keeps the invariant. -/
theorem test_s1_inv : s1.Inv where
  parameters := by decide
  memory := rfl
  rxSize := by decide
  txSize := by decide
  rxRings := by unfold ringsPlaced; decide
  txRings := by unfold ringsPlaced; decide
  config := rfl
  irqBits := by decide
  failedStops := by decide
  operationalStatus := by decide
  faultStops := by decide
  fresh := fun h => absurd h (by decide)
  frames := by simp [s1, State.reset, State.resetWith]
  counters := rfl

theorem witness_ConfigReadReturnsTheConstructedLayout : s1.Inv := test_s1_inv
theorem witness_ConfigWriteIsRejected :
    0x100 ≤ (0x100#12 : Offset).toNat ∧ 0x100 ≤ (0xFFF#12 : Offset).toNat := by decide
theorem witness_InvalidAccessIsARegisterError :
    ((0x0FF#12 : Offset).toNat < 0x100
        ∧ (0x0FF#12 : Offset).toNat ∉ [0x00, 0x04, 0x08, 0x0C, 0x10, 0x34, 0x40, 0x60, 0x70])
      ∧ ((0x000#12 : Offset).toNat < 0x100 ∧ ([] : List Byte).length ≠ 4)
      ∧ (0x000#12 : Offset).toNat ∉ [0x14, 0x20, 0x24, 0x28, 0x30, 0x38, 0x3C, 0x40, 0x50, 0x64, 0x70]
      ∧ ((0x070#12 : Offset).toNat < 0x100 ∧ [0#8, 0#8, 0#8, 0#8, 0#8].length ≠ 4) := by decide
theorem witness_PowerOnSetsEveryField :
    (State.reset.opsBegun ≤ 1 ∧ Config.cfg0.wf = true ∧ Config.cfg0.extraFeatures = 0#64)
      ∧ 1 < ({ s1 with opsBegun := 2 }).opsBegun
      ∧ ({ Config.cfg0 with netHdrLen := 11 } : Config).wf = false
      ∧ ({ Config.cfg0 with extraFeatures := 0x20#64 } : Config).wf = true
      ∧ ({ Config.cfg0 with extraFeatures := 0x20#64 } : Config).extraFeatures ≠ 0#64 := by decide

/-! ### Guest memory -/

theorem witness_AccessesSucceedWholeOrFault :
    2 ^ 64 < (0xFFFFFFFFFFFFFFFF#64 : Dword).toNat + 2
      ∧ (¬ ∃ r ∈ s1.cfg.regions, r.base ≤ (0x07FFFFFF#64 : Dword).toNat
          ∧ (0x07FFFFFF#64 : Dword).toNat + 2 ≤ r.base + r.size)
      ∧ ((0x07FFFFFF#64 : Dword).toNat + 1 ≤ 2 ^ 64
        ∧ ∃ r ∈ s1.cfg.regions, r.base ≤ (0x07FFFFFF#64 : Dword).toNat
          ∧ (0x07FFFFFF#64 : Dword).toNat + 1 ≤ r.base + r.size)
      ∧ [1#8].length = 1 ∧ [1#8, 2#8].length = 2 := by decide

/-- S1 with turns in which the guest does nothing but order the pieces. -/
def s1Idle : State := { s1 with race := [⟨[], 3⟩, ⟨[], 7⟩, ⟨[], 1⟩] }

theorem witness_TornAccessesToStillMemoryAreWhole :
    (∀ turn ∈ s1Idle.race, turn.stores = []) ∧ accessOk s1Idle 0x07FFFFF0#64 16 = true ∧ s1Idle.mem.wf = true
      ∧ [1#8, 2#8] ≠ [] ∧ accessOk s1Idle 0x07FFFFFE#64 [1#8, 2#8].length = true := by decide

theorem witness_DescriptorsAreReadFromTheirSlots :
    quiet s1 ∧ 0x20FF0#64 = (s1.queue .tx).descAddr + BitVec.ofNat 64 (16 * (255#16 : Half).toNat)
      ∧ accessOk s1 0x20FF0#64 16 = true
      ∧ accessOk { s1 with txq := { s1.txq with descAddr := 0x09000000#64 } } 0x09000000#64 16 = false :=
  ⟨rfl, by decide⟩

/-! ### Rings that lie apart, all accessible -/

theorem s1_ringsApart (i : QueueId) : RingsApart (s1.queue i) := by
  cases i <;> exact ⟨by decide, by decide, by decide⟩

theorem s1_ringsAccessible (i : QueueId) : RingsAccessible s1 i := by
  cases i <;> exact ⟨by decide, by decide, by decide, by decide, by decide, by decide, by decide⟩

/-- What makes the rings of S1 accessible does not depend on memory or the host ports. -/
theorem ringsAccessible_of_s1 {s : State} (i : QueueId) (hc : s.cfg = s1.cfg) (hq : s.queue i = s1.queue i) :
    RingsAccessible s i := by
  have h := s1_ringsAccessible i
  constructor <;> rw [hq, accessOk_cfg hc]
  · exact h.availFlags
  · exact h.availIdx
  · exact h.availRing
  · exact h.usedFlags
  · exact h.usedIdx
  · exact h.usedId
  · exact h.usedLen

theorem tableAccessible_of_s1 {s : State} (i : QueueId) (hc : s.cfg = s1.cfg) (hq : s.queue i = s1.queue i)
    (k : Half) (hk : k.toNat < (s.queue i).size.toNat) : accessOk s (descEntryAddr (s.queue i) k) 16 = true := by
  rw [hq] at hk ⊢
  rw [accessOk_cfg hc]
  have hd := addr_desc (s1_ringsApart i) k hk
  have hs : (s1.queue i).size.toNat = 256 := by cases i <;> rfl
  have hb : (s1.queue i).descAddr.toNat ≤ 0x20000 := by cases i <;> decide
  have hr : s1.cfg.regions = [⟨0, 0x08000000⟩] := rfl
  simp only [accessOk, mapped, hr, List.any_cons, List.any_nil, Bool.or_false, Bool.and_eq_true, decide_eq_true_eq]
  omega

theorem witness_WalkChainAcceptsExactlyTheWellFormedChains :
    (quiet p2 ∧ ∀ k : Half, k.toNat < (p2.queue .tx).size.toNat →
      accessOk p2 (descEntryAddr (p2.queue .tx) k) 16 = true)
      ∧ WellFormedChain p2 .tx 0#16 p2Chain ∧ ¬ ∃ chain, WellFormedChain p2 .tx 256#16 chain := by
  refine ⟨⟨rfl, tableAccessible_of_s1 .tx rfl rfl⟩, ⟨by decide, ?_, by decide, ?_⟩, fun ⟨_, h⟩ => ?_⟩
  · exact ⟨by decide +kernel, by decide, by decide, by decide +kernel, by decide⟩
  · intro d hd
    simp only [p2Chain, List.head?_cons, Option.some.injEq] at hd
    rw [← hd]
    decide
  · exact absurd h.inTable (by decide)

theorem witness_WalkedChainsAreBounded : walkChain .tx 0#16 p2 = .ok (some p2Chain) p2 := by decide +kernel
theorem witness_AvailableRingIsReadAtTheCursor :
    quiet p2 ∧ accessOk p2 ((p2.queue .tx).availAddr + 2#64) 2 = true
      ∧ 0x21004#64 = (p2.queue .tx).availAddr
          + BitVec.ofNat 64 (4 + 2 * ((p2.queue .tx).nextAvail.toNat % (p2.queue .tx).size.toNat))
      ∧ accessOk p2 0x21004#64 2 = true := ⟨rfl, by decide⟩
theorem witness_NotificationFlagIsMirrored : quiet s1 ∧ accessOk s1 (s1.queue .rx).usedAddr 2 = true :=
  ⟨rfl, by decide⟩
theorem witness_UsedPostPublishesOneEntry :
    quiet s1 ∧ s1.mem.wf = true ∧ RingsAccessible s1 .tx ∧ RingsApart (s1.queue .tx)
      ∧ 0 = (s1.queue .tx).nextUsed.toNat % (s1.queue .tx).size.toNat ∧ 0 < (s1.queue .tx).size.toNat :=
  ⟨rfl, rfl, s1_ringsAccessible .tx, s1_ringsApart .tx, by decide, by decide⟩

/-- S1 with one used entry not signalled yet. -/
def s1Owes : State := { s1 with txq := { s1.txq with nextUsed := 1#16 } }

theorem witness_MaybeNotifyPulsesOnTheEdge :
    quiet s1Owes ∧ (s1.queue .tx).nextUsed = (s1.queue .tx).signalledUsed
      ∧ (s1Owes.queue .tx).nextUsed ≠ (s1Owes.queue .tx).signalledUsed
      ∧ accessOk s1Owes (s1Owes.queue .tx).availAddr 2 = true
      ∧ (availFlags (put 0x21000 [1#8] s1Owes) .tx).getLsbD 0 = true
      ∧ ((availFlags s1Owes .tx).getLsbD 0 = false ∧ s1Owes.interruptStatus &&& irqBit s1Owes.cfg .tx = 0#32)
      ∧ ({ s1Owes with interruptStatus := 1#32 }).interruptStatus &&& irqBit s1Owes.cfg .tx ≠ 0#32 :=
  ⟨rfl, by decide +kernel⟩

/-! ### Transfers -/

theorem witness_RxTransferCountsWhatFits :
    rxTransfer [⟨0x50000#64, 2#32, 0#16, 0#16⟩] [7#8, 8#8] s1 = .ok 2 (put 0x50000 [7#8, 8#8] s1)
      ∧ ∃ t, rxTransfer [⟨0x50000#64, 2#32, 0#16, 0#16⟩] [7#8, 8#8, 9#8] s1 = .ok 2 t :=
  ⟨by decide +kernel, (rxTransfer [⟨0x50000#64, 2#32, 0#16, 0#16⟩] [7#8, 8#8, 9#8] s1).state, by decide +kernel⟩
theorem witness_RxTransferWritesTheFrameInsideTheBuffers :
    quiet s1 ∧ s1.mem.wf = true
      ∧ rxTransfer [⟨0x50000#64, 1#32, 1#16, 1#16⟩, ⟨0x50001#64, 1#32, 0#16, 0#16⟩] [7#8, 8#8] s1
          = .ok 2 (put 0x50000 [7#8, 8#8] s1)
      ∧ [(⟨0x50000#64, 1#32, 1#16, 1#16⟩ : Desc), ⟨0x50001#64, 1#32, 0#16, 0#16⟩].Pairwise buffersApart
      ∧ rxTransfer [⟨0x50000#64, 1#32, 1#16, 1#16⟩, ⟨0x09000000#64, 1#32, 0#16, 0#16⟩] [7#8, 8#8] s1
          = .fault 0x09000000 1 (put 0x50000 [7#8] s1)
      ∧ ((∀ e ∈ [(⟨0x50000#64, 1#32, 1#16, 1#16⟩ : Desc)], e.len ≠ 0#32 → accessOk s1 e.addr e.len.toNat = true)
        ∧ capacity [⟨0x50000#64, 1#32, 1#16, 1#16⟩] < [7#8, 8#8].length ∧ (1#32 : Word) ≠ 0#32
        ∧ 1 = min (1#32 : Word).toNat ([7#8, 8#8].length - capacity [⟨0x50000#64, 1#32, 1#16, 1#16⟩])
        ∧ accessOk s1 0x09000000#64 1 = false) := by
  refine ⟨rfl, rfl, by decide +kernel, ?_, by decide +kernel, by decide⟩
  simp [buffersApart]
theorem witness_TxTransferPushesTheChainsBytes :
    ((∀ e ∈ p2Chain, e.len ≠ 0#32 → accessOk p2 e.addr e.len.toNat = true) ∧ (1#32 : Word) ≠ 0#32
        ∧ accessOk p2 0x09000000#64 (1#32 : Word).toNat = false)
      ∧ txTransfer [⟨0x09000000#64, 1#32, 0#16, 0#16⟩] s1 = .fault 0x09000000 1 s1
      ∧ quiet p2 ∧ (∀ d ∈ p2Chain, d.len ≠ 0#32 → accessOk p2 d.addr d.len.toNat = true)
      ∧ p2.txAnswers.head? ≠ some .error
      ∧ ({ p2 with txAnswers := [.error] }).txAnswers.head? = some .error :=
  ⟨by decide, by decide +kernel, rfl, by decide, by decide, rfl⟩

/-! ### The engine's operations -/

theorem witness_TxNotifyOnAnEmptyRing :
    s1.cfg.wf = true ∧ quiet s1 ∧ s1.mem.wf = true ∧ s1.operational = true ∧ configured s1.txq = true
      ∧ RingsAccessible s1 .tx ∧ RingsApart s1.txq ∧ availIdx s1 .tx = s1.txq.nextAvail
      ∧ s1.txq.nextUsed = s1.txq.signalledUsed :=
  ⟨by decide, rfl, rfl, rfl, by decide, s1_ringsAccessible .tx, s1_ringsApart .tx, by decide, rfl⟩

theorem witness_TxNotifyTransmitsOneChain :
    p2.cfg.wf = true ∧ quiet p2 ∧ p2.mem.wf = true ∧ p2.operational = true ∧ configured p2.txq = true
      ∧ RingsAccessible p2 .tx ∧ RingsApart p2.txq ∧ availIdx p2 .tx = p2.txq.nextAvail + 1#16
      ∧ p2.txq.nextUsed = p2.txq.signalledUsed
      ∧ (∀ k : Half, k.toNat < p2.txq.size.toNat → accessOk p2 (descEntryAddr p2.txq k) 16 = true)
      ∧ WellFormedChain p2 .tx (availHead p2 .tx) p2Chain ∧ BuffersFit p2 .tx p2Chain := by
  have hh : availHead p2 .tx = 0#16 := by decide +kernel
  refine ⟨by decide, rfl, by decide +kernel, rfl, by decide, ringsAccessible_of_s1 .tx rfl rfl, s1_ringsApart .tx,
    by decide +kernel, rfl, tableAccessible_of_s1 .tx rfl rfl, ?_, ⟨by decide, ?_, ?_⟩⟩
  · rw [hh]
    exact witness_WalkChainAcceptsExactlyTheWellFormedChains.2.1
  · intro d hd
    simp only [p2Chain, List.mem_cons, List.not_mem_nil, or_false] at hd
    rcases hd with rfl | rfl <;> exact .inr (by decide)
  · simp [p2Chain, buffersApart]

theorem witness_TxNotifySkipsAMalformedChain :
    badTx.cfg.wf = true ∧ quiet badTx ∧ badTx.mem.wf = true ∧ badTx.operational = true ∧ configured badTx.txq = true
      ∧ RingsAccessible badTx .tx ∧ RingsApart badTx.txq ∧ availIdx badTx .tx = badTx.txq.nextAvail + 1#16
      ∧ badTx.txq.nextUsed = badTx.txq.signalledUsed
      ∧ (∀ k : Half, k.toNat < badTx.txq.size.toNat → accessOk badTx (descEntryAddr badTx.txq k) 16 = true)
      ∧ ¬ ∃ chain, WellFormedChain badTx .tx (availHead badTx .tx) chain := by
  refine ⟨by decide, rfl, by decide +kernel, rfl, by decide, ringsAccessible_of_s1 .tx rfl rfl, s1_ringsApart .tx,
    by decide +kernel, rfl, tableAccessible_of_s1 .tx rfl rfl, fun ⟨_, h⟩ => absurd h.inTable (by decide +kernel)⟩

/-- The premises of the RX statements on the rings, for any memory and port of S1. -/
theorem rx_premises {s : State} (hc : s.cfg = s1.cfg) (hq : s.rxq = s1.rxq) (hr : s.race = [])
    (ho : s.operational = true) :
    (s.cfg.wf = true ∧ quiet s) ∧ s.operational = true ∧ configured s.rxq = true ∧ RingsAccessible s .rx
      ∧ RingsApart s.rxq ∧ s.rxq.nextUsed = s.rxq.signalledUsed
      ∧ ∀ k : Half, k.toNat < s.rxq.size.toNat → accessOk s (descEntryAddr s.rxq k) 16 = true := by
  refine ⟨⟨by rw [hc]; decide, hr⟩, ho, by rw [hq]; decide, ringsAccessible_of_s1 .rx hc hq, ?_, by rw [hq]; rfl,
    tableAccessible_of_s1 .rx hc hq⟩
  rw [hq]
  exact s1_ringsApart .rx

/-- S1 with a frame waiting and RX entries whose head lies outside the table, `n` of them published. -/
def badRx (n : Byte) : State :=
  { put 0x11002 [n, 0#8] (put 0x11004 [0#8, 1#8] s1) with rxPort := [.frame (fr 20 0)] }

theorem witness_RxPumpSkipsAMalformedChain :
    (((badRx 1#8).cfg.wf = true ∧ quiet (badRx 1#8)) ∧ (badRx 1#8).operational = true
      ∧ configured (badRx 1#8).rxq = true ∧ RingsAccessible (badRx 1#8) .rx ∧ RingsApart (badRx 1#8).rxq
      ∧ (badRx 1#8).rxq.nextUsed = (badRx 1#8).rxq.signalledUsed
      ∧ ∀ k : Half, k.toNat < (badRx 1#8).rxq.size.toNat →
          accessOk (badRx 1#8) (descEntryAddr (badRx 1#8).rxq k) 16 = true)
      ∧ (badRx 1#8).mem.wf = true ∧ (badRx 1#8).rxPort ≠ []
      ∧ (¬ ∃ chain, WellFormedChain (badRx 1#8) .rx (availHead (badRx 1#8) .rx) chain)
      ∧ availIdx (badRx 1#8) .rx = (badRx 1#8).rxq.nextAvail + 1#16
      ∧ availIdx (badRx 2#8) .rx ≠ (badRx 2#8).rxq.nextAvail
      ∧ (answer (exec .evtHostRxReady (badRx 2#8))).isSome = true
      ∧ (answer (exec (.wrQueueNotify 0#32) (badRx 2#8))).isSome = true := by
  refine ⟨rx_premises rfl rfl rfl rfl, by decide +kernel, by decide, fun ⟨_, h⟩ => ?_, by decide +kernel,
    by decide +kernel, by decide +kernel, by decide +kernel⟩
  exact absurd h.inTable (by decide +kernel)

theorem witness_RxPumpStopsWithoutAFrameOrAChain :
    ((s1.cfg.wf = true ∧ quiet s1) ∧ s1.operational = true ∧ configured s1.rxq = true ∧ RingsAccessible s1 .rx
      ∧ RingsApart s1.rxq ∧ s1.rxq.nextUsed = s1.rxq.signalledUsed
      ∧ ∀ k : Half, k.toNat < s1.rxq.size.toNat → accessOk s1 (descEntryAddr s1.rxq k) 16 = true)
      ∧ s1.mem.wf = true ∧ s1.rxPort = []
      ∧ ({ s1 with rxPort := [.error] }).rxPort ≠ []
      ∧ availIdx { s1 with rxPort := [.error] } .rx = ({ s1 with rxPort := [.error] }).rxq.nextAvail :=
  ⟨rx_premises rfl rfl rfl rfl, rfl, rfl, by decide, by decide⟩

theorem rxRing_chain (items : List RxItem) :
    WellFormedChain (rxWith items) .rx (availHead (rxWith items) .rx) rxChain40 := by
  have hh : availHead (rxWith items) .rx = 0#16 := by
    change availHead rxRing .rx = 0#16
    decide +kernel
  rw [hh]
  refine ⟨by change (0#16 : Half).toNat < s1.rxq.size.toNat; decide, ⟨?_, by decide⟩,
    by change 1 ≤ s1.rxq.size.toNat; decide, ?_⟩
  · change _ = descAt rxRing .rx 0#16
    decide +kernel
  · intro d hd
    simp only [rxChain40, List.head?_cons, Option.some.injEq] at hd
    rw [← hd]
    change 12 ≤ 40
    decide

theorem witness_RxPumpDeliversOneFrame :
    (((rxWith [.frame (fr 64 0)]).cfg.wf = true ∧ quiet (rxWith [.frame (fr 64 0)]))
      ∧ (rxWith [.frame (fr 64 0)]).operational = true
      ∧ configured (rxWith [.frame (fr 64 0)]).rxq = true ∧ RingsAccessible (rxWith [.frame (fr 64 0)]) .rx
      ∧ RingsApart (rxWith [.frame (fr 64 0)]).rxq
      ∧ (rxWith [.frame (fr 64 0)]).rxq.nextUsed = (rxWith [.frame (fr 64 0)]).rxq.signalledUsed
      ∧ ∀ k : Half, k.toNat < (rxWith [.frame (fr 64 0)]).rxq.size.toNat →
          accessOk (rxWith [.frame (fr 64 0)]) (descEntryAddr (rxWith [.frame (fr 64 0)]).rxq k) 16 = true)
      ∧ (rxWith [.frame (fr 64 0)]).mem.wf = true ∧ (rxWith [.frame (fr 64 0)]).rxPort = [.frame (fr 64 0)]
      ∧ (fr 64 0).length < 2 ^ 32
      ∧ availIdx (rxWith [.frame (fr 64 0)]) .rx ≠ (rxWith [.frame (fr 64 0)]).rxq.nextAvail
      ∧ WellFormedChain (rxWith [.frame (fr 64 0)]) .rx (availHead (rxWith [.frame (fr 64 0)]) .rx) rxChain40
      ∧ BuffersFit (rxWith [.frame (fr 64 0)]) .rx rxChain40
      ∧ 40 = min (fr 64 0).length (capacity rxChain40) := by
  refine ⟨rx_premises rfl rfl rfl rfl, by decide +kernel, rfl, by decide, by decide +kernel, rxRing_chain _,
    ⟨by decide, ?_, ?_⟩, by decide⟩
  · intro d hd
    simp only [rxChain40, List.mem_cons, List.not_mem_nil, or_false] at hd
    rw [hd]
    exact .inr (by decide)
  · simp [rxChain40]

theorem witness_RxHostErrorLeavesTheChain :
    (((rxWith [.error]).cfg.wf = true ∧ quiet (rxWith [.error])) ∧ (rxWith [.error]).operational = true
      ∧ configured (rxWith [.error]).rxq = true
      ∧ RingsAccessible (rxWith [.error]) .rx ∧ RingsApart (rxWith [.error]).rxq
      ∧ (rxWith [.error]).rxq.nextUsed = (rxWith [.error]).rxq.signalledUsed
      ∧ ∀ k : Half, k.toNat < (rxWith [.error]).rxq.size.toNat →
          accessOk (rxWith [.error]) (descEntryAddr (rxWith [.error]).rxq k) 16 = true)
      ∧ (rxWith [.error]).mem.wf = true ∧ (rxWith [.error]).rxPort = .error :: []
      ∧ availIdx (rxWith [.error]) .rx ≠ (rxWith [.error]).rxq.nextAvail
      ∧ WellFormedChain (rxWith [.error]) .rx (availHead (rxWith [.error]) .rx) rxChain40 :=
  ⟨rx_premises rfl rfl rfl rfl, by decide +kernel, rfl, by decide +kernel, rxRing_chain _⟩

theorem witness_RxReadyIsIgnoredUnlessReady :
    State.reset.operational = false ∧ ({ s1 with rxq := { s1.rxq with size := 0#16 } }).rxq.size = 0#16
      ∧ ({ s1 with rxq := { s1.rxq with descAddr := 0#64 } }).rxq.descAddr = 0#64 := by decide

/-- S1 with the TX used ring outside mapped memory. -/
def s1Unmapped : State := { s1 with txq := { s1.txq with usedAddr := 0x08000000#64 } }

theorem witness_UnmappedUsedRingFailsTheDevice :
    s1Unmapped.cfg.wf = true ∧ s1Unmapped.operational = true ∧ configured s1Unmapped.txq = true
      ∧ accessOk s1Unmapped s1Unmapped.txq.usedAddr 2 = false := by decide

theorem witness_EngineEndsNormallyOrFailsTheDevice :
    (∃ t, exec (.wrQueueNotify 1#32) p2 = .next t ∧ t.operational = true)
      ∧ (∃ t, exec (.wrQueueNotify 1#32) p7 = .next t ∧ t.operational = false)
      ∧ (∃ t, exec (.wrQueueNotify 2#32) p2 = .next t ∧ t.busOutcome = some .registerError)
      ∧ ∃ t, exec .evtHostRxReady (rxWith [.frame (fr 20 0)]) = .next t ∧ t.operational = true :=
  ⟨next_with (by decide +kernel), next_with (by decide +kernel), next_with (by decide +kernel),
    next_with (by decide +kernel)⟩
theorem witness_EngineFrame :
    (p2.cfg.wf = true ∧ 1#32 = queueIndex .tx ∧ ∃ t, exec (.wrQueueNotify 1#32) p2 = .next t)
      ∧ ∃ t, exec .evtHostRxReady (rxWith [.frame (fr 20 0)]) = .next t :=
  ⟨⟨by decide, rfl, next_of_answer (by decide +kernel)⟩, next_of_answer (by decide +kernel)⟩
theorem witness_TxNotifyStoresOnlyInTheUsedRing :
    p2.cfg.wf = true ∧ quiet p2 ∧ p2.mem.wf = true ∧ configured p2.txq = true
      ∧ (∃ t, exec (.wrQueueNotify 1#32) p2 = .next t)
      ∧ ¬ inUsedRing p2.txq 0x40000 := by
  refine ⟨by decide, rfl, by decide +kernel, by decide, next_of_answer (by decide +kernel), ?_⟩
  rintro ⟨off, h, e⟩
  have hu : p2.txq.usedAddr = 0x22000#64 := rfl
  have hs : p2.txq.size.toNat = 256 := rfl
  rw [hs] at h
  rw [hu, BitVec.toNat_add, BitVec.toNat_ofNat] at e
  simp only [BitVec.toNat_ofNat] at e
  omega
theorem witness_AtMostOnePulsePerOperation :
    ∃ t, exec (.wrQueueNotify 1#32) p2 = .next t ∧ t.history.getLast? = some (.irqPulse 1) :=
  next_with (by decide +kernel)
theorem witness_DrainsEndOnlyAfterTheRecheck :
    (txLoop 3 p4).map (fun r => match r with | .ok _ _ => true | .fault _ _ _ => false) = some true
      ∧ (rxLoop 3 (rxWith [.frame (fr 20 0)])).map (fun r => match r with | .ok _ _ => true | .fault _ _ _ => false)
          = some true
      ∧ (rxLoop 3 (rxWith [.error])).map (fun r => match r with | .ok _ _ => true | .fault _ _ _ => false)
          = some true := by decide +kernel
theorem witness_EveryOperationEnds :
    s1.Inv ∧ s1.cfg.queueAlign ≤ 2 ^ 63 ∧ s1.cfg.extraFeatures = 0#64 ∧ s1.opsBegun ≤ 1 :=
  ⟨test_s1_inv, by decide, rfl, by decide⟩
theorem witness_EveryStepKeepsTheInvariant :
    (s1.withFetchWord 14 0x1050).Inv ∧ ∃ t, step (s1.withFetchWord 14 0x1050) = .next t :=
  ⟨{ test_s1_inv with fresh := fun h => absurd h (by decide) }, next_of_answer (by decide +kernel)⟩
theorem witness_ResetHasTheInvariant :
    Config.cfg0.wf = true ∧ ({ Config.cfg0 with netHdrLen := 10 } : Config).wf = true := by decide
theorem witness_ParametersNeverChange :
    (∃ t, step (s1.withFetchWord 14 0x1070) = .next t)
      ∧ ∃ t, step { s1 with
          opsBegun := 0, configSpace := Vector.replicate 17 0#8, inputs := [.op [0x02#8, 0x20#8]] } = .next t
        ∧ t.configSpace = s1.configSpace :=
  ⟨next_of_answer (by decide +kernel), next_with (by decide +kernel)⟩

end Sys2Proof.Tests
end

