-- ==== Sys2Proof/Proofs/DecodedWellFormed.lean ====
section
/-! What decodes is a well-formed operation (spec/30_encoding.md R72, R80), from the register map up to the image. -/

namespace Sys2Proof

open Sys2Proof.Machine

theorem wf_of_regRead {r : Reg} {i : Instr} (h : regRead r = some i) : i.wf = true := by
  cases r <;> cases h <;> rfl

theorem wf_of_regWrite {r : Reg} {v : Word} {i : Instr} (h : regWrite v r = some i) : i.wf = true := by
  cases r <;> cases h <;> rfl

/-- An operation that the register map finds is well formed. -/
theorem wf_of_regAccess {dir : Dir} {o : Offset} {v : Word} {i : Instr} (h : regAccess dir o v = some i) :
    i.wf = true := by
  obtain ⟨r, -, hr⟩ := Option.bind_eq_some_iff.mp h
  cases dir with
  | read => exact wf_of_regRead hr
  | write => exact wf_of_regWrite hr

/-- An offset of the DeviceSpecific range, taken relative to it, still fits the window. -/
theorem configIndex_fits {o : Offset} (h : 0x100 ≤ o.toNat) : (o - 0x100#12).toNat + 0x100 < 2 ^ 12 := by
  bv_omega

/-- The catch-all is taken only where no other row applies. -/
theorem wf_invalidAccess {dir : Dir} {o : Offset} {len : Nat} (ho : o.toNat < 0x100)
    (h : len = 4 → regAccess dir o 0#32 = none) : (Instr.invalidAccess dir o len).wf = true := by
  by_cases hl : len = 4
  · simp [Instr.wf, ho, h hl]
  · simp [Instr.wf, ho, hl]

theorem decodeBus_wf (dir : Dir) (o : Offset) (data : List Byte) : (decodeBus dir o data).wf = true := by
  unfold decodeBus
  split
  next hconfig =>
    cases dir with
    | read => exact decide_eq_true (configIndex_fits hconfig)
    | write => exact decide_eq_true (configIndex_fits hconfig)
  next hreg =>
    have ho : o.toNat < 0x100 := Nat.lt_of_not_le hreg
    split
    next hlen =>
      cases hacc : regAccess dir o (le32 data) with
      | some i => exact wf_of_regAccess hacc
      | none =>
        have hnone : regAccess dir o 0#32 = none := by
          rw [← Option.not_isSome_iff_eq_none, regAccess_isSome dir o 0#32 (le32 data), hacc]
          exact Bool.false_ne_true
        exact wf_invalidAccess ho fun _ => hnone
    next hlen => exact wf_invalidAccess ho fun h => absurd h hlen

theorem wf_of_decodeEvent {number : Offset} {i : Instr} (h : decodeEvent number = .ok i) : i.wf = true := by
  unfold decodeEvent at h
  split at h
  · cases h; rfl
  · split at h
    · cases h; rfl
    · cases h

theorem wf_of_decodeSel {sel : Half} {data : List Byte} {i : Instr} (h : decodeSel sel data = .ok i) :
    i.wf = true := by
  unfold decodeSel at h
  split at h
  next => cases h
  next =>
    split at h
    next event =>
      split at h
      next => cases h
      next =>
        split at h
        next => cases h
        next => exact wf_of_decodeEvent h
    next transaction =>
      cases h
      exact decodeBus_wf _ _ _

/-- What decodes is an operation of the block. -/
theorem wf_of_decode {image : List Byte} {i : Instr} (h : decode image = .ok i) : i.wf = true := by
  match image, h with
  | _ :: _ :: _, h => exact wf_of_decodeSel h

end Sys2Proof
end

