-- ==== Sys2Proof/Proofs/StepCases.lean ====
section
/-! The step on an operation's image, and what a step that answers can be. -/

namespace Sys2Proof.Machine

theorem step_op {s : State} {image : List Byte} {rest : List Input} {i : Instr}
    (h : s.inputs = .op image :: rest) (hd : decode image = .ok i) : step s = exec i (beginOp s image rest) := by
  simp only [step, h, hd]

/-- A step that answers is idle, an operation run to its end, a store of the guest, or a frame the host queues. -/
theorem step_cases {s t : State} (h : step s = .next t) :
    t = s
    ∨ (∃ image rest i, s.inputs = .op image :: rest ∧ decode image = .ok i
        ∧ exec i (beginOp s image rest) = .next t)
    ∨ (∃ g rest, s.inputs = .guestStore g :: rest ∧ t = guestWrites s g rest)
    ∨ (∃ item rest, s.inputs = .hostFrame item :: rest ∧ rxItemOk s.cfg item = true
        ∧ t = hostQueues s item rest) := by
  unfold step at h
  split at h
  next => cases h; exact .inl rfl
  next image rest hin =>
    split at h
    next i hd => exact .inr (.inl ⟨image, rest, i, hin, hd, h⟩)
    next => cases h
  next g rest hin => cases h; exact .inr (.inr (.inl ⟨g, rest, hin, rfl⟩))
  next item rest hin =>
    split at h
    next hok => cases h; exact .inr (.inr (.inr ⟨item, rest, hin, hok, rfl⟩))
    next => cases h

/-- Settles O5: the decoder answers well-formed operations only, and the state the operation starts in is
`beginOp`, written out. -/
theorem stepRunsTheDecodedOperation : Obligations.StepRunsTheDecodedOperation :=
  fun _ _ _ _ hin hd => ⟨wf_of_decode hd, step_op hin hd⟩

end Sys2Proof.Machine
end

