-- ==== Sys2Proof/Proofs/Parameters.lean ====
section
/-! What no operation but power-on changes: the parameters (spec/00_scope.md R4), the configuration bytes
(spec/10_state.md R23), and the count of operations. -/

namespace Sys2Proof.Machine

/-- The parameters, the configuration bytes and the count of operations are as before. -/
structure KeepsParameters (s t : State) : Prop where
  cfg : t.cfg = s.cfg
  configSpace : t.configSpace = s.configSpace
  opsBegun : t.opsBegun = s.opsBegun

theorem KeepsParameters.trans {s t u : State} (h1 : KeepsParameters s t) (h2 : KeepsParameters t u) :
    KeepsParameters s u :=
  ⟨h2.cfg.trans h1.cfg, h2.configSpace.trans h1.configSpace, h2.opsBegun.trans h1.opsBegun⟩

/-- From an operation that always answers to the state it answers. -/
theorem KeepsParameters.of_next {s t u : State} (h : (.next u : Host.Outcome State Fault Refusal) = .next t)
    (hu : KeepsParameters s u) : KeepsParameters s t := by
  cases h
  exact hu

/-! ## The shared updates -/

theorem busOk_keepsParameters (s : State) : KeepsParameters s (busOk s) := ⟨rfl, rfl, rfl⟩

theorem deviceFail_keepsParameters (a n : Nat) (s : State) : KeepsParameters s (deviceFail a n s) :=
  ⟨rfl, rfl, rfl⟩

theorem refuseWrite_keepsParameters (r : Reg) (s : State) : KeepsParameters s (refuseWrite r s) :=
  ⟨rfl, rfl, rfl⟩

theorem setQueue_keepsParameters (s : State) (i : QueueId) (q : Queue) : KeepsParameters s (s.setQueue i q) :=
  ⟨setQueue_cfg s i q, setQueue_configSpace s i q, setQueue_opsBegun s i q⟩

/-- A reset keeps the configuration bytes (spec/70_reset_and_hazards.md R261), and so does any other Status write. -/
theorem writeStatus_keepsParameters (b : Byte) (s : State) : KeepsParameters s (writeStatus b s) := by
  unfold writeStatus
  split
  next reset => exact ⟨rfl, rfl, rfl⟩
  next =>
    split
    next failed => exact ⟨rfl, rfl, rfl⟩
    next =>
      split
      next activated => exact ⟨rfl, rfl, rfl⟩
      next stored => exact ⟨rfl, rfl, rfl⟩

theorem EngineStep.keepsParameters {i : QueueId} {s t : State} (h : EngineStep i s t) : KeepsParameters s t :=
  ⟨h.cfg, h.configSpace, h.opsBegun⟩

theorem DrainStep.keepsParameters {i : QueueId} {s t : State} (h : DrainStep i s t) : KeepsParameters s t := by
  cases h with
  | normal u _ work last irq => exact work.1.keepsParameters.trans last.keepsParameters
  | failed a n u work => exact work.1.keepsParameters.trans (deviceFail_keepsParameters a n u)

/-! ## The operations with a branch -/

theorem execRdConfig_keepsParameters {k : Offset} {n : Nat} {s t : State} (h : execRdConfig k n s = .next t) :
    KeepsParameters s t := by
  unfold execRdConfig at h
  split at h
  · exact .of_next h ⟨rfl, rfl, rfl⟩
  · exact .of_next h ⟨rfl, rfl, rfl⟩

theorem execWrQueueNum_keepsParameters {v : Word} {s t : State} (h : execWrQueueNum v s = .next t) :
    KeepsParameters s t := by
  unfold execWrQueueNum at h
  split at h
  next => exact .of_next h (refuseWrite_keepsParameters _ s)
  next i _ =>
    split at h
    · exact .of_next h ((setQueue_keepsParameters s i _).trans (busOk_keepsParameters _))
    · exact .of_next h (refuseWrite_keepsParameters _ s)

theorem execWrQueuePfn_keepsParameters {v : Word} {s t : State} (h : execWrQueuePfn v s = .next t) :
    KeepsParameters s t := by
  unfold execWrQueuePfn at h
  split at h
  next => exact .of_next h (refuseWrite_keepsParameters _ s)
  next i _ => exact .of_next h ((setQueue_keepsParameters s i _).trans (busOk_keepsParameters _))

theorem execWrQueueNotify_keepsParameters {v : Word} {s t : State} (h : execWrQueueNotify v s = .next t) :
    KeepsParameters s t := by
  unfold execWrQueueNotify at h
  split at h
  next => exact .of_next h (refuseWrite_keepsParameters _ s)
  next i _ =>
    split at h
    next notOperational => exact .of_next h (refuseWrite_keepsParameters _ s)
    next =>
      split at h
      next notConfigured => exact .of_next h (refuseWrite_keepsParameters _ s)
      next =>
        split at h
        next u hu => exact .of_next h ((processQueue_step hu).keepsParameters.trans (busOk_keepsParameters u))
        next => cases h

theorem execEvtHostRxReady_keepsParameters {s t : State} (h : execEvtHostRxReady s = .next t) :
    KeepsParameters s t := by
  unfold execEvtHostRxReady at h
  split at h
  next ignored => exact .of_next h ⟨rfl, rfl, rfl⟩
  next =>
    split at h
    next u hu => exact .of_next h (pumpRx_step hu).keepsParameters
    next => cases h

/-- EVT_POWER_ON answers only as the first operation, and then in the power-on state (R260). -/
theorem execEvtPowerOn_next {s t : State} (h : execEvtPowerOn s = .next t) : s.opsBegun ≤ 1 ∧ t = powerOn s := by
  unfold execEvtPowerOn at h
  split at h
  next => cases h
  next hfirst =>
    split at h
    next => cases h
    next =>
      split at h
      next => cases h
      next => cases h; exact ⟨Nat.le_of_not_lt hfirst, rfl⟩

/-! ## Every operation, every step -/

/-- No operation but power-on changes a parameter, a configuration byte or the count. -/
theorem exec_keepsParameters {i : Instr} {s t : State} (hi : i ≠ .evtPowerOn) (h : exec i s = .next t) :
    KeepsParameters s t := by
  cases i with
  | rdMagic | rdVersion | rdDeviceId | rdVendorId | rdHostFeatures | rdQueueNumMax | rdQueuePfn
  | rdInterruptStatus | rdStatus => exact .of_next h ⟨rfl, rfl, rfl⟩
  | wrHostFeaturesSel v | wrGuestFeatures v | wrGuestFeaturesSel v | wrGuestPageSize v | wrQueueSel v
  | wrQueueAlign v | wrInterruptAck v => exact .of_next h ⟨rfl, rfl, rfl⟩
  | wrConfig k n | invalidAccess dir o len => exact .of_next h ⟨rfl, rfl, rfl⟩
  | wrQueueNum v => exact execWrQueueNum_keepsParameters h
  | wrQueuePfn v => exact execWrQueuePfn_keepsParameters h
  | wrQueueNotify v => exact execWrQueueNotify_keepsParameters h
  | wrStatus v => exact .of_next h ((writeStatus_keepsParameters _ s).trans (busOk_keepsParameters _))
  | rdConfig k n => exact execRdConfig_keepsParameters h
  | evtHostRxReady => exact execEvtHostRxReady_keepsParameters h
  | evtPowerOn => exact absurd rfl hi

/-- Settles O59, by the kinds of step: only an operation other than power-on needs work, and there the operation keeps
all three fields of the state that `beginOp` counts it in. -/
theorem parametersNeverChange : Obligations.ParametersNeverChange := by
  intro s t h
  obtain rfl | ⟨image, rest, i, hin, hd, hexec⟩ | ⟨g, rest, -, rfl⟩ | ⟨item, rest, -, -, rfl⟩ := step_cases h
  · exact ⟨rfl, .inl rfl, le_refl _⟩
  · by_cases hi : i = .evtPowerOn
    · subst hi
      obtain ⟨hfirst, rfl⟩ := execEvtPowerOn_next hexec
      have hzero : s.opsBegun = 0 := Nat.le_zero.mp (Nat.le_of_succ_le_succ hfirst)
      exact ⟨rfl, .inr ⟨hzero, image, rest, hin, hd⟩, Nat.le_succ _⟩
    · have hk := exec_keepsParameters hi hexec
      exact ⟨hk.cfg, .inl hk.configSpace, hk.opsBegun ▸ Nat.le_succ _⟩
  · exact ⟨rfl, .inl rfl, le_refl _⟩
  · exact ⟨rfl, .inl rfl, le_refl _⟩

end Sys2Proof.Machine
end

