-- ==== Sys2Proof/Proofs/Operands.lean ====
section
/-! The operand form `AlignUp` (spec/10_state.md R15) and the constructed configuration bytes (R23). -/

namespace Sys2Proof.Machine

theorem alignUp_eq_ceilDiv (a k : Nat) : alignUp a k = (a ⌈/⌉ k) * k := by
  rw [alignUp, Nat.ceilDiv_eq_add_pred_div]

/-- Settles O13: `AlignUp` is the division rounded up, whose Galois connection gives both bounds. -/
theorem alignUpIsTheNextMultiple : Obligations.AlignUpIsTheNextMultiple := by
  intro a k hk
  rw [alignUp_eq_ceilDiv]
  refine ⟨Nat.dvd_mul_left k _, ?_, ?_⟩
  · rw [mul_comm]
    exact (ceilDiv_le_iff_le_mul hk).mp le_rfl
  · rintro m ⟨c, rfl⟩ ha
    rw [mul_comm k c]
    exact Nat.mul_le_mul_right k ((ceilDiv_le_iff_le_mul hk).mpr ha)

/-! ## The configuration bytes -/

theorem ofNat_div_eq_extract {w : Nat} (v : BitVec w) (i : Nat) :
    BitVec.ofNat 8 (v.toNat / 2 ^ i) = v.extractLsb' i 8 := by
  apply BitVec.eq_of_toNat_eq
  simp [Nat.shiftRight_eq_div_pow]

theorem bytesLE_two (v : Half) : bytesLE 2 v.toNat = [v.extractLsb' 0 8, v.extractLsb' 8 8] := by
  simp [bytesLE, ← ofNat_div_eq_extract]

theorem bytesLE_four (v : Word) : bytesLE 4 v.toNat =
    [v.extractLsb' 0 8, v.extractLsb' 8 8, v.extractLsb' 16 8, v.extractLsb' 24 8] := by
  simp [bytesLE, ← ofNat_div_eq_extract, Nat.div_div_eq_div_mul]

theorem toList_six (m : Vector Byte 6) : m.toList = [m[0], m[1], m[2], m[3], m[4], m[5]] := by
  apply List.ext_getElem
  · simp
  · intro j hj _
    rw [Vector.length_toList] at hj
    interval_cases j <;> simp

/-- The 17 bytes field by field, each little-endian (R23). -/
theorem configBytes_toList (c : Config) : (configBytes c).toList =
    c.mac.toList ++ bytesLE 2 c.linkStatus.toNat ++ bytesLE 2 c.maxVqPairs.toNat
      ++ bytesLE 2 c.mtu.toNat ++ bytesLE 4 c.speed.toNat ++ [c.duplex] := by
  rw [toList_six, bytesLE_two, bytesLE_two, bytesLE_two, bytesLE_four]
  rfl

theorem configSlice_whole (v : Vector Byte 17) : configSlice v 0#12 17 = v.toList :=
  List.take_of_length_le (by simp)

/-- Settles O26: the read is inside the extent, and the bytes it answers are the constructed ones. -/
theorem configReadReturnsTheConstructedLayout : Obligations.ConfigReadReturnsTheConstructedLayout := by
  intro s hs
  have hinside : configExtentOk s.cfg 0#12 17 = true := (configExtentOk_iff hs.parameters _ _).mpr (by decide)
  have hread : exec (.rdConfig 0#12 17) s = .next (busRead (configSlice s.configSpace 0#12 17) s) := if_pos hinside
  rw [hread, configSlice_whole, ← configBytes_toList, ← hs.config]
  rfl

end Sys2Proof.Machine
end

