-- ==== Sys2Proof/Proofs/Invariant.lean ====
section
/-! The invariant of the state (spec/10_state.md R15, R18, R23, R32 and the model's own clauses): the power-on state has
it, and every step keeps it. -/

namespace Sys2Proof.Machine

/-! ## The power-on state -/

/-- Settles O58: each clause of the invariant is a closed fact about zeroed fields, but for the parameters'. -/
theorem resetHasTheInvariant : Obligations.ResetHasTheInvariant := by
  intro c hc
  constructor
  case parameters => exact hc
  case rxRings => exact ⟨rfl, rfl⟩
  case txRings => exact ⟨rfl, rfl⟩
  case irqBits => exact BitVec.zero_and
  case operationalStatus => intro h; cases h
  case faultStops => intro h; cases h
  case failedStops => exact fun _ => rfl
  case fresh => exact fun _ => rfl
  case frames => intro item h; cases h
  case memory | rxSize | txSize | config | counters => rfl

/-! ## The banks -/

/-- What the invariant says of one bank (R15, R32). -/
structure BankOk (c : Config) (q : Queue) : Prop where
  size : sizeLegal q.size = true
  rings : ringsPlaced c.queueAlign q

theorem State.Inv.bank {s : State} (h : s.Inv) (i : QueueId) : BankOk s.cfg (s.queue i) := by
  cases i with
  | rx => exact ⟨h.rxSize, h.rxRings⟩
  | tx => exact ⟨h.txSize, h.txRings⟩

theorem BankOk.zero (c : Config) : BankOk c Queue.zero := ⟨rfl, rfl, rfl⟩

/-- The engine, which moves only cursors and flags of a bank, keeps it legal. -/
theorem BankOk.of_sameRings {c : Config} {p q : Queue} (h : BankOk c p) (hq : p.sameRings q) : BankOk c q := by
  obtain ⟨hsize, hdesc, havail, hused⟩ := hq
  obtain ⟨psize, prings⟩ := h
  rw [ringsPlaced] at prings
  constructor
  · rwa [hsize]
  · rwa [ringsPlaced, hsize, hdesc, havail, hused]

/-- A bank whose rings `RingAddrs` has just placed (R15). -/
theorem BankOk.placeRings {q : Queue} (c : Config) (hsize : sizeLegal q.size = true) (hdesc : q.descAddr ≠ 0#64) :
    BankOk c (placeRings c.queueAlign q) := by
  refine ⟨hsize, ?_⟩
  rw [ringsPlaced, if_neg (show (Machine.placeRings c.queueAlign q).descAddr ≠ 0#64 from hdesc)]
  exact ⟨rfl, rfl⟩

theorem sizeLegal_of_nineSizes : ∀ v ∈ nineSizes, sizeLegal (v.extractLsb' 0 16) = true := by
  simp [nineSizes, sizeLegal, isPowerOfTwo]

theorem BankOk.withSize {c : Config} {q : Queue} {v : Word} (hc : c.wf = true) (hv : legalQueueNum c v = true)
    (h : BankOk c q) : BankOk c (withSize c.queueAlign v q) := by
  have hsize : sizeLegal (v.extractLsb' 0 16) = true :=
    sizeLegal_of_nineSizes v ((legalQueueNum_iff hc v).mp hv).1
  unfold Machine.withSize
  split
  next unset =>
    have hrings := h.rings
    rw [ringsPlaced, if_pos unset] at hrings
    exact ⟨hsize, by rwa [ringsPlaced, if_pos unset]⟩
  next placed => exact .placeRings c hsize placed

theorem BankOk.withDescAddr {c : Config} {q : Queue} (h : BankOk c q) (a : Dword) :
    BankOk c (withDescAddr c.queueAlign a q) := by
  unfold Machine.withDescAddr
  split
  next => exact ⟨h.size, rfl, rfl⟩
  next placed => exact .placeRings c h.size placed

/-! ## The interrupt bits -/

/-- No interrupt bit outside the two `IRQ_BIT`s is set (R18). -/
def IrqBitsOk (c : Config) (w : Word) : Prop := w &&& ~~~(c.irqBitRx ||| c.irqBitTx) = 0#32

theorem and_not_eq_zero_iff (w m : Word) :
    w &&& ~~~m = 0#32 ↔ ∀ k, w.getLsbD k = true → m.getLsbD k = true := by
  constructor
  · intro h k hk
    have hlt := BitVec.lt_of_getLsbD hk
    have hbit : (w &&& ~~~m).getLsbD k = false := by rw [h, BitVec.getLsbD_zero]
    rw [BitVec.getLsbD_and, BitVec.getLsbD_not, hk] at hbit
    simpa [hlt] using hbit
  · intro h
    apply BitVec.eq_of_getLsbD_eq
    intro k hlt
    rw [BitVec.getLsbD_and, BitVec.getLsbD_not, BitVec.getLsbD_zero]
    cases hk : w.getLsbD k with
    | false => rfl
    | true => simp [h k hk]

theorem irqBitsOk_iff (c : Config) (w : Word) :
    IrqBitsOk c w ↔ ∀ k, w.getLsbD k = true → (c.irqBitRx ||| c.irqBitTx).getLsbD k = true :=
  and_not_eq_zero_iff w _

theorem IrqBitsOk.ack {c : Config} {w : Word} (h : IrqBitsOk c w) (v : Word) : IrqBitsOk c (ackBits w v) := by
  rw [irqBitsOk_iff] at h ⊢
  intro k hk
  rw [ackBits, BitVec.getLsbD_and, Bool.and_eq_true] at hk
  exact h k hk.1

theorem IrqBitsOk.raise {c : Config} {w : Word} (h : IrqBitsOk c w) (i : QueueId) :
    IrqBitsOk c (w ||| irqBit c i) := by
  rw [irqBitsOk_iff] at h ⊢
  intro k hk
  rw [BitVec.getLsbD_or, Bool.or_eq_true] at hk
  obtain hold | hraised := hk
  · exact h k hold
  · rw [BitVec.getLsbD_or, Bool.or_eq_true]
    cases i with
    | rx => exact .inl hraised
    | tx => exact .inr hraised

theorem IrqStep.irqBitsOk {i : QueueId} {s t : State} (h : IrqStep i s t) (hs : IrqBitsOk s.cfg s.interruptStatus) :
    IrqBitsOk s.cfg t.interruptStatus := by
  obtain ⟨hkept, -⟩ | ⟨hraised, -⟩ := h.cases
  · rwa [hkept]
  · rw [hraised]; exact hs.raise i

/-! ## The shared updates, inside an operation -/

/-- The invariant in a state in which an operation has begun, so that the clause about the first operation
(spec/70_reset_and_hazards.md R260) asks nothing. -/
structure RunningInv (s : State) : Prop where
  inv : s.Inv
  begun : s.opsBegun ≠ 0

/-- The fields that no clause of the invariant reads may have any value. -/
theorem RunningInv.of_unread {s t : State} (h : RunningInv s)
    (ht : t = { s with
      hostFeaturesSel := t.hostFeaturesSel, guestFeaturesSel := t.guestFeaturesSel
      driverFeatures := t.driverFeatures, pageSize := t.pageSize, queueSel := t.queueSel
      race := t.race, txAnswers := t.txAnswers, inputs := t.inputs
      busOutcome := t.busOutcome, busBuffer := t.busBuffer, history := t.history }) : RunningInv t := by
  rw [ht]
  exact ⟨{ h.inv with fresh := fun h0 => absurd h0 h.begun }, h.begun⟩

theorem RunningInv.busOk {s : State} (h : RunningInv s) : RunningInv (busOk s) := h.of_unread rfl

theorem RunningInv.raiseRegisterError {s : State} (h : RunningInv s) (d : Dir) (o : Offset) (n : Nat) :
    RunningInv (raiseRegisterError d o n s) where
  inv := { h.inv with
    fresh := fun h0 => absurd h0 h.begun
    counters := raiseRegisterError_counters h.inv.counters }
  begun := h.begun

theorem RunningInv.refuseWrite {s : State} (h : RunningInv s) (r : Reg) : RunningInv (refuseWrite r s) :=
  h.raiseRegisterError ..

theorem RunningInv.setQueue {s : State} (h : RunningInv s) (i : QueueId) {q : Queue} (hq : BankOk s.cfg q) :
    RunningInv (s.setQueue i q) := by
  have hb : (s.setQueue i q).opsBegun ≠ 0 := by rw [setQueue_opsBegun]; exact h.begun
  cases i with
  | rx =>
    exact ⟨{ h.inv with fresh := fun h0 => absurd h0 hb, rxSize := hq.size, rxRings := hq.rings }, hb⟩
  | tx =>
    exact ⟨{ h.inv with fresh := fun h0 => absurd h0 hb, txSize := hq.size, txRings := hq.rings }, hb⟩

theorem RunningInv.ackInterrupt {s : State} (h : RunningInv s) (v : Word) :
    RunningInv { s with interruptStatus := ackBits s.interruptStatus v } where
  inv := { h.inv with
    fresh := fun h0 => absurd h0 h.begun
    irqBits := IrqBitsOk.ack h.inv.irqBits v }
  begun := h.begun

/-- FAILED is set in a status byte that `DeviceFail` leaves, so the byte is not 0. -/
theorem failStatus_ne_zero (b : Byte) : b ||| 0x80#8 ≠ 0#8 :=
  fun h => absurd (BitVec.or_eq_zero_iff.mp h).2 (by decide)

/-- `DeviceFail` (spec/60_exceptions.md R237). -/
theorem RunningInv.deviceFail {s : State} (h : RunningInv s) (a n : Nat) : RunningInv (deviceFail a n s) where
  inv := { h.inv with
    fresh := fun h0 => absurd h0 h.begun
    failedStops := fun _ => rfl
    operationalStatus := fun h0 => nomatch h0
    faultStops := fun _ => ⟨rfl, failStatus_ne_zero s.status⟩
    counters := deviceFail_counters h.inv.counters }
  begun := h.begun

/-- A reset, with the status byte it leaves (R144, R146 of spec/43_mmio_interrupt_status.md). -/
theorem RunningInv.deviceReset {s : State} (h : RunningInv s) (b : Byte) :
    RunningInv { deviceReset s with status := b } where
  inv := { h.inv with
    fresh := fun h0 => absurd h0 h.begun
    rxSize := (BankOk.zero s.cfg).size
    rxRings := (BankOk.zero s.cfg).rings
    txSize := (BankOk.zero s.cfg).size
    txRings := (BankOk.zero s.cfg).rings
    irqBits := BitVec.zero_and
    failedStops := fun _ => rfl
    operationalStatus := fun h0 => nomatch h0
    faultStops := fun h0 => nomatch h0 }
  begun := h.begun

/-- A status byte that asks for no reset may be stored, and the block be operational with it if no fault holds it
down. -/
theorem RunningInv.storeStatus {s : State} (h : RunningInv s) {b : Byte} (hzero : b ≠ 0#8)
    (hfailed : ¬ failedBit b = true) : RunningInv { s with status := b } where
  inv := { h.inv with
    fresh := fun h0 => absurd h0 h.begun
    failedStops := fun h0 => absurd h0 hfailed
    operationalStatus := fun _ => hzero
    faultStops := fun h0 => ⟨(h.inv.faultStops h0).1, hzero⟩ }
  begun := h.begun

theorem RunningInv.activate {s : State} (h : RunningInv s) (hzero : s.status ≠ 0#8)
    (hfailed : ¬ failedBit s.status = true) (hfault : s.failedByDevice = false) : RunningInv (activate s) where
  inv := { h.inv with
    fresh := fun h0 => absurd h0 h.begun
    failedStops := fun h0 => absurd h0 hfailed
    operationalStatus := fun _ => hzero
    faultStops := fun h0 => by rw [activate_failedByDevice, hfault] at h0; cases h0 }
  begun := h.begun

theorem failedByDevice_of_activates {s : State} {b : Byte} (h : activates s b = true) : s.failedByDevice = false := by
  simp only [activates, Bool.and_eq_true, Bool.not_eq_true'] at h
  exact h.2

theorem RunningInv.writeStatus {s : State} (h : RunningInv s) (b : Byte) : RunningInv (writeStatus b s) := by
  unfold Machine.writeStatus
  split
  next reset => exact h.deviceReset 0#8
  next hzero =>
    split
    next failed => exact h.deviceReset b
    next hfailed =>
      have hstored := h.storeStatus hzero hfailed
      split
      next active =>
        have hfault : s.failedByDevice = false := failedByDevice_of_activates active
        exact hstored.activate hzero hfailed hfault
      next => exact hstored

/-- EVT_POWER_ON (spec/70_reset_and_hazards.md R260). -/
theorem RunningInv.powerOn {s : State} (h : RunningInv s) : RunningInv (powerOn s) where
  inv := { resetHasTheInvariant s.cfg h.inv.parameters with
    memory := h.inv.memory
    fresh := fun h0 => absurd h0 h.begun
    frames := h.inv.frames }
  begun := h.begun

/-! ## The engine -/

theorem EngineStep.bank {i : QueueId} {s t : State} (h : EngineStep i s t) (hs : s.Inv) (j : QueueId) :
    BankOk t.cfg (t.queue j) := by
  rw [h.cfg]
  by_cases hj : j = i
  · subst hj
    exact (hs.bank j).of_sameRings h.rings
  · rw [h.other j hj]
    exact hs.bank j

/-- What the engine's relation leaves open is the interrupt bits. -/
theorem EngineStep.runningInv {i : QueueId} {s t : State} (h : EngineStep i s t) (hs : RunningInv s)
    (hirq : IrqBitsOk s.cfg t.interruptStatus) : RunningInv t := by
  have hi := hs.inv
  have hbegun : t.opsBegun ≠ 0 := by rw [h.opsBegun]; exact hs.begun
  refine ⟨?_, hbegun⟩
  constructor
  case parameters => rw [h.cfg]; exact hi.parameters
  case memory => exact h.wf hi.memory
  case rxSize => exact (h.bank hi .rx).size
  case txSize => exact (h.bank hi .tx).size
  case rxRings => exact (h.bank hi .rx).rings
  case txRings => exact (h.bank hi .tx).rings
  case config => rw [h.configSpace, h.cfg]; exact hi.config
  case irqBits => rw [h.cfg]; exact hirq
  case failedStops => rw [h.status, h.operational]; exact hi.failedStops
  case operationalStatus => rw [h.status, h.operational]; exact hi.operationalStatus
  case faultStops => rw [h.status, h.operational, h.failedByDevice]; exact hi.faultStops
  case fresh => exact fun h0 => absurd h0 hbegun
  case frames =>
    obtain ⟨k, hk⟩ := h.rxPort
    rw [h.cfg, hk]
    exact fun item hitem => hi.frames item (List.mem_of_mem_drop hitem)
  case counters => exact h.counters hi.counters

theorem WorkStep.runningInv {i : QueueId} {s t : State} (h : WorkStep i s t) (hs : RunningInv s) : RunningInv t :=
  h.1.runningInv hs (by rw [h.2.interruptStatus]; exact hs.inv.irqBits)

theorem DrainStep.runningInv {i : QueueId} {s t : State} (h : DrainStep i s t) (hs : RunningInv s) :
    RunningInv t := by
  cases h with
  | normal u _ work last irq =>
    have hu := work.runningInv hs
    exact last.runningInv hu (irq.irqBitsOk hu.inv.irqBits)
  | failed a n u work => exact (work.runningInv hs).deviceFail a n

/-! ## The operations with a branch -/

/-- From an operation that always answers to the state it answers. -/
theorem RunningInv.of_next {t u : State} (h : (.next u : Host.Outcome State Fault Refusal) = .next t)
    (hu : RunningInv u) : RunningInv t := by
  cases h
  exact hu

section operations

variable {s t : State} (hs : RunningInv s)

include hs

theorem execRdConfig_runningInv {k : Offset} {n : Nat} (h : execRdConfig k n s = .next t) : RunningInv t := by
  unfold execRdConfig at h
  split at h
  next => exact .of_next h (hs.of_unread rfl)
  next => exact .of_next h (hs.raiseRegisterError ..)

theorem execWrQueueNum_runningInv {v : Word} (h : execWrQueueNum v s = .next t) : RunningInv t := by
  unfold execWrQueueNum at h
  split at h
  next => exact .of_next h (hs.refuseWrite _)
  next i _ =>
    split at h
    next legal => exact .of_next h (hs.setQueue i (.withSize hs.inv.parameters legal (hs.inv.bank i))).busOk
    next => exact .of_next h (hs.refuseWrite _)

theorem execWrQueuePfn_runningInv {v : Word} (h : execWrQueuePfn v s = .next t) : RunningInv t := by
  unfold execWrQueuePfn at h
  split at h
  next => exact .of_next h (hs.refuseWrite _)
  next i _ => exact .of_next h (hs.setQueue i ((hs.inv.bank i).withDescAddr _)).busOk

theorem execWrQueueNotify_runningInv {v : Word} (h : execWrQueueNotify v s = .next t) : RunningInv t := by
  unfold execWrQueueNotify at h
  split at h
  next => exact .of_next h (hs.refuseWrite _)
  next i _ =>
    split at h
    next notOperational => exact .of_next h (hs.refuseWrite _)
    next =>
      split at h
      next notConfigured => exact .of_next h (hs.refuseWrite _)
      next =>
        split at h
        next u hu => exact .of_next h ((processQueue_step hu).runningInv hs).busOk
        next => cases h

theorem execEvtHostRxReady_runningInv (h : execEvtHostRxReady s = .next t) : RunningInv t := by
  unfold execEvtHostRxReady at h
  split at h
  next ignored => exact .of_next h hs
  next =>
    split at h
    next u hu => exact .of_next h ((pumpRx_step hu).runningInv hs)
    next => cases h

/-! ## Every operation, every step -/

theorem exec_runningInv {i : Instr} (h : exec i s = .next t) : RunningInv t := by
  cases i with
  | rdMagic | rdVersion | rdDeviceId | rdVendorId | rdHostFeatures | rdQueueNumMax | rdQueuePfn
  | rdInterruptStatus | rdStatus => exact .of_next h (hs.of_unread rfl)
  | wrHostFeaturesSel v | wrGuestFeatures v | wrGuestFeaturesSel v | wrGuestPageSize v | wrQueueSel v
  | wrQueueAlign v => exact .of_next h (hs.of_unread rfl)
  | wrInterruptAck v => exact .of_next h (hs.ackInterrupt v).busOk
  | wrConfig k n | invalidAccess dir o len => exact .of_next h (hs.raiseRegisterError ..)
  | wrQueueNum v => exact execWrQueueNum_runningInv hs h
  | wrQueuePfn v => exact execWrQueuePfn_runningInv hs h
  | wrQueueNotify v => exact execWrQueueNotify_runningInv hs h
  | wrStatus v => exact .of_next h (hs.writeStatus _).busOk
  | rdConfig k n => exact execRdConfig_runningInv hs h
  | evtHostRxReady => exact execEvtHostRxReady_runningInv hs h
  | evtPowerOn =>
    obtain ⟨-, rfl⟩ := execEvtPowerOn_next h
    exact hs.powerOn

end operations

theorem beginOp_runningInv {s : State} (h : s.Inv) (image : List Byte) (rest : List Input) :
    RunningInv (beginOp s image rest) where
  inv := { h with fresh := fun h0 => nomatch h0 }
  begun := Nat.succ_ne_zero s.opsBegun

/-- A store of the guest between two operations changes memory alone, also before the first of them. -/
theorem guestWrites_inv {s : State} (h : s.Inv) (g : GuestStore) (rest : List Input) :
    (guestWrites s g rest).Inv :=
  { h with
    memory := writeBytes_wf g.bytes g.addr h.memory
    fresh := fun h0 => congrArg (guestWrites · g rest) (h.fresh h0) }

theorem hostQueues_inv {s : State} (h : s.Inv) {item : RxItem} (hitem : rxItemOk s.cfg item = true)
    (rest : List Input) : (hostQueues s item rest).Inv :=
  { h with
    fresh := fun h0 => congrArg (hostQueues · item rest) (h.fresh h0)
    frames := by
      intro other hother
      obtain hwaiting | hnew := List.mem_append.mp hother
      · exact h.frames other hwaiting
      · rw [List.mem_singleton.mp hnew]; exact hitem }

/-- Settles O57, by the kinds of step: an operation runs in a state in which it has begun, and there every shared
update and every drain keeps the invariant. -/
theorem everyStepKeepsTheInvariant : Obligations.EveryStepKeepsTheInvariant := by
  intro s t hs h
  obtain rfl | ⟨image, rest, i, -, -, hexec⟩ | ⟨g, rest, -, rfl⟩ | ⟨item, rest, -, hok, rfl⟩ := step_cases h
  · exact hs
  · exact (exec_runningInv (beginOp_runningInv hs image rest) hexec).inv
  · exact guestWrites_inv hs g rest
  · exact hostQueues_inv hs hok rest

end Sys2Proof.Machine
end

