-- ==== Sys2Proof/Proofs/Diagnostics.lean ====
section
/-! No rule reads the diagnostics (spec/10_state.md R31): two states that differ in the counters and the error record
only (log 18) are carried by every operation into two such states. -/

namespace Sys2Proof.Machine

/-- The two states are the same up to their diagnostics. -/
def SameView (s t : State) : Prop := hideDiagnostics s = hideDiagnostics t

namespace SameView

variable {s t : State} (h : SameView s t)

include h

theorem cfg : s.cfg = t.cfg := congrArg (·.cfg) h
theorem status : s.status = t.status := congrArg (·.status) h
theorem operational : s.operational = t.operational := congrArg (·.operational) h
theorem failedByDevice : s.failedByDevice = t.failedByDevice := congrArg (·.failedByDevice) h
theorem pageSize : s.pageSize = t.pageSize := congrArg (·.pageSize) h
theorem queueSel : s.queueSel = t.queueSel := congrArg (·.queueSel) h
theorem interruptStatus : s.interruptStatus = t.interruptStatus := congrArg (·.interruptStatus) h
theorem configSpace : s.configSpace = t.configSpace := congrArg (·.configSpace) h
theorem mem : s.mem = t.mem := congrArg (·.mem) h
theorem race : s.race = t.race := congrArg (·.race) h
theorem rxPort : s.rxPort = t.rxPort := congrArg (·.rxPort) h
theorem txAnswers : s.txAnswers = t.txAnswers := congrArg (·.txAnswers) h
theorem opsBegun : s.opsBegun = t.opsBegun := congrArg (·.opsBegun) h

theorem queue (i : QueueId) : s.queue i = t.queue i := by
  cases i with
  | rx => exact congrArg (·.rxq) h
  | tx => exact congrArg (·.txq) h

/-- An update whose effect on the rest of the state does not depend on the diagnostics. -/
theorem map {f : State → State} (hf : ∀ u, hideDiagnostics (f u) = hideDiagnostics (f (hideDiagnostics u))) :
    SameView (f s) (f t) := by
  have hst : hideDiagnostics s = hideDiagnostics t := h
  rw [SameView, hf s, hf t, hst]

end SameView

/-- The two results are of one kind, with the same answer or the same fault, in states that are the same up to their
diagnostics. -/
inductive Res.SameView {α : Type} : Res α → Res α → Prop where
  | ok (a : α) {s t : State} (h : Machine.SameView s t) : SameView (.ok a s) (.ok a t)
  | fault (a n : Nat) {s t : State} (h : Machine.SameView s t) : SameView (.fault a n s) (.fault a n t)

theorem Res.SameView.bind {α β : Type} {r r' : Res α} {f f' : α → State → Res β} (h : r.SameView r')
    (hf : ∀ a s t, Machine.SameView s t → (f a s).SameView (f' a t)) : (r.bind f).SameView (r'.bind f') := by
  cases h with
  | ok a h => exact hf a _ _ h
  | fault a n h => exact .fault a n h

/-! ## The shared updates -/

section updates

variable {s t : State} (h : SameView s t)

include h

theorem setQueue_sameView (i : QueueId) (q : Queue) : SameView (s.setQueue i q) (t.setQueue i q) := by
  cases i with
  | rx => exact h.map (f := (·.setQueue .rx q)) fun _ => rfl
  | tx => exact h.map (f := (·.setQueue .tx q)) fun _ => rfl

theorem availAdvance_sameView (i : QueueId) : SameView (availAdvance i s) (availAdvance i t) := by
  rw [availAdvance, availAdvance, h.queue i]
  exact setQueue_sameView h i _

theorem usedAdvance_sameView (i : QueueId) : SameView (usedAdvance i s) (usedAdvance i t) := by
  rw [usedAdvance, usedAdvance, h.queue i]
  exact setQueue_sameView h i _

theorem countMalformedChain_sameView (head : Half) :
    SameView (countMalformedChain head s) (countMalformedChain head t) := h.map fun _ => rfl

theorem countOversizedFrame_sameView (n c : Nat) :
    SameView (countOversizedFrame n c s) (countOversizedFrame n c t) := h.map fun _ => rfl

theorem countHostIoError_sameView : SameView (countHostIoError s) (countHostIoError t) := h.map fun _ => rfl

theorem deviceFail_sameView (a n : Nat) : SameView (deviceFail a n s) (deviceFail a n t) := h.map fun _ => rfl

theorem raiseIrq_sameView (i : QueueId) : SameView (raiseIrq i s) (raiseIrq i t) := by
  unfold raiseIrq
  rw [h.cfg, h.interruptStatus]
  split
  next edge => exact h.map (f := fun u => State.emit { u with cfg := _, interruptStatus := _ } _) fun _ => rfl
  next => exact h.map (f := fun u => { u with cfg := _, interruptStatus := _ }) fun _ => rfl

theorem guestTurn_sameView : SameView (guestTurn s) (guestTurn t) := by
  unfold guestTurn
  rw [h.race, h.mem]
  split
  next => exact h
  next turn race _ => exact h.map (f := fun u => { u with race := race, mem := _ }) fun _ => rfl

/-! ## Accesses to guest memory -/

theorem memRead_sameView (a : Dword) (n : Nat) : (memRead a n s).SameView (memRead a n t) := by
  have hturn := guestTurn_sameView h
  unfold memRead
  rw [accessOk_cfg h.cfg, hturn.mem]
  split
  next => exact .ok _ h
  next =>
    split
    next => exact .ok _ hturn
    next => exact .fault _ _ h

theorem memWrite_sameView (a : Dword) (bs : List Byte) : (memWrite a bs s).SameView (memWrite a bs t) := by
  have hturn := guestTurn_sameView h
  unfold memWrite
  rw [accessOk_cfg h.cfg, hturn.mem]
  split
  next => exact .ok _ h
  next =>
    split
    next => exact .ok _ (hturn.map (f := fun u => { u with mem := _ }) fun _ => rfl)
    next => exact .fault _ _ h

theorem memReadTorn_sameView (ps : List Piece) (a : Dword) (n : Nat) :
    (memReadTorn ps a n s).SameView (memReadTorn ps a n t) := by
  unfold memReadTorn
  rw [accessOk_cfg h.cfg, h.mem, h.race]
  split
  next => exact .ok _ h
  next =>
    split
    next =>
      split
      next quiet => exact .ok _ h
      next => exact .ok _ (h.map (f := fun u => { u with mem := _, race := _ }) fun _ => rfl)
    next => exact .fault _ _ h

theorem memWriteTorn_sameView (a : Dword) (bs : List Byte) :
    (memWriteTorn a bs s).SameView (memWriteTorn a bs t) := by
  unfold memWriteTorn
  rw [accessOk_cfg h.cfg, h.mem, h.race]
  split
  next => exact .ok _ h
  next =>
    split
    next =>
      split
      next quiet => exact .ok _ (h.map (f := fun u => { u with mem := _, race := _ }) fun _ => rfl)
      next => exact .ok _ (h.map (f := fun u => { u with mem := _, race := _ }) fun _ => rfl)
    next => exact .fault _ _ h

theorem memRead16_sameView (a : Dword) : (memRead16 a s).SameView (memRead16 a t) :=
  (memRead_sameView h a 2).bind fun _ _ _ h => .ok _ h

theorem memWrite16_sameView (a : Dword) (v : Half) : (memWrite16 a v s).SameView (memWrite16 a v t) :=
  memWrite_sameView h a _

theorem memWrite32_sameView (a : Dword) (v : Word) : (memWrite32 a v s).SameView (memWrite32 a v t) :=
  memWrite_sameView h a _

/-! ## Rings and chains -/

theorem descRead_sameView (i : QueueId) (k : Half) : (descRead i k s).SameView (descRead i k t) := by
  rw [descRead, descRead, h.queue i]
  exact (memReadTorn_sameView h _ _ _).bind fun _ _ _ h => .ok _ h

omit h in
theorem walkFrom_sameView (i : QueueId) (n rem : Nat) : ∀ (k : Half) (first : Bool) {s t : State},
    SameView s t → (walkFrom i n rem k first s).SameView (walkFrom i n rem k first t) := by
  induction rem with
  | zero => exact fun _ _ _ _ h => .ok none h
  | succ rem ih =>
    intro k first s t h
    refine (descRead_sameView h i k).bind fun d s t h => ?_
    rw [h.cfg]
    split
    next tooShort => exact .ok none h
    next =>
      split
      next last => exact .ok _ h
      next =>
        split
        next outOfTable => exact .ok none h
        next => exact (ih d.next false h).bind fun _ _ _ h => .ok _ h

theorem walkChain_sameView (i : QueueId) (head : Half) : (walkChain i head s).SameView (walkChain i head t) := by
  unfold walkChain
  rw [h.queue i]
  split
  next => exact .ok none h
  next => exact walkFrom_sameView i _ _ head true h

theorem availPending_sameView (i : QueueId) : (availPending i s).SameView (availPending i t) := by
  unfold availPending
  rw [h.queue i]
  refine (memRead16_sameView h _).bind fun idx s t h => ?_
  rw [h.queue i]
  exact .ok _ h

theorem availPeek_sameView (i : QueueId) : (availPeek i s).SameView (availPeek i t) := by
  rw [availPeek, availPeek, h.queue i]
  exact memRead16_sameView h _

theorem notifyDisable_sameView (i : QueueId) : (notifyDisable i s).SameView (notifyDisable i t) := by
  rw [notifyDisable, notifyDisable, h.queue i]
  exact memWrite16_sameView (setQueue_sameView h i _) _ _

theorem notifyEnable_sameView (i : QueueId) : (notifyEnable i s).SameView (notifyEnable i t) := by
  rw [notifyEnable, notifyEnable, h.queue i]
  exact memWrite16_sameView (setQueue_sameView h i _) _ _

theorem reArm_sameView (i : QueueId) : (reArm i s).SameView (reArm i t) := by
  refine (notifyEnable_sameView h i).bind fun _ s t h => ?_
  refine (availPending_sameView h i).bind fun raced s t h => ?_
  cases raced with
  | true => exact (notifyDisable_sameView h i).bind fun _ _ _ h => .ok true h
  | false => exact .ok false h

theorem usedPost_sameView (i : QueueId) (head : Half) (n : Word) :
    (usedPost i head n s).SameView (usedPost i head n t) := by
  unfold usedPost
  rw [h.queue i]
  refine (memWrite32_sameView h _ _).bind fun _ s t h => ?_
  rw [h.queue i]
  refine (memWrite32_sameView h _ _).bind fun _ s t h => ?_
  rw [h.queue i]
  exact memWrite16_sameView (usedAdvance_sameView h i) _ _

theorem maybeNotify_sameView (i : QueueId) : (maybeNotify i s).SameView (maybeNotify i t) := by
  unfold maybeNotify
  rw [h.queue i]
  split
  next => exact .ok () h
  next =>
    refine (memRead16_sameView (setQueue_sameView h i _) _).bind fun flags s t h => ?_
    split
    next suppressed => exact .ok () h
    next => exact .ok () (raiseIrq_sameView h i)

/-! ## Transfers -/

omit h in
theorem rxCopy_sameView (frame : List Byte) (chain : List Desc) : ∀ (cursor : Nat) {s t : State},
    SameView s t → (rxCopy frame chain cursor s).SameView (rxCopy frame chain cursor t) := by
  induction chain with
  | nil => exact fun cursor _ _ h => .ok cursor h
  | cons d ds ih =>
    intro cursor s t h
    unfold rxCopy
    split
    next whole => exact .ok cursor h
    next => exact (memWriteTorn_sameView h _ _).bind fun _ _ _ h => ih _ h

theorem rxTransfer_sameView (chain : List Desc) (frame : List Byte) :
    (rxTransfer chain frame s).SameView (rxTransfer chain frame t) := by
  refine (rxCopy_sameView frame chain 0 h).bind fun cursor s t h => ?_
  split
  next oversized => exact .ok cursor (countOversizedFrame_sameView h _ _)
  next => exact .ok cursor h

omit h in
theorem txGather_sameView (chain : List Desc) : ∀ {s t : State},
    SameView s t → (txGather chain s).SameView (txGather chain t) := by
  induction chain with
  | nil => exact fun h => .ok [] h
  | cons d ds ih =>
    intro s t h
    exact (memReadTorn_sameView h _ _ _).bind fun _ _ _ h => (ih h).bind fun _ _ _ h => .ok _ h

theorem pushFrame_sameView (bytes : List Byte) : SameView (pushFrame bytes s) (pushFrame bytes t) := by
  have hpushed : SameView (hostTxPush bytes s).2 (hostTxPush bytes t).2 :=
    h.map (f := fun u => (hostTxPush bytes u).2) fun _ => rfl
  unfold pushFrame
  rw [hostTxPush, hostTxPush] at hpushed ⊢
  rw [h.txAnswers] at hpushed ⊢
  cases nextTxAnswer t.txAnswers with
  | ok => exact hpushed
  | error => exact countHostIoError_sameView hpushed

theorem txTransfer_sameView (chain : List Desc) : (txTransfer chain s).SameView (txTransfer chain t) :=
  (txGather_sameView chain h).bind fun bytes _ _ h => .ok () (pushFrame_sameView h bytes)

/-! ## The drains -/

theorem txChain_sameView : (txChain s).SameView (txChain t) := by
  refine (availPeek_sameView h .tx).bind fun head s t h => ?_
  refine (walkChain_sameView (availAdvance_sameView h .tx) .tx head).bind fun chain s t h => ?_
  cases chain with
  | none => exact .ok () (countMalformedChain_sameView h head)
  | some list =>
    refine (txTransfer_sameView h list).bind fun _ s t h => ?_
    rw [h.cfg]
    exact usedPost_sameView h .tx head _

theorem rxDeliver_sameView (head : Half) (list : List Desc) :
    (rxDeliver head list s).SameView (rxDeliver head list t) := by
  unfold rxDeliver hostRxPop
  rw [h.rxPort]
  cases t.rxPort with
  | nil => exact .ok false h
  | cons item rest =>
    have hpopped : SameView { s with rxPort := rest } { t with rxPort := rest } :=
      h.map (f := fun u => { u with rxPort := rest }) fun _ => rfl
    cases item with
    | error =>
      exact (notifyEnable_sameView (countHostIoError_sameView hpopped) .rx).bind fun _ _ _ h => .ok false h
    | frame bytes =>
      refine (rxTransfer_sameView (availAdvance_sameView hpopped .rx) list bytes).bind fun n s t h => ?_
      exact (usedPost_sameView h .rx head _).bind fun _ _ _ h => .ok true h

theorem rxChain_sameView : (rxChain s).SameView (rxChain t) := by
  refine (availPeek_sameView h .rx).bind fun head s t h => ?_
  refine (walkChain_sameView h .rx head).bind fun chain s t h => ?_
  cases chain with
  | none => exact .ok true (countMalformedChain_sameView (availAdvance_sameView h .rx) head)
  | some list => exact rxDeliver_sameView h head list

omit h in
theorem txLoop_sameView (fuel : Nat) : ∀ {s t : State}, SameView s t →
    Option.Rel Res.SameView (txLoop fuel s) (txLoop fuel t) := by
  induction fuel with
  | zero => exact fun _ => .none
  | succ fuel ih =>
    intro s t h
    have hpending := availPending_sameView h .tx
    unfold txLoop
    generalize availPending .tx s = r, availPending .tx t = r' at hpending
    cases hpending with
    | fault a n h => exact .some (.fault a n h)
    | @ok pending s t h =>
      cases pending with
      | true =>
        have hchain := txChain_sameView h
        dsimp only
        generalize txChain s = r, txChain t = r' at hchain
        cases hchain with
        | fault a n h => exact .some (.fault a n h)
        | ok _ h => exact ih h
      | false =>
        have hrearmed := reArm_sameView h .tx
        dsimp only
        generalize reArm .tx s = r, reArm .tx t = r' at hrearmed
        cases hrearmed with
        | fault a n h => exact .some (.fault a n h)
        | ok raced h =>
          cases raced with
          | true => exact ih h
          | false => exact .some (.ok () h)

omit h in
theorem rxLoop_sameView (fuel : Nat) : ∀ {s t : State}, SameView s t →
    Option.Rel Res.SameView (rxLoop fuel s) (rxLoop fuel t) := by
  induction fuel with
  | zero => exact fun _ => .none
  | succ fuel ih =>
    intro s t h
    have hpending := availPending_sameView h .rx
    unfold rxLoop
    rw [hostRxReady, hostRxReady, h.rxPort]
    split
    next noFrame => exact .some (notifyEnable_sameView h .rx)
    next =>
      generalize availPending .rx s = r, availPending .rx t = r' at hpending
      cases hpending with
      | fault a n h => exact .some (.fault a n h)
      | @ok pending s t h =>
        cases pending with
        | false =>
          have hrearmed := reArm_sameView h .rx
          dsimp only
          generalize reArm .rx s = r, reArm .rx t = r' at hrearmed
          cases hrearmed with
          | fault a n h => exact .some (.fault a n h)
          | ok raced h =>
            cases raced with
            | true => exact ih h
            | false => exact .some (.ok () h)
        | true =>
          have hchain := rxChain_sameView h
          dsimp only
          generalize rxChain s = r, rxChain t = r' at hchain
          cases hchain with
          | fault a n h => exact .some (.fault a n h)
          | ok more h =>
            cases more with
            | true => exact ih h
            | false => exact .some (.ok () h)

omit h in
theorem endDrain_sameView (i : QueueId) {r r' : Option (Res Unit)} (hr : Option.Rel Res.SameView r r') :
    Option.Rel SameView (endDrain i r) (endDrain i r') := by
  cases hr with
  | none => exact .none
  | some hend =>
    cases hend with
    | fault a n h => exact .some (deviceFail_sameView h a n)
    | @ok _ s t h =>
      have hnotified := maybeNotify_sameView h i
      unfold endDrain
      dsimp only
      generalize maybeNotify i s = r, maybeNotify i t = r' at hnotified
      cases hnotified with
      | fault a n h => exact .some (deviceFail_sameView h a n)
      | ok _ h => exact .some h

theorem drainFuel_sameView : drainFuel s = drainFuel t := by
  rw [drainFuel, drainFuel, h.race, h.rxPort]

theorem processTx_sameView : Option.Rel SameView (processTx s) (processTx t) := by
  have hdisabled := notifyDisable_sameView h .tx
  unfold processTx
  generalize notifyDisable .tx s = r, notifyDisable .tx t = r' at hdisabled
  cases hdisabled with
  | fault a n h => exact .some (deviceFail_sameView h a n)
  | ok _ h =>
    dsimp only
    rw [drainFuel_sameView h]
    exact endDrain_sameView .tx (txLoop_sameView _ h)

theorem pumpRx_sameView : Option.Rel SameView (pumpRx s) (pumpRx t) := by
  have hdisabled := notifyDisable_sameView h .rx
  unfold pumpRx
  generalize notifyDisable .rx s = r, notifyDisable .rx t = r' at hdisabled
  cases hdisabled with
  | fault a n h => exact .some (deviceFail_sameView h a n)
  | ok _ h =>
    dsimp only
    rw [drainFuel_sameView h]
    exact endDrain_sameView .rx (rxLoop_sameView _ h)

theorem processQueue_sameView (i : QueueId) : Option.Rel SameView (processQueue i s) (processQueue i t) := by
  cases i with
  | rx => exact pumpRx_sameView h
  | tx => exact processTx_sameView h

/-! ## The operations with a branch -/

theorem busOk_sameView : SameView (busOk s) (busOk t) := h.map fun _ => rfl

theorem refuseWrite_sameView (r : Reg) : SameView (refuseWrite r s) (refuseWrite r t) :=
  h.map (f := refuseWrite r) fun _ => rfl

theorem hideOutcome_next : hideOutcome (.next s) = hideOutcome (.next t) :=
  congrArg Host.Outcome.next h

theorem activates_sameView (b : Byte) : activates s b = activates t b := by
  rw [activates, activates, h.status, h.operational, h.failedByDevice]

theorem writeStatus_sameView (b : Byte) : SameView (writeStatus b s) (writeStatus b t) := by
  unfold writeStatus
  rw [activates_sameView h]
  split
  next reset => exact h.map fun _ => rfl
  next =>
    split
    next failed => exact h.map (f := fun u => { deviceReset u with status := b }) fun _ => rfl
    next =>
      split
      next active => exact h.map (f := fun u => activate { u with status := b }) fun _ => rfl
      next => exact h.map (f := fun u => { u with status := b }) fun _ => rfl

theorem execRdConfig_sameView (k : Offset) (n : Nat) :
    hideOutcome (execRdConfig k n s) = hideOutcome (execRdConfig k n t) := by
  unfold execRdConfig
  rw [h.cfg, h.configSpace]
  split
  next inside => exact hideOutcome_next (h.map (f := busRead _) fun _ => rfl)
  next => exact hideOutcome_next (h.map (f := raiseRegisterError _ _ _) fun _ => rfl)

theorem execWrQueueNum_sameView (v : Word) :
    hideOutcome (execWrQueueNum v s) = hideOutcome (execWrQueueNum v t) := by
  unfold execWrQueueNum
  rw [h.cfg, h.queueSel]
  split
  next => exact hideOutcome_next (refuseWrite_sameView h _)
  next i _ =>
    rw [h.queue i]
    split
    next legal => exact hideOutcome_next (busOk_sameView (setQueue_sameView h i _))
    next => exact hideOutcome_next (refuseWrite_sameView h _)

theorem execWrQueuePfn_sameView (v : Word) :
    hideOutcome (execWrQueuePfn v s) = hideOutcome (execWrQueuePfn v t) := by
  unfold execWrQueuePfn
  rw [h.cfg, h.queueSel, h.pageSize]
  split
  next => exact hideOutcome_next (refuseWrite_sameView h _)
  next i _ =>
    rw [h.queue i]
    exact hideOutcome_next (busOk_sameView (setQueue_sameView h i _))

theorem execWrQueueNotify_sameView (v : Word) :
    hideOutcome (execWrQueueNotify v s) = hideOutcome (execWrQueueNotify v t) := by
  unfold execWrQueueNotify
  rw [h.cfg, h.operational]
  split
  next => exact hideOutcome_next (refuseWrite_sameView h _)
  next i _ =>
    rw [h.queue i]
    split
    next notOperational => exact hideOutcome_next (refuseWrite_sameView h _)
    next =>
      split
      next notConfigured => exact hideOutcome_next (refuseWrite_sameView h _)
      next =>
        have hdrained := processQueue_sameView h i
        generalize processQueue i s = r, processQueue i t = r' at hdrained
        cases hdrained with
        | none => rfl
        | some h => exact hideOutcome_next (busOk_sameView h)

theorem execEvtHostRxReady_sameView :
    hideOutcome (execEvtHostRxReady s) = hideOutcome (execEvtHostRxReady t) := by
  unfold execEvtHostRxReady
  rw [h.operational, ← queue_rx, ← queue_rx, h.queue .rx]
  split
  next ignored => exact hideOutcome_next h
  next =>
    have hpumped := pumpRx_sameView h
    generalize pumpRx s = r, pumpRx t = r' at hpumped
    cases hpumped with
    | none => rfl
    | some h => exact hideOutcome_next h

theorem execEvtPowerOn_sameView : hideOutcome (execEvtPowerOn s) = hideOutcome (execEvtPowerOn t) := by
  unfold execEvtPowerOn
  rw [h.opsBegun, h.cfg]
  split
  next notFirst => rfl
  next =>
    split
    next badConfiguration => rfl
    next =>
      split
      next extraFeatures => rfl
      next => exact hideOutcome_next (h.map fun _ => rfl)

end updates

/-! ## Every operation -/

theorem sameView_hideDiagnostics (s : State) : SameView s (hideDiagnostics s) := rfl

/-- Settles O60: an operation without a branch shows it by computation, and the others carry states that are the same
up to their diagnostics into such states, the drains by induction on their fuel. -/
theorem diagnosticsAreNeverRead : Obligations.DiagnosticsAreNeverRead := by
  intro i s
  have h := sameView_hideDiagnostics s
  cases i with
  | rdMagic | rdVersion | rdDeviceId | rdVendorId | rdHostFeatures | rdQueueNumMax | rdQueuePfn
  | rdInterruptStatus | rdStatus => rfl
  | wrHostFeaturesSel v | wrGuestFeatures v | wrGuestFeaturesSel v | wrGuestPageSize v | wrQueueSel v
  | wrQueueAlign v | wrInterruptAck v => rfl
  | wrConfig k n | invalidAccess dir o len => rfl
  | wrQueueNum v => exact execWrQueueNum_sameView h v
  | wrQueuePfn v => exact execWrQueuePfn_sameView h v
  | wrQueueNotify v => exact execWrQueueNotify_sameView h v
  | wrStatus v => exact hideOutcome_next (busOk_sameView (writeStatus_sameView h _))
  | rdConfig k n => exact execRdConfig_sameView h k n
  | evtHostRxReady => exact execEvtHostRxReady_sameView h
  | evtPowerOn => exact execEvtPowerOn_sameView h

end Sys2Proof.Machine
end

