-- ==== Sys2Proof/Proofs/RepeatedWrites.lean ====
section
/-! The register writes that are idempotent (spec/20_memory.md R51). -/

namespace Sys2Proof.Machine

/-! ## What each write stores, stored again -/

theorem setFeatureHalf_setFeatureHalf (sel : Word) (f : Dword) (v : Word) :
    setFeatureHalf sel (setFeatureHalf sel f v) v = setFeatureHalf sel f v := by
  unfold setFeatureHalf
  split
  next low => rw [BitVec.extractLsb'_append_eq_left]
  next =>
    split
    next high => rw [BitVec.extractLsb'_append_eq_right]
    next neither => rfl

theorem ackBits_ackBits (old named : Word) : ackBits (ackBits old named) named = ackBits old named := by
  rw [ackBits, ackBits, BitVec.and_assoc, BitVec.and_self]

theorem withSize_withSize (align : Nat) (v : Word) (q : Queue) :
    withSize align v (withSize align v q) = withSize align v q := by
  by_cases unset : q.descAddr = 0#64
  · simp only [withSize, if_pos unset]
  · have placed : (placeRings align { q with size := v.extractLsb' 0 16 }).descAddr ≠ 0#64 := unset
    rw [withSize, withSize, if_neg unset, if_neg placed]
    rfl

theorem withDescAddr_withDescAddr (align : Nat) (a : Dword) (q : Queue) :
    withDescAddr align a (withDescAddr align a q) = withDescAddr align a q := by
  unfold withDescAddr
  split
  next unconfigured => rfl
  next placed => rfl

/-- A bank stored again in the state its own store left. -/
theorem busOk_setQueue_again (s : State) (i : QueueId) (q : Queue) :
    busOk ((busOk (s.setQueue i q)).setQueue i q) = busOk (s.setQueue i q) := by
  cases i <;> rfl

/-! ## The two writes that can be rejected -/

theorem refuseWrite_not_ok (r : Reg) (s : State) : (refuseWrite r s).busOutcome ≠ some .ok := nofun

theorem execWrQueueNum_of_legal {v : Word} {s : State} {i : QueueId} (hi : queueOf s.cfg s.queueSel = some i)
    (hv : legalQueueNum s.cfg v = true) :
    execWrQueueNum v s = .next (busOk (s.setQueue i (withSize s.cfg.queueAlign v (s.queue i)))) := by
  simp only [execWrQueueNum, hi, if_pos hv]

/-- A QueueNum write that answers Ok named a queue and a legal size (R123). -/
theorem execWrQueueNum_ok {v : Word} {s t : State} (h : execWrQueueNum v s = .next t)
    (hok : t.busOutcome = some .ok) :
    ∃ i, queueOf s.cfg s.queueSel = some i ∧ legalQueueNum s.cfg v = true
      ∧ t = busOk (s.setQueue i (withSize s.cfg.queueAlign v (s.queue i))) := by
  unfold execWrQueueNum at h
  split at h
  next => cases h; exact absurd hok (refuseWrite_not_ok _ s)
  next i hi =>
    split at h
    next hv => cases h; exact ⟨i, hi, hv, rfl⟩
    next => cases h; exact absurd hok (refuseWrite_not_ok _ s)

theorem execWrQueuePfn_of_selected {v : Word} {s : State} {i : QueueId} (hi : queueOf s.cfg s.queueSel = some i) :
    execWrQueuePfn v s =
      .next (busOk (s.setQueue i (withDescAddr s.cfg.queueAlign (pageAddr v s.pageSize) (s.queue i)))) := by
  simp only [execWrQueuePfn, hi]

/-- A QueuePfn write that answers Ok named a queue (R126). -/
theorem execWrQueuePfn_ok {v : Word} {s t : State} (h : execWrQueuePfn v s = .next t)
    (hok : t.busOutcome = some .ok) :
    ∃ i, queueOf s.cfg s.queueSel = some i
      ∧ t = busOk (s.setQueue i (withDescAddr s.cfg.queueAlign (pageAddr v s.pageSize) (s.queue i))) := by
  unfold execWrQueuePfn at h
  split at h
  next => cases h; exact absurd hok (refuseWrite_not_ok _ s)
  next i hi => cases h; exact ⟨i, hi, rfl⟩

/-! ## The writes repeated -/

theorem execWrGuestFeatures_again {v : Word} {s t : State} (h : execWrGuestFeatures v s = .next t) :
    execWrGuestFeatures v t = .next t := by
  cases h
  simp only [execWrGuestFeatures, busOk, setFeatureHalf_setFeatureHalf]

theorem execWrInterruptAck_again {v : Word} {s t : State} (h : execWrInterruptAck v s = .next t) :
    execWrInterruptAck v t = .next t := by
  cases h
  simp only [execWrInterruptAck, busOk, ackBits_ackBits]

theorem execWrQueueNum_again {v : Word} {s t : State} (h : execWrQueueNum v s = .next t)
    (hok : t.busOutcome = some .ok) : execWrQueueNum v t = .next t := by
  obtain ⟨i, hi, hv, rfl⟩ := execWrQueueNum_ok h hok
  rw [execWrQueueNum_of_legal (i := i) (by simpa using hi) (by simpa using hv)]
  simp only [busOk_cfg, setQueue_cfg, busOk_queue, setQueue_queue_same, withSize_withSize, busOk_setQueue_again]

theorem execWrQueuePfn_again {v : Word} {s t : State} (h : execWrQueuePfn v s = .next t)
    (hok : t.busOutcome = some .ok) : execWrQueuePfn v t = .next t := by
  obtain ⟨i, hi, rfl⟩ := execWrQueuePfn_ok h hok
  rw [execWrQueuePfn_of_selected (i := i) (by simpa using hi)]
  simp only [busOk_cfg, setQueue_cfg, busOk_pageSize, setQueue_pageSize, busOk_queue, setQueue_queue_same,
    withDescAddr_withDescAddr, busOk_setQueue_again]

/-- Settles O11, register by register: a plain store repeats by computation, the others because what they store is
idempotent and, where the write can be rejected, because it was not. -/
theorem repeatedWritesAreIdempotent : Obligations.RepeatedWritesAreIdempotent := by
  intro v i s t hi h hok
  simp only [List.mem_cons, List.not_mem_nil, or_false] at hi
  rcases hi with rfl | rfl | rfl | rfl | rfl | rfl | rfl | rfl
  · cases h; rfl
  · cases h; rfl
  · exact execWrGuestFeatures_again h
  · cases h; rfl
  · cases h; rfl
  · exact execWrQueueNum_again h hok
  · exact execWrQueuePfn_again h hok
  · exact execWrInterruptAck_again h

end Sys2Proof.Machine
end

