-- ==== Sys2Proof/Proofs/WholeAccesses.lean ====
section
/-! Accesses to guest memory (spec/20_memory.md R43): one of no byte does nothing, a forbidden one faults with nothing
done, a permitted one completes. -/

namespace Sys2Proof.Machine

/-! ## Accesses of no byte -/

theorem memRead_zero (a : Dword) (s : State) : memRead a 0 s = .ok [] s := rfl

theorem memWrite_nil (a : Dword) (s : State) : memWrite a [] s = .ok () s := rfl

theorem memReadTorn_zero (ps : List Piece) (a : Dword) (s : State) : memReadTorn ps a 0 s = .ok [] s := rfl

theorem memWriteTorn_nil (a : Dword) (s : State) : memWriteTorn a [] s = .ok () s := rfl

/-! ## Which accesses are permitted -/

/-- `Mapped` and the bound of R43, written out (R45, log 26). -/
theorem accessOk_iff {s : State} {a : Dword} {n : Nat} :
    accessOk s a n = true ↔
      a.toNat + n ≤ 2 ^ 64 ∧ ∃ r ∈ s.cfg.regions, r.base ≤ a.toNat ∧ a.toNat + n ≤ r.base + r.size := by
  simp only [accessOk, mapped, Bool.and_eq_true, decide_eq_true_eq, List.any_eq_true]

/-- An access that runs past the address space or lies in no region is forbidden. -/
theorem accessOk_eq_false {s : State} {a : Dword} {n : Nat}
    (h : 2 ^ 64 < a.toNat + n ∨ ¬ ∃ r ∈ s.cfg.regions, r.base ≤ a.toNat ∧ a.toNat + n ≤ r.base + r.size) :
    accessOk s a n = false := by
  rw [← Bool.not_eq_true, accessOk_iff]
  rintro ⟨hbound, hregion⟩
  obtain hpast | hunmapped := h
  · omega
  · exact hunmapped hregion

section accesses

variable {s : State} {a : Dword} {n : Nat} {bs : List Byte}

/-! ## Forbidden accesses -/

theorem memRead_forbidden (hn : n ≠ 0) (h : accessOk s a n = false) : memRead a n s = .fault a.toNat n s := by
  rw [memRead, if_neg hn, h, if_neg Bool.false_ne_true]

theorem memReadTorn_forbidden (ps : List Piece) (hn : n ≠ 0) (h : accessOk s a n = false) :
    memReadTorn ps a n s = .fault a.toNat n s := by
  rw [memReadTorn, if_neg hn, h, if_neg Bool.false_ne_true]

theorem memWrite_forbidden (hbs : bs ≠ []) (h : accessOk s a bs.length = false) :
    memWrite a bs s = .fault a.toNat bs.length s := by
  rw [memWrite, if_neg hbs, h, if_neg Bool.false_ne_true]

theorem memWriteTorn_forbidden (hbs : bs ≠ []) (h : accessOk s a bs.length = false) :
    memWriteTorn a bs s = .fault a.toNat bs.length s := by
  rw [memWriteTorn, if_neg hbs, h, if_neg Bool.false_ne_true]

/-! ## Permitted accesses -/

theorem memRead_permitted (hn : n ≠ 0) (h : accessOk s a n = true) :
    memRead a n s = .ok (readBytes (guestTurn s).mem a n) (guestTurn s) := by
  rw [memRead, if_neg hn, if_pos h]

theorem memWrite_permitted (hbs : bs ≠ []) (h : accessOk s a bs.length = true) :
    memWrite a bs s = .ok () { guestTurn s with mem := writeBytes (guestTurn s).mem a bs } := by
  rw [memWrite, if_neg hbs, if_pos h]

/-- A read in pieces while the guest has turns left. -/
theorem memReadTorn_turns {ps : List Piece} {b : List Byte} {m : Memory} {race : List RaceTurn} (hn : n ≠ 0)
    (h : accessOk s a n = true) (hrace : s.race ≠ [])
    (hread : tornRead a s.race ps s.mem (List.replicate n 0#8) = (b, m, race)) :
    memReadTorn ps a n s = .ok b { s with mem := m, race := race } := by
  rw [memReadTorn, if_neg hn, if_pos h]
  split
  next hquiet => exact absurd hquiet hrace
  next => rw [hread]

/-- A write in pieces while the guest has turns left. -/
theorem memWriteTorn_turns {m : Memory} {race : List RaceTurn} (hbs : bs ≠ [])
    (h : accessOk s a bs.length = true) (hrace : s.race ≠ [])
    (hwrite : tornWrite a bs s.race (bytePieces bs.length) s.mem = (m, race)) :
    memWriteTorn a bs s = .ok () { s with mem := m, race := race } := by
  rw [memWriteTorn, if_neg hbs, if_pos h]
  split
  next hquiet => exact absurd hquiet hrace
  next => rw [hwrite]

/-- A permitted read in pieces answers, having changed nothing but memory and the turns. -/
theorem memReadTorn_permitted (ps : List Piece) (hn : n ≠ 0) (h : accessOk s a n = true) :
    ∃ b t, memReadTorn ps a n s = .ok b t ∧ t = { s with mem := t.mem, race := t.race } := by
  by_cases hrace : s.race = []
  · exact ⟨_, s, by rw [memReadTorn_quiet hrace ps a hn, if_pos h], rfl⟩
  · exact ⟨_, _, memReadTorn_turns hn h hrace rfl, rfl⟩

/-- A permitted write in pieces completes, having changed nothing but memory and the turns. -/
theorem memWriteTorn_permitted (hbs : bs ≠ []) (h : accessOk s a bs.length = true) :
    ∃ t, memWriteTorn a bs s = .ok () t ∧ t = { s with mem := t.mem, race := t.race } := by
  by_cases hrace : s.race = []
  · exact ⟨_, by rw [memWriteTorn_quiet hrace a hbs, if_pos h], rfl⟩
  · exact ⟨_, memWriteTorn_turns hbs h hrace rfl, rfl⟩

end accesses

/-- Settles O30: whether an access of some byte faults is decided by `accessOk` alone, for a single access as for one in
pieces. -/
theorem accessesSucceedWholeOrFault : Obligations.AccessesSucceedWholeOrFault := by
  intro s a n bs
  refine ⟨memRead_zero a s, memWrite_nil a s, fun ps => memReadTorn_zero ps a s, memWriteTorn_nil a s, ?_, ?_⟩
  · intro hn hbad
    have forbidden := accessOk_eq_false hbad
    refine ⟨memRead_forbidden hn forbidden, fun ps => memReadTorn_forbidden ps hn forbidden, ?_⟩
    rintro rfl
    have hbs : bs ≠ [] := List.ne_nil_of_length_pos (Nat.pos_of_ne_zero hn)
    exact ⟨memWrite_forbidden hbs forbidden, memWriteTorn_forbidden hbs forbidden⟩
  · intro hn hbound hregion
    have permitted := accessOk_iff.mpr ⟨hbound, hregion⟩
    refine ⟨memRead_permitted hn permitted, fun ps => memReadTorn_permitted ps hn permitted, ?_⟩
    rintro rfl
    have hbs : bs ≠ [] := List.ne_nil_of_length_pos (Nat.pos_of_ne_zero hn)
    exact ⟨memWrite_permitted hbs permitted, memWriteTorn_permitted hbs permitted⟩

end Sys2Proof.Machine
end

