-- ==== Sys2Proof/Proofs/TornAccesses.lean ====
section
/-! Accesses in pieces while the guest stores nothing (spec/20_memory.md R52, R54): its turns then only order the
pieces, and pieces that cover the access give the one access in every order. -/

namespace Sys2Proof.Machine

/-! ## The pieces in the order the turns pick -/

/-- The piece a turn picks, put back in front of the others, gives the same pieces. -/
theorem picked_cons_rest_perm (p : Piece) (ps : List Piece) (k : Nat) :
    ((p :: ps).getD (k % (ps.length + 1)) p :: (p :: ps).eraseIdx (k % (ps.length + 1))).Perm (p :: ps) := by
  have hk : k % (ps.length + 1) < (p :: ps).length := Nat.mod_lt k (Nat.succ_pos ps.length)
  rw [List.getD_eq_getElem _ _ hk]
  exact List.getElem_cons_eraseIdx_perm hk

/-- A read in pieces of memory the guest does not change reads the pieces in some order. -/
theorem tornRead_still (a : Dword) : ∀ (race : List RaceTurn) (ps : List Piece) (m : Memory) (acc : List Byte),
    (∀ turn ∈ race, turn.stores = []) →
    ∃ order : List Piece, order.Perm ps ∧
      tornRead a race ps m acc = (order.foldl (readPiece m a) acc, m, race.drop ps.length)
  | [], ps, m, acc, _ => ⟨ps, .refl ps, by rw [tornRead, List.drop_nil]⟩
  | _ :: _, [], _, _, _ => ⟨[], .refl [], rfl⟩
  | t :: race, p :: ps, m, acc, still => by
    have hstores : applyStores m t.stores = m := by rw [still t (List.mem_cons_self ..), applyStores]
    have hperm := picked_cons_rest_perm p ps t.pick
    obtain ⟨order, horder, hrest⟩ := tornRead_still a race ((p :: ps).eraseIdx (t.pick % (ps.length + 1))) m
      (readPiece m a acc ((p :: ps).getD (t.pick % (ps.length + 1)) p)) fun u hu => still u (.tail _ hu)
    have hlen := hperm.length_eq
    simp only [List.length_cons, Nat.add_right_cancel_iff] at hlen
    refine ⟨_ :: order, (horder.cons _).trans hperm, ?_⟩
    simp only [tornRead, hstores]
    rw [hrest, hlen, List.length_cons, List.drop_succ_cons, List.foldl_cons]

/-- A write in pieces into memory the guest does not change stores the pieces in some order. -/
theorem tornWrite_still (a : Dword) (bs : List Byte) : ∀ (race : List RaceTurn) (ps : List Piece) (m : Memory),
    (∀ turn ∈ race, turn.stores = []) →
    ∃ order : List Piece, order.Perm ps ∧
      tornWrite a bs race ps m = (order.foldl (writePiece a bs) m, race.drop ps.length)
  | [], ps, m, _ => ⟨ps, .refl ps, by rw [tornWrite, List.drop_nil]⟩
  | _ :: _, [], _, _ => ⟨[], .refl [], rfl⟩
  | t :: race, p :: ps, m, still => by
    have hstores : applyStores m t.stores = m := by rw [still t (List.mem_cons_self ..), applyStores]
    have hperm := picked_cons_rest_perm p ps t.pick
    obtain ⟨order, horder, hrest⟩ := tornWrite_still a bs race ((p :: ps).eraseIdx (t.pick % (ps.length + 1)))
      (writePiece a bs m ((p :: ps).getD (t.pick % (ps.length + 1)) p)) fun u hu => still u (.tail _ hu)
    have hlen := hperm.length_eq
    simp only [List.length_cons, Nat.add_right_cancel_iff] at hlen
    refine ⟨_ :: order, (horder.cons _).trans hperm, ?_⟩
    simp only [tornWrite, hstores]
    rw [hrest, hlen, List.length_cons, List.drop_succ_cons, List.foldl_cons]

/-! ## Pieces that make up an access -/

/-- Byte `j` of the access belongs to the piece. -/
def Piece.covers (p : Piece) (j : Nat) : Prop := p.off ≤ j ∧ j < p.off + p.len

/-- The pieces lie inside an access of `n` bytes and leave none of its bytes out. -/
structure MakesUp (n : Nat) (ps : List Piece) : Prop where
  inside : ∀ p ∈ ps, p.off + p.len ≤ n
  whole : ∀ j < n, ∃ p ∈ ps, p.covers j

theorem MakesUp.of_perm {n : Nat} {ps order : List Piece} (h : MakesUp n ps) (hperm : order.Perm ps) :
    MakesUp n order where
  inside := fun p hp => h.inside p (hperm.mem_iff.mp hp)
  whole := fun j hj =>
    have ⟨p, hp, hcovers⟩ := h.whole j hj
    ⟨p, hperm.mem_iff.mpr hp, hcovers⟩

theorem mem_bytePieces {n : Nat} {p : Piece} : p ∈ bytePieces n ↔ ∃ i < n, p = ⟨i, 1⟩ := by
  simp only [bytePieces, List.mem_map, List.mem_range, eq_comm]

theorem bytePieces_makesUp (n : Nat) : MakesUp n (bytePieces n) where
  inside := fun p hp => by
    obtain ⟨i, hi, rfl⟩ := mem_bytePieces.mp hp
    exact hi
  whole := fun j hj => ⟨⟨j, 1⟩, mem_bytePieces.mpr ⟨j, hj, rfl⟩, le_refl j, Nat.lt_succ_self j⟩

theorem descPieces_makesUp : MakesUp 16 descPieces where
  inside := by decide
  whole := by simp only [Piece.covers]; decide

/-! ## Reading the pieces -/

theorem overlay_length {acc bs : List Byte} {off : Nat} (h : off + bs.length ≤ acc.length) :
    (overlay acc off bs).length = acc.length := by
  simp only [overlay, List.length_append, List.length_take, List.length_drop]
  omega

/-- Byte `j` of a buffer after a part of it was replaced. -/
theorem overlay_getElem? {acc bs : List Byte} {off : Nat} (h : off + bs.length ≤ acc.length) (j : Nat) :
    (overlay acc off bs)[j]? = if off ≤ j ∧ j < off + bs.length then bs[j - off]? else acc[j]? := by
  have htake : (acc.take off).length = off := by rw [List.length_take]; omega
  by_cases hbefore : j < off
  · rw [overlay, List.append_assoc, List.getElem?_append_left (by omega), List.getElem?_take_of_lt hbefore,
      if_neg (by omega)]
  · rw [overlay, List.append_assoc, List.getElem?_append_right (by omega), htake]
    by_cases hin : j < off + bs.length
    · rw [List.getElem?_append_left (by omega), if_pos ⟨by omega, hin⟩]
    · rw [List.getElem?_append_right (by omega), List.getElem?_drop, if_neg (by omega)]
      congr 1
      omega

theorem readBytes_getElem? (m : Memory) (a : Dword) {n j : Nat} (h : j < n) :
    (readBytes m a n)[j]? = some (memGet m (a + BitVec.ofNat 64 j).toNat) := by
  rw [List.getElem?_eq_getElem (by rwa [readBytes_length]), readBytes_getElem]

section reading

variable {m : Memory} {a : Dword} {acc : List Byte} {p : Piece}

theorem readPiece_length (hp : p.off + p.len ≤ acc.length) : (readPiece m a acc p).length = acc.length :=
  overlay_length (by rwa [readBytes_length])

/-- Byte `j` of the buffer after a piece was read: the byte of the whole read where the piece covers it. -/
theorem readPiece_getElem? (hp : p.off + p.len ≤ acc.length) (j : Nat) :
    (p.covers j → (readPiece m a acc p)[j]? = (readBytes m a acc.length)[j]?)
      ∧ (¬ p.covers j → (readPiece m a acc p)[j]? = acc[j]?) := by
  rw [readPiece, overlay_getElem? (by rwa [readBytes_length]), readBytes_length]
  constructor
  · intro hj
    obtain ⟨hlo, hhi⟩ := hj
    rw [if_pos ⟨hlo, hhi⟩, readBytes_getElem? m _ (by omega), readBytes_getElem? m a (by omega), pieceAddr,
      BitVec.add_assoc, ← BitVec.ofNat_add, Nat.add_sub_cancel' hlo]
  · intro hj
    exact if_neg hj

/-- Reading pieces in turn gives the whole read, when every byte they do not cover is right already. -/
theorem foldl_readPiece : ∀ (ps : List Piece) (acc : List Byte),
    (∀ p ∈ ps, p.off + p.len ≤ acc.length) →
    (∀ j, (∃ p ∈ ps, p.covers j) ∨ acc[j]? = (readBytes m a acc.length)[j]?) →
    ps.foldl (readPiece m a) acc = readBytes m a acc.length
  | [], acc, _, hright => List.ext_getElem? fun j => (hright j).resolve_left (by simp)
  | p :: ps, acc, hinside, hright => by
    have hp := hinside p (List.mem_cons_self ..)
    have hlen : (readPiece m a acc p).length = acc.length := readPiece_length hp
    rw [List.foldl_cons, ← hlen]
    refine foldl_readPiece ps _ (fun q hq => hlen ▸ hinside q (.tail _ hq)) fun j => ?_
    obtain ⟨hread, hkept⟩ := readPiece_getElem? (m := m) (a := a) hp j
    rw [hlen]
    by_cases hj : p.covers j
    · exact .inr (hread hj)
    · obtain ⟨q, hq, hcovers⟩ | hacc := hright j
      · obtain rfl | hq := List.mem_cons.mp hq
        · exact absurd hcovers hj
        · exact .inl ⟨q, hq, hcovers⟩
      · exact .inr ((hkept hj).trans hacc)

theorem MakesUp.foldl_readPiece {n : Nat} {ps : List Piece} (h : MakesUp n ps) (hacc : acc.length = n) :
    ps.foldl (readPiece m a) acc = readBytes m a n := by
  subst hacc
  refine Machine.foldl_readPiece ps acc h.inside fun j => ?_
  by_cases hj : j < acc.length
  · exact .inl (h.whole j hj)
  · right
    rw [List.getElem?_eq_none (by omega), List.getElem?_eq_none (by rw [readBytes_length]; omega)]

end reading

/-! ## Writing the bytes -/

theorem writePiece_byte {a : Dword} {bs : List Byte} (m : Memory) {i : Nat} (hi : i < bs.length) :
    writePiece a bs m ⟨i, 1⟩ = memSet m (a + BitVec.ofNat 64 i).toNat bs[i] := by
  have hslice : slice bs i 1 = [bs[i]] := by
    rw [slice, List.drop_eq_getElem_cons hi, List.take_succ_cons, List.take_zero]
  rw [writePiece, hslice]
  rfl

/-- Any byte of memory after one byte of a buffer was stored: at that byte's own address what the whole write, into
whatever memory, leaves there. -/
theorem memGet_writePiece_byte {m m₀ : Memory} {a : Dword} {bs : List Byte} (hm : m.wf = true)
    (hm₀ : m₀.wf = true) (hbound : a.toNat + bs.length ≤ 2 ^ 64) {i : Nat} (hi : i < bs.length) (x : Nat) :
    memGet (writePiece a bs m ⟨i, 1⟩) x =
      if x = a.toNat + i then memGet (writeBytes m₀ a bs) x else memGet m x := by
  rw [writePiece_byte m hi, addr_add_toNat (by omega), memGet_memSet x hm]
  by_cases hx : x = a.toNat + i
  · subst hx
    rw [if_pos rfl, if_pos rfl, memGet_writeBytes bs a _ hm₀ hbound, dif_pos (by omega)]
    simp only [Nat.add_sub_cancel_left]
  · rw [if_neg hx, if_neg (Ne.symm hx)]

/-- Storing bytes in turn leaves memory as the one write does, when every byte not among them is so already. -/
theorem foldl_writePiece {m₀ : Memory} {a : Dword} {bs : List Byte} (hm₀ : m₀.wf = true)
    (hbound : a.toNat + bs.length ≤ 2 ^ 64) : ∀ (ps : List Piece) (m : Memory), m.wf = true →
    (∀ p ∈ ps, p ∈ bytePieces bs.length) →
    (∀ x, (∃ p ∈ ps, x = a.toNat + p.off) ∨ memGet m x = memGet (writeBytes m₀ a bs) x) →
    ∀ x, memGet (ps.foldl (writePiece a bs) m) x = memGet (writeBytes m₀ a bs) x
  | [], _, _, _, hright, x => (hright x).resolve_left (by simp)
  | p :: ps, m, hm, hbytes, hright, x => by
    obtain ⟨i, hi, rfl⟩ := mem_bytePieces.mp (hbytes p (List.mem_cons_self ..))
    refine foldl_writePiece hm₀ hbound ps _ (writeBytes_wf _ _ hm) (fun q hq => hbytes q (.tail _ hq))
      (fun y => ?_) x
    have hstep := memGet_writePiece_byte hm hm₀ hbound hi y
    by_cases hy : y = a.toNat + i
    · exact .inr (hstep.trans (if_pos hy))
    · obtain ⟨q, hq, hqy⟩ | hmem := hright y
      · obtain rfl | hq := List.mem_cons.mp hq
        · exact absurd hqy hy
        · exact .inl ⟨q, hq, hqy⟩
      · exact .inr ((hstep.trans (if_neg hy)).trans hmem)

/-- Storing every byte once, in any order, leaves memory as the one write does. -/
theorem foldl_writePiece_bytePieces {m : Memory} {a : Dword} {bs : List Byte} (hwf : m.wf = true)
    (hbound : a.toNat + bs.length ≤ 2 ^ 64) {order : List Piece} (hperm : order.Perm (bytePieces bs.length))
    (x : Nat) : memGet (order.foldl (writePiece a bs) m) x = memGet (writeBytes m a bs) x := by
  refine foldl_writePiece hwf hbound order m hwf (fun p hp => hperm.mem_iff.mp hp) (fun y => ?_) x
  by_cases hy : a.toNat ≤ y ∧ y - a.toNat < bs.length
  · obtain ⟨hlo, hhi⟩ := hy
    exact .inl ⟨⟨y - a.toNat, 1⟩, hperm.mem_iff.mpr (mem_bytePieces.mpr ⟨_, hhi, rfl⟩),
      (Nat.add_sub_cancel' hlo).symm⟩
  · exact .inr (memGet_writeBytes_outside hwf hbound (by omega)).symm

/-! ## The accesses -/

section still

variable {s : State} {a : Dword} (still : ∀ turn ∈ s.race, turn.stores = [])

include still

/-- A read in pieces of memory the guest does not change reads the bytes as they are. -/
theorem memReadTorn_still {n : Nat} {ps : List Piece} (hps : MakesUp n ps) (hn : n ≠ 0)
    (h : accessOk s a n = true) :
    ∃ t, memReadTorn ps a n s = .ok (readBytes s.mem a n) t ∧ t = { s with race := t.race } := by
  by_cases hrace : s.race = []
  · exact ⟨s, by rw [memReadTorn_quiet hrace ps a hn, if_pos h], rfl⟩
  · obtain ⟨order, hperm, hread⟩ := tornRead_still a s.race ps s.mem (List.replicate n 0#8) still
    refine ⟨{ s with race := s.race.drop ps.length }, ?_, rfl⟩
    rw [memReadTorn_turns hn h hrace hread, (hps.of_perm hperm).foldl_readPiece List.length_replicate]

/-- A write in pieces into memory the guest does not change is the one write. -/
theorem memWriteTorn_still {bs : List Byte} (hwf : s.mem.wf = true) (hbs : bs ≠ [])
    (h : accessOk s a bs.length = true) :
    ∃ t, memWriteTorn a bs s = .ok () t ∧ t = { s with race := t.race, mem := t.mem }
      ∧ ∀ x, memGet t.mem x = memGet (writeBytes s.mem a bs) x := by
  by_cases hrace : s.race = []
  · exact ⟨_, by rw [memWriteTorn_quiet hrace a hbs, if_pos h], rfl, fun _ => rfl⟩
  · obtain ⟨order, hperm, hwrite⟩ := tornWrite_still a bs s.race (bytePieces bs.length) s.mem still
    exact ⟨_, memWriteTorn_turns hbs h hrace hwrite, rfl,
      foldl_writePiece_bytePieces hwf (accessOk_bound h) hperm⟩

end still

/-- Settles O31: the turns only order the pieces, and the bytes of a buffer, like the fields of a descriptor, make up
the access in every order. -/
theorem tornAccessesToStillMemoryAreWhole : Obligations.TornAccessesToStillMemoryAreWhole := by
  intro s a still
  refine ⟨fun n => memReadTorn_still still (bytePieces_makesUp n),
    memReadTorn_still still descPieces_makesUp (by decide), ?_⟩
  exact fun bs hwf => memWriteTorn_still still hwf

end Sys2Proof.Machine
end

