-- ==== Sys2Proof/Proofs/Encoding.lean ====
section
/-! The decoder on selector words and images (spec/30_encoding.md R71, R72, R80, R81): which words are transactions
and which are events, and that the image of each kind of operation gives the operation back. -/

namespace Sys2Proof

open Sys2Proof.Machine

/-! ## Selector words -/

theorem decode_bytesLE (sel : Half) (data : List Byte) :
    decode (bytesLE 2 sel.toNat ++ data) = decodeSel sel data :=
  congrArg (decodeSel · data) (le16_bytesLE sel)

/-- With the event bit and the unused bits clear, a selector word is a transaction's (R71). -/
theorem decodeSel_transaction {sel : Half} (h : sel.toNat < 0x2000) (data : List Byte) :
    decodeSel sel data
      = .ok (decodeBus (if sel.getLsbD 12 then .write else .read) (sel.extractLsb' 0 12) data) := by
  have hunused : sel.extractLsb' 14 2 = 0#2 := by
    apply BitVec.eq_of_toNat_eq
    simp only [BitVec.extractLsb'_toNat, BitVec.toNat_ofNat, Nat.shiftRight_eq_div_pow]
    omega
  have htransaction : sel.getLsbD 13 = false := Nat.testBit_lt_two_pow h
  rw [decodeSel, hunused, htransaction]
  rfl

/-- A selector word with the event bit set and its direction bit clear is the event of its low bits, which has no
buffer (R71, R80). -/
theorem decodeSel_event (n : Offset) (data : List Byte) :
    decodeSel (BitVec.ofNat 16 (0x2000 + n.toNat)) data
      = if data ≠ [] then .error .eventBuffer else decodeEvent n := by
  have hn := n.isLt
  have hunused : (BitVec.ofNat 16 (0x2000 + n.toNat)).extractLsb' 14 2 = 0#2 := by
    apply BitVec.eq_of_toNat_eq
    simp only [BitVec.extractLsb'_toNat, BitVec.toNat_ofNat, Nat.shiftRight_eq_div_pow]
    omega
  have hevent : (BitVec.ofNat 16 (0x2000 + n.toNat)).getLsbD 13 = true := by
    rw [BitVec.getLsbD, BitVec.toNat_ofNat, Nat.testBit_eq_decide_div_mod_eq, decide_eq_true_eq]
    omega
  have hdir : (BitVec.ofNat 16 (0x2000 + n.toNat)).getLsbD 12 = false := by
    rw [BitVec.getLsbD, BitVec.toNat_ofNat, Nat.testBit_eq_decide_div_mod_eq, decide_eq_false_iff_not]
    omega
  have hnumber : (BitVec.ofNat 16 (0x2000 + n.toNat)).extractLsb' 0 12 = n := by
    apply BitVec.eq_of_toNat_eq
    simp only [BitVec.extractLsb'_toNat, BitVec.toNat_ofNat, Nat.shiftRight_eq_div_pow]
    omega
  rw [decodeSel, hunused, hevent, hdir, hnumber]
  rfl

theorem decode_event (n : Offset) (data : List Byte) :
    decode (bytesLE 2 (0x2000 + n.toNat) ++ data)
      = if data ≠ [] then .error .eventBuffer else decodeEvent n := by
  have hsel : (BitVec.ofNat 16 (0x2000 + n.toNat)).toNat = 0x2000 + n.toNat := by
    rw [BitVec.toNat_ofNat, Nat.mod_eq_of_lt (by have := n.isLt; omega)]
  rw [← decodeSel_event, ← decode_bytesLE, hsel]

theorem decode_encodeEvent (n : Offset) : decode (encodeEvent n.toNat) = decodeEvent n :=
  decode_event n []

/-- The events are numbered 1 and 2 (R81). -/
theorem decodeEvent_unknown {n : Offset} (h1 : n ≠ 1#12) (h2 : n ≠ 2#12) :
    decodeEvent n = .error (.unknownEvent n) := by
  rw [decodeEvent, if_neg h1, if_neg h2]

/-! ## Transactions -/

theorem regOffset_lt (r : Reg) : (regOffset r).toNat < 0x100 := by cases r <;> decide

theorem regAccess_read (r : Reg) (v : Word) : regAccess .read (regOffset r) v = regRead r :=
  congrArg (·.bind regRead) (regAt_regOffset r)

theorem regAccess_write (r : Reg) (v : Word) : regAccess .write (regOffset r) v = regWrite v r :=
  congrArg (·.bind (regWrite v)) (regAt_regOffset r)

/-- Four bytes at a register's offset are the operation the register map gives for the value they hold (R72, R73). -/
theorem decodeBus_register {dir : Dir} {r : Reg} {v : Word} {i : Instr}
    (h : regAccess dir (regOffset r) v = some i) : decodeBus dir (regOffset r) (bytesLE 4 v.toNat) = i := by
  unfold decodeBus
  rw [if_neg (Nat.not_le_of_lt (regOffset_lt r)), if_pos (bytesLE_length ..), le32_bytesLE, h, Option.getD_some]

theorem decode_encodeRead {r : Reg} {i : Instr} (h : regRead r = some i) : decode (encodeRead r) = .ok i := by
  have hacc : regAccess .read (regOffset r) 0#32 = some i := (regAccess_read ..).trans h
  exact (decode_encodeBus ..).trans (congrArg _ (decodeBus_register hacc))

theorem decode_encodeWrite {r : Reg} {v : Word} {i : Instr} (h : regWrite v r = some i) :
    decode (encodeWrite r v) = .ok i := by
  have hacc : regAccess .write (regOffset r) v = some i := (regAccess_write ..).trans h
  exact (decode_encodeBus ..).trans (congrArg _ (decodeBus_register hacc))

/-- A configuration index that fits the window is moved into the DeviceSpecific range (R72 step 1). -/
theorem configIndex_in_range {k : Offset} (hk : k.toNat + 0x100 < 2 ^ 12) : 0x100 ≤ (k + 0x100#12).toNat := by
  bv_omega

theorem decodeBus_rdConfig {k : Offset} (hk : k.toNat + 0x100 < 2 ^ 12) (data : List Byte) :
    decodeBus .read (k + 0x100#12) data = .rdConfig k data.length := by
  unfold decodeBus
  rw [if_pos (configIndex_in_range hk), BitVec.add_sub_cancel]

theorem decodeBus_wrConfig {k : Offset} (hk : k.toNat + 0x100 < 2 ^ 12) (data : List Byte) :
    decodeBus .write (k + 0x100#12) data = .wrConfig k data.length := by
  unfold decodeBus
  rw [if_pos (configIndex_in_range hk), BitVec.add_sub_cancel]

/-- Whether the register map has an operation does not depend on the value written. -/
theorem regAccess_eq_none {dir : Dir} {o : Offset} {v : Word} (h : regAccess dir o v = none) (w : Word) :
    regAccess dir o w = none := by
  rwa [← Option.not_isSome_iff_eq_none, regAccess_isSome dir o w v, Option.not_isSome_iff_eq_none]

/-- Below the DeviceSpecific range, what is no 4-byte access the register map has is the catch-all row (R80). -/
theorem decodeBus_invalid {dir : Dir} {o : Offset} {data : List Byte} (ho : o.toNat < 0x100)
    (h : data.length = 4 → regAccess dir o 0#32 = none) :
    decodeBus dir o data = .invalidAccess dir o data.length := by
  unfold decodeBus
  rw [if_neg (Nat.not_le_of_lt ho)]
  split
  next hlen => rw [regAccess_eq_none (h hlen), Option.getD_none]
  next => rfl

theorem invalidAccess_wf_iff {dir : Dir} {o : Offset} {len : Nat} :
    (Instr.invalidAccess dir o len).wf = true
      ↔ o.toNat < 0x100 ∧ (len = 4 → regAccess dir o 0#32 = none) := by
  simp [Instr.wf, imp_iff_not_or]

/-! ## The obligations -/

/-- Every well-formed operation comes back from its image: a register operation by the register map, a
configuration access by its index, an INVALID_ACCESS because no other row takes it, an event by its number. -/
theorem decode_encode {i : Instr} (h : i.wf = true) : decode (encode i) = .ok i := by
  cases i with
  | rdMagic | rdVersion | rdDeviceId | rdVendorId | rdHostFeatures | rdQueueNumMax | rdQueuePfn
  | rdInterruptStatus | rdStatus => exact decode_encodeRead rfl
  | wrHostFeaturesSel | wrGuestFeatures | wrGuestFeaturesSel | wrGuestPageSize | wrQueueSel | wrQueueNum
  | wrQueueAlign | wrQueuePfn | wrQueueNotify | wrInterruptAck | wrStatus => exact decode_encodeWrite rfl
  | rdConfig k n =>
    rw [encode, decode_encodeBus, decodeBus_rdConfig (of_decide_eq_true h), List.length_replicate]
  | wrConfig k n =>
    rw [encode, decode_encodeBus, decodeBus_wrConfig (of_decide_eq_true h), List.length_replicate]
  | invalidAccess dir o len =>
    obtain ⟨ho, hreg⟩ := invalidAccess_wf_iff.mp h
    have hlen : (List.replicate len 0#8).length = len := List.length_replicate
    rw [encode, decode_encodeBus, decodeBus_invalid ho (fun h4 => hreg (hlen.symm.trans h4)), hlen]
  | evtHostRxReady => exact decode_encodeEvent 1#12
  | evtPowerOn => exact decode_encodeEvent 2#12

/-- Settles O1. -/
theorem decodeInvertsEncode : Obligations.DecodeInvertsEncode := fun _ h => decode_encode h

/-- Settles O2. -/
theorem decodedOperationsAreWellFormed : Obligations.DecodedOperationsAreWellFormed :=
  fun _ _ h => wf_of_decode h

/-- Settles O3: a second byte below 0x20 leaves the event bit and the unused bits of the selector clear; an event
image is refused for its buffer, or for its number. -/
theorem everyTransactionDecodesAndNoUnknownEventDoes :
    Obligations.EveryTransactionDecodesAndNoUnknownEventDoes := by
  constructor
  · intro b0 b1 data hb1
    have hsel : (le16 [b0, b1]).toNat < 0x2000 := by
      rw [le16_pair, append_toNat_low]
      have := b0.isLt
      omega
    exact ⟨_, (decode_cons ..).trans (decodeSel_transaction hsel data)⟩
  · intro n data h1 h2
    rw [decode_event, decodeEvent_unknown h1 h2]
    split
    next => exact ⟨_, rfl⟩
    next => exact ⟨_, rfl⟩

/-- Settles O4: the decoder evaluated on ten closed images. -/
theorem writtenOutImagesDecode : Obligations.WrittenOutImagesDecode :=
  ⟨rfl, rfl, rfl, rfl, rfl, rfl, rfl, rfl, rfl, rfl⟩

end Sys2Proof
end

