-- ==== Sys2Proof/Proofs/OtherInputs.lean ====
section
/-! The step on the inputs that run no operation (spec/30_encoding.md R81, R84; spec/20_memory.md R46). -/

namespace Sys2Proof.Machine

section inputs

variable {s : State} {rest : List Input}

theorem step_idle (h : s.inputs = []) : step s = .next s := by
  rw [step, h]

theorem step_guestStore {g : GuestStore} (h : s.inputs = .guestStore g :: rest) :
    step s = .next (guestWrites s g rest) := by
  rw [step, h]

theorem step_hostFrame {item : RxItem} (h : s.inputs = .hostFrame item :: rest) :
    step s = if rxItemOk s.cfg item then .next (hostQueues s item rest) else .refused .hostFrameTooLong := by
  rw [step, h]

theorem step_undecodable {image : List Byte} {e : DecodeError} (h : s.inputs = .op image :: rest)
    (hd : decode image = .error e) : step s = .refused (.undecodable e) := by
  simp only [step, h, hd]

theorem rxItemOk_frame_iff {c : Config} {bytes : List Byte} :
    rxItemOk c (.frame bytes) = true ↔ bytes.length ≤ c.maxFrameLen := decide_eq_true_iff

end inputs

/-- Settles O6, one clause for each input that runs no operation. -/
theorem stepTakesTheOtherInputs : Obligations.StepTakesTheOtherInputs := by
  intro s rest
  refine ⟨step_idle, fun g => step_guestStore, ?_, ?_, ?_, fun image e => step_undecodable⟩
  · intro frame h hshort
    exact (step_hostFrame h).trans (if_pos (rxItemOk_frame_iff.mpr hshort))
  · intro h
    exact (step_hostFrame h).trans (if_pos rfl)
  · intro frame h hlong
    have hrefused : ¬ rxItemOk s.cfg (.frame frame) = true :=
      fun hok => Nat.not_le_of_lt hlong (rxItemOk_frame_iff.mp hok)
    exact (step_hostFrame h).trans (if_neg hrefused)

end Sys2Proof.Machine
end

