-- ==== Sys2Proof/Proofs/IdentityReads.lean ====
section
/-! A 4-byte read of a readable register, whatever its buffer holds (spec/30_encoding.md R72), and the four identity
registers (spec/40_mmio_identity.md R100 to R103). -/

namespace Sys2Proof.Machine

theorem decode_regRead {r : Reg} {i : Instr} (h : regRead r = some i) (b0 b1 b2 b3 : Byte) :
    decode (encodeBus .read (regOffset r) [b0, b1, b2, b3]) = .ok i := by
  have hacc : regAccess .read (regOffset r) (le32 [b0, b1, b2, b3]) = some i := (regAccess_read ..).trans h
  rw [decode_encodeBus, decodeBus, if_neg (Nat.not_le_of_lt (regOffset_lt r)), if_pos (by rfl), hacc,
    Option.getD_some]

section reads

variable (s : State)

theorem exec_rdMagic : exec .rdMagic s = .next (busReadReg s.cfg.magic s) := rfl

theorem exec_rdVersion : exec .rdVersion s = .next (busReadReg s.cfg.deviceVersion s) := rfl

theorem exec_rdDeviceId : exec .rdDeviceId s = .next (busReadReg s.cfg.deviceId s) := rfl

theorem exec_rdVendorId : exec .rdVendorId s = .next (busReadReg s.cfg.vendorId s) := rfl

end reads

/-- Settles O7: the values of CFG0 by evaluation, the encodings from the register map, and each read as the register
read of its parameter, which writes the outcome and the buffer only. -/
theorem identityReadsReturnConstants : Obligations.IdentityReadsReturnConstants := by
  refine ⟨⟨rfl, rfl, rfl, rfl⟩, fun b0 b1 b2 b3 => ?encodings, fun s => ?reads⟩
  case encodings =>
    exact ⟨decode_regRead (r := .magicValue) rfl b0 b1 b2 b3, decode_regRead (r := .virtioVersion) rfl b0 b1 b2 b3,
      decode_regRead (r := .deviceId) rfl b0 b1 b2 b3, decode_regRead (r := .vendorId) rfl b0 b1 b2 b3⟩
  case reads => exact ⟨exec_rdMagic s, exec_rdVersion s, exec_rdDeviceId s, exec_rdVendorId s⟩

end Sys2Proof.Machine
end

