-- ==== Sys2Proof/Proofs/FeatureRegisters.lean ====
section
/-! The feature negotiation registers and the other plain registers (spec/41_mmio_features.md R110 to R114,
spec/42_mmio_queue.md R120, R121): the halves of a feature set as numbers, and the writes that store any value. -/

namespace Sys2Proof.Machine

/-! ## The halves of a feature set -/

theorem featureHalf_toNat (sel : Word) (f : Dword) :
    (featureHalf sel f).toNat
      = if sel = 0#32 then f.toNat % 2 ^ 32 else if sel = 1#32 then f.toNat / 2 ^ 32 else 0 := by
  have hf := f.isLt
  unfold featureHalf
  split
  next low => rw [BitVec.extractLsb'_toNat, Nat.shiftRight_zero]
  next =>
    split
    next high => rw [BitVec.extractLsb'_toNat, Nat.shiftRight_eq_div_pow, Nat.mod_eq_of_lt (by omega)]
    next neither => rfl

/-- Two halves laid side by side. -/
theorem append_halves_toNat (hi lo : Word) : (hi ++ lo).toNat = hi.toNat * 2 ^ 32 + lo.toNat := by
  rw [BitVec.toNat_append, ← Nat.shiftLeft_add_eq_or_of_lt lo.isLt, Nat.shiftLeft_eq]

/-- Selector 0 replaces the low half and keeps the high one (R113). -/
theorem setFeatureHalf_zero_toNat (f : Dword) (v : Word) :
    (setFeatureHalf 0#32 f v).toNat = f.toNat / 2 ^ 32 * 2 ^ 32 + v.toNat := by
  have hhigh : (f.extractLsb' 32 32).toNat = f.toNat / 2 ^ 32 := featureHalf_toNat 1#32 f
  rw [setFeatureHalf, if_pos rfl, append_halves_toNat, hhigh]

/-- Selector 1 replaces the high half and keeps the low one (R113). -/
theorem setFeatureHalf_one_toNat (f : Dword) (v : Word) :
    (setFeatureHalf 1#32 f v).toNat = v.toNat * 2 ^ 32 + f.toNat % 2 ^ 32 := by
  have hlow : (f.extractLsb' 0 32).toNat = f.toNat % 2 ^ 32 := featureHalf_toNat 0#32 f
  rw [setFeatureHalf, if_neg (by decide), if_pos rfl, append_halves_toNat, hlow]

/-- Any other selector stores nothing (R113). -/
theorem setFeatureHalf_other {sel : Word} (h0 : sel ≠ 0#32) (h1 : sel ≠ 1#32) (f : Dword) (v : Word) :
    setFeatureHalf sel f v = f := by
  rw [setFeatureHalf, if_neg h0, if_neg h1]

/-! ## The operations -/

section operations

variable (v : Word) (s : State)

theorem exec_rdHostFeatures :
    exec .rdHostFeatures s = .next (busReadReg (featureHalf s.hostFeaturesSel (offeredFeatures s.cfg)) s) := rfl

theorem exec_wrGuestFeatures :
    exec (.wrGuestFeatures v) s
      = .next (busOk { s with driverFeatures := setFeatureHalf s.guestFeaturesSel s.driverFeatures v }) := rfl

theorem exec_wrHostFeaturesSel :
    exec (.wrHostFeaturesSel v) s = .next (busOk { s with hostFeaturesSel := v }) := rfl

theorem exec_wrGuestFeaturesSel :
    exec (.wrGuestFeaturesSel v) s = .next (busOk { s with guestFeaturesSel := v }) := rfl

theorem exec_wrGuestPageSize : exec (.wrGuestPageSize v) s = .next (busOk { s with pageSize := v }) := rfl

theorem exec_wrQueueSel : exec (.wrQueueSel v) s = .next (busOk { s with queueSel := v }) := rfl

end operations

/-- GuestFeatures has no read direction (R21), so a 4-byte read of it is the catch-all row. -/
theorem decode_read_guestFeatures (b0 b1 b2 b3 : Byte) :
    decode (encodeBus .read (regOffset .guestFeatures) [b0, b1, b2, b3])
      = .ok (.invalidAccess .read (regOffset .guestFeatures) 4) := by
  have hnone : regAccess .read (regOffset .guestFeatures) 0#32 = none := regAccess_read ..
  rw [decode_encodeBus, decodeBus_invalid (regOffset_lt _) fun _ => hnone]
  rfl

/-! ## The obligations -/

/-- Settles O10: the new value is the accepted set with the selected half replaced, and each selector case is that
replacement's value as a number. -/
theorem guestFeaturesReplacesTheSelectedHalf : Obligations.GuestFeaturesReplacesTheSelectedHalf := by
  refine ⟨fun b0 b1 b2 b3 => ?encodings, fun v s => ?stored⟩
  case encodings =>
    exact ⟨decode_regWrite .guestFeatures .wrGuestFeatures (fun _ => rfl) b0 b1 b2 b3,
      decode_read_guestFeatures b0 b1 b2 b3⟩
  case stored =>
    refine ⟨setFeatureHalf s.guestFeaturesSel s.driverFeatures v, exec_wrGuestFeatures v s, ?low, ?high, ?other⟩
    case low =>
      intro hsel
      rw [hsel, setFeatureHalf_zero_toNat]
    case high =>
      intro hsel
      rw [hsel, setFeatureHalf_one_toNat]
    case other => exact fun h0 h1 => setFeatureHalf_other h0 h1 _ v

/-- Settles O8: the read is the register read of the selected half, whose number is one of the three of R111. -/
theorem hostFeaturesReadsTheSelectedHalf : Obligations.HostFeaturesReadsTheSelectedHalf := by
  refine ⟨decode_regRead (r := .hostFeatures) rfl, fun s => ?_⟩
  have hvalue := featureHalf_toNat s.hostFeaturesSel (offeredFeatures s.cfg)
  rw [exec_rdHostFeatures, busReadReg, hvalue]
  rfl

/-- Settles O9: the encodings from the register map, and each write as a store into its own field. -/
theorem selectorAndPageSizeWritesStoreTheValue : Obligations.SelectorAndPageSizeWritesStoreTheValue := by
  refine ⟨fun b0 b1 b2 b3 => ?encodings, fun v s => ?stores⟩
  case encodings =>
    exact ⟨decode_regWrite .hostFeaturesSel .wrHostFeaturesSel (fun _ => rfl) b0 b1 b2 b3,
      decode_regWrite .guestFeaturesSel .wrGuestFeaturesSel (fun _ => rfl) b0 b1 b2 b3,
      decode_regWrite .guestPageSize .wrGuestPageSize (fun _ => rfl) b0 b1 b2 b3,
      decode_regWrite .queueSel .wrQueueSel (fun _ => rfl) b0 b1 b2 b3⟩
  case stores =>
    exact ⟨exec_wrHostFeaturesSel v s, exec_wrGuestFeaturesSel v s, exec_wrGuestPageSize v s, exec_wrQueueSel v s⟩

end Sys2Proof.Machine
end

