-- ==== Sys2Proof/Proofs/QueueRegisters.lean ====
section
/-! The queue registers (spec/42_mmio_queue.md R122 to R127): the bank a legal write leaves, field by field as R15 and
R58 write it, and the writes that are a RegisterError. -/

namespace Sys2Proof.Machine

/-! ## Operand forms -/

theorem availAddrOf_eq (desc : Dword) (size : Half) :
    availAddrOf desc size = desc + BitVec.ofNat 64 (16 * size.toNat) := by
  have hscaled : 16#64 * size.zeroExtend 64 = BitVec.ofNat 64 (16 * size.toNat) := by
    rw [BitVec.ofNat_mul, BitVec.ofNat_toNat]
  rw [availAddrOf, hscaled]

/-- Both rings where R15 puts them, the used ring from the available ring's address. -/
theorem placeRings_eq {q : Queue} {n : Nat} {avail : Dword} (align : Nat) (hsize : q.size.toNat = n)
    (havail : avail = q.descAddr + BitVec.ofNat 64 (16 * n)) :
    placeRings align q =
      { q with
        availAddr := avail
        usedAddr := BitVec.ofNat 64 (alignUp (avail.toNat + 2 * (3 + n)) align) } := by
  subst hsize
  rw [placeRings, availAddrOf_eq, ← havail]
  rfl

/-- The product of two 32-bit numbers does not wrap in 64 bits (R58). -/
theorem pageAddr_toNat (pfn pageSize : Word) : (pageAddr pfn pageSize).toNat = pfn.toNat * pageSize.toNat := by
  have hfits : pfn.toNat * pageSize.toNat < 2 ^ 64 :=
    calc pfn.toNat * pageSize.toNat < 2 ^ 32 * 2 ^ 32 := Nat.mul_lt_mul'' pfn.isLt pageSize.isLt
      _ = 2 ^ 64 := by decide
  rw [pageAddr, BitVec.toNat_mul, BitVec.toNat_setWidth_of_le (by decide), BitVec.toNat_setWidth_of_le (by decide),
    Nat.mod_eq_of_lt hfits]

theorem configured_eq_false_iff {q : Queue} : configured q = false ↔ q.size = 0#16 ∨ q.descAddr = 0#64 := by
  rw [configured, Bool.and_eq_false_iff, bne_eq_false_iff_eq, bne_eq_false_iff_eq]

theorem nineSizes_toNat_le : ∀ v ∈ nineSizes, v.toNat ≤ 256 := by
  simp [nineSizes]

/-! ## The bank a write leaves -/

section bank

variable {q : Queue} {v : Word} (align : Nat)

theorem withSize_unset (hdesc : q.descAddr = 0#64) :
    withSize align v q = { q with size := BitVec.ofNat 16 v.toNat } := if_pos hdesc

theorem withSize_placed {avail : Dword} (hv : v.toNat < 2 ^ 16) (hdesc : q.descAddr ≠ 0#64)
    (havail : avail = q.descAddr + BitVec.ofNat 64 (16 * v.toNat)) :
    withSize align v q =
      { q with
        size := BitVec.ofNat 16 v.toNat
        availAddr := avail
        usedAddr := BitVec.ofNat 64 (alignUp (avail.toNat + 2 * (3 + v.toNat)) align) } := by
  have hsize : (BitVec.ofNat 16 v.toNat).toNat = v.toNat := (BitVec.toNat_ofNat ..).trans (Nat.mod_eq_of_lt hv)
  exact (if_neg hdesc).trans
    (placeRings_eq (q := { q with size := BitVec.ofNat 16 v.toNat }) align hsize havail)

theorem withDescAddr_zero :
    withDescAddr align 0#64 q = { q with descAddr := 0#64, availAddr := 0#64, usedAddr := 0#64 } := if_pos rfl

theorem withDescAddr_placed {desc avail : Dword} (hdesc : desc ≠ 0#64)
    (havail : avail = desc + BitVec.ofNat 64 (16 * q.size.toNat)) :
    withDescAddr align desc q =
      { q with
        descAddr := desc
        availAddr := avail
        usedAddr := BitVec.ofNat 64 (alignUp (avail.toNat + 2 * (3 + q.size.toNat)) align) } :=
  (if_neg hdesc).trans (placeRings_eq (q := { q with descAddr := desc }) align rfl havail)

end bank

/-! ## The operations -/

section operations

variable {v : Word} {s : State}

theorem exec_rdQueueNumMax (s : State) : exec .rdQueueNumMax s = .next (busReadReg s.cfg.queueNumMax s) := rfl

theorem exec_rdQueuePfn (s : State) : exec .rdQueuePfn s = .next (busReadReg s.cfg.queuePfnRead s) := rfl

theorem exec_wrQueueAlign (v : Word) (s : State) : exec (.wrQueueAlign v) s = .next (busOk s) := rfl

theorem exec_wrQueueNum (v : Word) (s : State) : exec (.wrQueueNum v) s = execWrQueueNum v s := rfl

theorem exec_wrQueuePfn (v : Word) (s : State) : exec (.wrQueuePfn v) s = execWrQueuePfn v s := rfl

theorem exec_wrQueueNotify (v : Word) (s : State) : exec (.wrQueueNotify v) s = execWrQueueNotify v s := rfl

/-- A refused register write has the whole effect of R231 and no other. -/
theorem refuseWrite_eq (r : Reg) (s : State) :
    refuseWrite r s = afterRegisterError s .write (regOffset r) 4 := rfl

/-- R123: without a queue and a legal size, a RegisterError. -/
theorem execWrQueueNum_refused (h : ∀ i, queueOf s.cfg s.queueSel = some i → legalQueueNum s.cfg v = false) :
    execWrQueueNum v s = .next (refuseWrite .queueNum s) := by
  unfold execWrQueueNum
  split
  next noQueue => rfl
  next i hi => rw [h i hi, if_neg Bool.false_ne_true]

/-- R126: without a queue, a RegisterError. -/
theorem execWrQueuePfn_refused (h : queueOf s.cfg s.queueSel = none) :
    execWrQueuePfn v s = .next (refuseWrite .queuePfn s) := by
  simp only [execWrQueuePfn, h]

/-- R127: unless the index names a queue, the block is operational and the queue is configured, a RegisterError. -/
theorem execWrQueueNotify_refused
    (h : ∀ i, queueOf s.cfg v = some i → s.operational = true → configured (s.queue i) = false) :
    execWrQueueNotify v s = .next (refuseWrite .queueNotify s) := by
  unfold execWrQueueNotify
  split
  next noQueue => rfl
  next i hi =>
    cases hop : s.operational with
    | false => rfl
    | true =>
      rw [h i hi hop]
      rfl

end operations

/-! ## The obligations -/

/-- Settles O14: a legal write stores the bank `withSize` gives, whose rings are those of R15, and every other one is
refused for its selector or because the value is no legal size. -/
theorem queueNumTakesTheNineLegalSizes : Obligations.QueueNumTakesTheNineLegalSizes := by
  refine ⟨⟨rfl, by decide⟩, decode_regWrite .queueNum .wrQueueNum fun _ => rfl, ?stored, ?refused⟩
  case stored =>
    intro v i s hwf hsel hnine hmax
    have hqueue : queueOf s.cfg s.queueSel = some i := hsel ▸ queueOf_queueIndex hwf i
    have hfits : v.toNat < 2 ^ 16 := Nat.lt_of_le_of_lt (nineSizes_toNat_le v hnine) (by decide)
    rw [exec_wrQueueNum, execWrQueueNum_of_legal hqueue ((legalQueueNum_iff hwf v).mpr ⟨hnine, hmax⟩)]
    refine ⟨fun hdesc => ?unset, fun hdesc avail havail => ?placed⟩
    case unset =>
      rw [withSize_unset _ hdesc]
      rfl
    case placed =>
      rw [withSize_placed _ hfits hdesc havail]
      rfl
  case refused =>
    intro v s hwf hbad
    rw [exec_wrQueueNum, execWrQueueNum_refused fun i hi => ?_, refuseWrite_eq]
    · rfl
    rw [← Bool.not_eq_true, legalQueueNum_iff hwf]
    rintro ⟨hnine, hmax⟩
    rcases hbad with hsel | hother | habove
    · cases (queueOf_none hwf hsel).symm.trans hi
    · exact hother hnine
    · exact Nat.not_lt_of_le hmax habove

/-- Settles O15: the table's address is the product, so it is 0 exactly when the product is, and the bank is the one
`withDescAddr` gives; a selector that names no queue is refused. -/
theorem queuePfnPlacesTheRings : Obligations.QueuePfnPlacesTheRings := by
  refine ⟨decode_regWrite .queuePfn .wrQueuePfn fun _ => rfl, ?stored, ?refused⟩
  case stored =>
    intro v i s hwf hsel
    have hqueue : queueOf s.cfg s.queueSel = some i := hsel ▸ queueOf_queueIndex hwf i
    have hproduct := pageAddr_toNat v s.pageSize
    rw [exec_wrQueuePfn, execWrQueuePfn_of_selected hqueue]
    refine ⟨fun hzero => ?cleared, fun hnonzero desc avail hdesc havail => ?placed⟩
    case cleared =>
      have hunset : pageAddr v s.pageSize = 0#64 := BitVec.eq_of_toNat_eq (hproduct.trans hzero)
      rw [hunset, withDescAddr_zero]
      rfl
    case placed =>
      have haddr : pageAddr v s.pageSize = desc := BitVec.eq_of_toNat_eq (hproduct.trans hdesc.symm)
      have hset : desc ≠ 0#64 := by
        rintro rfl
        exact hnonzero hdesc.symm
      rw [haddr, withDescAddr_placed _ hset havail]
      rfl
  case refused =>
    intro v s hwf hsel
    exact execWrQueuePfn_refused (queueOf_none hwf hsel)

/-- Settles O12: the value of CFG0 by evaluation, the encodings from the register map, and each operation as the
register read of its parameter or as the plain `Ok`. -/
theorem queueConstantsAndIgnoredAlign : Obligations.QueueConstantsAndIgnoredAlign := by
  refine ⟨rfl, fun b0 b1 b2 b3 => ?encodings, fun v s => ?effects⟩
  case encodings =>
    exact ⟨decode_regRead (r := .queueNumMax) rfl b0 b1 b2 b3, decode_regRead (r := .queuePfn) rfl b0 b1 b2 b3,
      decode_regWrite .queueAlign .wrQueueAlign (fun _ => rfl) b0 b1 b2 b3⟩
  case effects => exact ⟨exec_rdQueueNumMax s, exec_rdQueuePfn s, exec_wrQueueAlign v s⟩

/-- Settles O16: each of the three causes contradicts one of the checks a notify has to pass. -/
theorem queueNotifyIsRejectedUnlessReady : Obligations.QueueNotifyIsRejectedUnlessReady := by
  refine ⟨decode_regWrite .queueNotify .wrQueueNotify fun _ => rfl, fun v s hwf hbad => ?_⟩
  rw [exec_wrQueueNotify, execWrQueueNotify_refused fun i hi hop => ?_, refuseWrite_eq]
  · rfl
  rcases hbad with hindex | hdown | ⟨j, rfl, hunset⟩
  · cases (queueOf_none hwf hindex).symm.trans hi
  · cases hdown.symm.trans hop
  · obtain rfl : j = i := Option.some.inj ((queueOf_queueIndex hwf j).symm.trans hi)
    exact configured_eq_false_iff.mpr hunset

end Sys2Proof.Machine
end

