-- ==== Sys2Proof/Proofs/InterruptAndStatus.lean ====
section
/-! The interrupt and status registers (spec/43_mmio_interrupt_status.md R140 to R148): the byte of a Status write by
its bits and as a number, and what the write does in each of its four cases. -/

namespace Sys2Proof.Machine

/-! ## Reads and the acknowledge -/

theorem bytesLE_four_zeroExtend (b : Byte) : bytesLE 4 (b.zeroExtend 32).toNat = [b, 0#8, 0#8, 0#8] := by
  have hb : (b.zeroExtend 32).toNat = b.toNat := BitVec.toNat_setWidth_of_le (by decide)
  have hhigh : b.toNat / 256 = 0 := Nat.div_eq_of_lt b.isLt
  simp [bytesLE, hb, hhigh]

/-- Above bit 31 both sides are clear (R141). -/
theorem ackBits_getLsbD (old named : Word) (k : Nat) :
    (ackBits old named).getLsbD k = (old.getLsbD k && !named.getLsbD k) := by
  rw [ackBits, BitVec.getLsbD_and, BitVec.getLsbD_not]
  cases hold : old.getLsbD k with
  | false => rfl
  | true => rw [decide_eq_true (BitVec.lt_of_getLsbD hold), Bool.true_and]

/-! ## The byte of a Status write -/

theorem statusByte_eq_ofNat (v : Word) : statusByte v = BitVec.ofNat 8 v.toNat := by
  rw [statusByte, ← ofNat_div_eq_extract, Nat.pow_zero, Nat.div_one]

theorem statusByte_eq_zero_iff {v : Word} : statusByte v = 0#8 ↔ v.toNat % 256 = 0 := by
  rw [statusByte_eq_ofNat, ← BitVec.toNat_inj, BitVec.toNat_ofNat, BitVec.toNat_ofNat, Nat.zero_mod]

theorem failedBit_statusByte (v : Word) : failedBit (statusByte v) = v.getLsbD 7 := by
  simp [failedBit, statusByte]

theorem driverOk_statusByte (v : Word) : driverOk (statusByte v) = v.getLsbD 2 := by
  simp [driverOk, statusByte]

theorem ne_zero_of_failedBit {b : Byte} (h : failedBit b = true) : b ≠ 0#8 := by
  rintro rfl
  cases h

theorem ne_zero_of_driverOk {b : Byte} (h : driverOk b = true) : b ≠ 0#8 := by
  rintro rfl
  cases h

/-! ## The cases of a Status write -/

theorem activates_eq_true_iff {s : State} {b : Byte} :
    activates s b = true ↔
      driverOk s.status = false ∧ driverOk b = true ∧ s.operational = false ∧ s.failedByDevice = false := by
  simp [activates, and_assoc]

theorem activates_eq_false_iff {s : State} {b : Byte} :
    activates s b = false ↔
      driverOk b = false ∨ driverOk s.status = true ∨ s.operational = true ∨ s.failedByDevice = true := by
  rw [← Bool.not_eq_true, activates_eq_true_iff]
  simp only [not_and_or, Bool.not_eq_true, Bool.not_eq_false]
  exact or_left_comm

section cases

variable {b : Byte} (s : State)

/-- R144. -/
theorem writeStatus_zero : writeStatus 0#8 s = deviceReset s := if_pos rfl

/-- R146. -/
theorem writeStatus_of_failedBit (hfailed : failedBit b = true) :
    writeStatus b s = { deviceReset s with status := b } := by
  rw [writeStatus, if_neg (ne_zero_of_failedBit hfailed), if_pos hfailed]

/-- R145. -/
theorem writeStatus_of_activates (hfailed : failedBit b = false) (hact : activates s b = true) :
    writeStatus b s = activate { s with status := b } := by
  obtain ⟨-, hok, -, -⟩ := activates_eq_true_iff.mp hact
  rw [writeStatus, if_neg (ne_zero_of_driverOk hok), if_neg (ne_true_of_eq_false hfailed), if_pos hact]

/-- R148. -/
theorem writeStatus_of_not_activates (hzero : b ≠ 0#8) (hfailed : failedBit b = false)
    (hact : activates s b = false) : writeStatus b s = { s with status := b } := by
  rw [writeStatus, if_neg hzero, if_neg (ne_true_of_eq_false hfailed), if_neg (ne_true_of_eq_false hact)]

end cases

/-! ## The operations -/

section operations

variable (v : Word) (s : State)

theorem exec_rdInterruptStatus : exec .rdInterruptStatus s = .next (busReadReg s.interruptStatus s) := rfl

theorem exec_rdStatus : exec .rdStatus s = .next (busReadReg (s.status.zeroExtend 32) s) := rfl

theorem exec_wrInterruptAck :
    exec (.wrInterruptAck v) s
      = .next (busOk { s with interruptStatus := ackBits s.interruptStatus v }) := rfl

theorem exec_wrStatus : exec (.wrStatus v) s = .next (busOk (writeStatus (statusByte v) s)) := rfl

end operations

/-! ## The obligations -/

/-- Settles O17: the encodings from the register map, and each read as the register read of its field, which for
Status is the byte and three zeros. -/
theorem interruptAndStatusReadsChangeNothing : Obligations.InterruptAndStatusReadsChangeNothing := by
  refine ⟨fun b0 b1 b2 b3 => ?encodings, fun s => ⟨exec_rdInterruptStatus s, ?status⟩⟩
  case encodings =>
    exact ⟨decode_regRead (r := .interruptStatus) rfl b0 b1 b2 b3, decode_regRead (r := .status) rfl b0 b1 b2 b3⟩
  case status =>
    rw [exec_rdStatus, busReadReg, bytesLE_four_zeroExtend]
    rfl

/-- Settles O18: the acknowledge stores `ackBits`, read bit by bit. -/
theorem interruptAckClearsExactlyTheNamedBits : Obligations.InterruptAckClearsExactlyTheNamedBits :=
  ⟨decode_regWrite .interruptAck .wrInterruptAck fun _ => rfl, fun v s =>
    ⟨ackBits s.interruptStatus v, exec_wrInterruptAck v s, ackBits_getLsbD s.interruptStatus v⟩⟩

/-- Settles O19: the reset case, taken for every value whose byte is 0 and in every state. -/
theorem statusWriteOfZeroResets : Obligations.StatusWriteOfZeroResets := by
  refine ⟨decode_regWrite .status .wrStatus fun _ => rfl, fun v s hzero => ?_⟩
  rw [exec_wrStatus, statusByte_eq_zero_iff.mpr hzero, writeStatus_zero]
  rfl

/-- Settles O20: the FAILED case, which is the reset with the status byte put back. -/
theorem statusWriteOfFailedResetsAndKeepsTheByte : Obligations.StatusWriteOfFailedResetsAndKeepsTheByte := by
  intro v s hfailed
  rw [exec_wrStatus, writeStatus_of_failedBit s ((failedBit_statusByte v).trans hfailed), statusByte_eq_ofNat]
  rfl

/-- Settles O21: the activate case, whose hook carries the negotiated features. -/
theorem statusWriteOfDriverOkActivates : Obligations.StatusWriteOfDriverOkActivates := by
  intro v s hfailed hok hold hdown hfault
  have hact : activates s (statusByte v) = true :=
    activates_eq_true_iff.mpr ⟨hold, (driverOk_statusByte v).trans hok, hdown, hfault⟩
  rw [exec_wrStatus, writeStatus_of_activates s ((failedBit_statusByte v).trans hfailed) hact, statusByte_eq_ofNat]
  rfl

/-- Settles O22: each of the four causes keeps the write from activating, and a byte that neither resets nor activates
is stored. -/
theorem statusWriteOfAnyOtherByteStores : Obligations.StatusWriteOfAnyOtherByteStores := by
  intro v s hzero hfailed hkept
  have hact : activates s (statusByte v) = false :=
    activates_eq_false_iff.mpr (hkept.imp_left (driverOk_statusByte v).trans)
  rw [exec_wrStatus, writeStatus_of_not_activates s (statusByte_eq_zero_iff.not.mpr hzero)
    ((failedBit_statusByte v).trans hfailed) hact, statusByte_eq_ofNat]
  rfl

end Sys2Proof.Machine
end

