-- ==== Sys2Proof/Proofs/ConfigAndInvalid.lean ====
section
/-! Configuration accesses and invalid accesses (spec/44_mmio_config_invalid.md R160 to R162): which transactions they
are, and that all but a read inside the extent have the effect of R231 and no other. -/

namespace Sys2Proof.Machine

/-! ## Images of transactions -/

section images

variable {o : Offset} (data : List Byte)

theorem decode_readImage :
    decode (BitVec.ofNat 8 o.toNat :: BitVec.ofNat 8 (o.toNat / 256) :: data) = .ok (decodeBus .read o data) :=
  decode_bus .read o data

theorem decode_writeImage :
    decode (BitVec.ofNat 8 o.toNat :: BitVec.ofNat 8 (o.toNat / 256 + 0x10) :: data)
      = .ok (decodeBus .write o data) :=
  decode_bus .write o data

/-- Below 0x100 the offset leaves the selector's high byte to the direction (R71). -/
theorem decode_lowRead (ho : o.toNat < 0x100) :
    decode (BitVec.ofNat 8 o.toNat :: 0x00#8 :: data) = .ok (decodeBus .read o data) := by
  have himage := decode_readImage (o := o) data
  rwa [Nat.div_eq_of_lt ho] at himage

theorem decode_lowWrite (ho : o.toNat < 0x100) :
    decode (BitVec.ofNat 8 o.toNat :: 0x10#8 :: data) = .ok (decodeBus .write o data) := by
  have himage := decode_writeImage (o := o) data
  rwa [Nat.div_eq_of_lt ho] at himage

theorem decodeBus_read_of_config (ho : 0x100 ≤ o.toNat) :
    decodeBus .read o data = .rdConfig (o - 0x100#12) data.length := if_pos ho

theorem decodeBus_write_of_config (ho : 0x100 ≤ o.toNat) :
    decodeBus .write o data = .wrConfig (o - 0x100#12) data.length := if_pos ho

end images

/-! ## The directions of the register map -/

/-- The offsets of the registers that R21 lets be read. -/
def readableOffsets : List Nat := [0x00, 0x04, 0x08, 0x0C, 0x10, 0x34, 0x40, 0x60, 0x70]

/-- The offsets of the registers that R21 lets be written. -/
def writableOffsets : List Nat := [0x14, 0x20, 0x24, 0x28, 0x30, 0x38, 0x3C, 0x40, 0x50, 0x64, 0x70]

theorem mem_readableOffsets_iff (r : Reg) : (regOffset r).toNat ∈ readableOffsets ↔ (regRead r).isSome := by
  cases r <;> decide

theorem mem_writableOffsets_iff (r : Reg) (v : Word) :
    (regOffset r).toNat ∈ writableOffsets ↔ (regWrite v r).isSome := by
  cases r <;> simp [regOffset, writableOffsets, regWrite]

/-- A register is found at its own offset only. -/
theorem regOffset_of_regAt {o : Offset} {r : Reg} (h : regAt o = some r) : regOffset r = o :=
  eq_of_beq (List.find?_some (p := (regOffset · == o)) h)

theorem regAccess_read_eq_none {o : Offset} (h : o.toNat ∉ readableOffsets) (v : Word) :
    regAccess .read o v = none := by
  refine Option.bind_eq_none_iff.mpr fun r hr => ?_
  rwa [← regOffset_of_regAt hr, mem_readableOffsets_iff, Option.not_isSome_iff_eq_none] at h

theorem regAccess_write_eq_none {o : Offset} (h : o.toNat ∉ writableOffsets) (v : Word) :
    regAccess .write o v = none := by
  refine Option.bind_eq_none_iff.mpr fun r hr => ?_
  rwa [← regOffset_of_regAt hr, mem_writableOffsets_iff r v, Option.not_isSome_iff_eq_none] at h

/-! ## The operations -/

theorem raiseRegisterError_eq (dir : Dir) (o : Offset) (n : Nat) (s : State) :
    raiseRegisterError dir o n s = afterRegisterError s dir o n := rfl

section operations

variable (k : Offset) (n : Nat) (s : State)

theorem exec_rdConfig : exec (.rdConfig k n) s = execRdConfig k n s := rfl

theorem exec_wrConfig :
    exec (.wrConfig k n) s = .next (raiseRegisterError .write (k + 0x100#12) n s) := rfl

theorem exec_invalidAccess (dir : Dir) :
    exec (.invalidAccess dir k n) s = .next (raiseRegisterError dir k n s) := rfl

variable {k n s}

theorem execRdConfig_inside (h : configExtentOk s.cfg k n = true) :
    execRdConfig k n s = .next (busRead (configSlice s.configSpace k n) s) := if_pos h

theorem execRdConfig_outside (h : configExtentOk s.cfg k n = false) :
    execRdConfig k n s = .next (raiseRegisterError .read (k + 0x100#12) n s) :=
  if_neg (ne_true_of_eq_false h)

theorem configExtentOk_eq_false_iff {c : Config} (h : c.wf = true) :
    configExtentOk c k n = false ↔ n = 0 ∨ 17 < k.toNat + n := by
  rw [← Bool.not_eq_true, configExtentOk_iff h, not_and_or, not_not, not_le]

end operations

/-! ## The obligations -/

/-- Settles O28: an access the register map does not have, or of another length, is left to the catch-all row, which
raises the RegisterError. -/
theorem invalidAccessIsARegisterError : Obligations.InvalidAccessIsARegisterError := by
  refine ⟨fun o data ho => ⟨fun hbad => ?read, fun hbad => ?write⟩, fun dir o n s => ?effect⟩
  case read =>
    have hrefused (hlen : data.length = 4) : regAccess .read o 0#32 = none :=
      regAccess_read_eq_none (hbad.resolve_right (not_not_intro hlen)) _
    rw [decode_lowRead data ho, decodeBus_invalid ho hrefused]
  case write =>
    have hrefused (hlen : data.length = 4) : regAccess .write o 0#32 = none :=
      regAccess_write_eq_none (hbad.resolve_right (not_not_intro hlen)) _
    rw [decode_lowWrite data ho, decodeBus_invalid ho hrefused]
  case effect => rw [exec_invalidAccess, raiseRegisterError_eq]

/-- Settles O25: the two clauses are the two sides of the extent check. -/
theorem configReadStaysInsideTheExtent : Obligations.ConfigReadStaysInsideTheExtent := by
  refine ⟨fun o data ho => ?encoding, fun k n s hwf => ⟨fun hpos hend => ?inside, fun hbad => ?outside⟩⟩
  case encoding => rw [decode_readImage, decodeBus_read_of_config data ho]
  case inside =>
    have hextent : configExtentOk s.cfg k n = true := (configExtentOk_iff hwf k n).mpr ⟨hpos.ne', hend⟩
    rw [exec_rdConfig, execRdConfig_inside hextent]
    rfl
  case outside =>
    have hextent : configExtentOk s.cfg k n = false := (configExtentOk_eq_false_iff hwf).mpr hbad
    rw [exec_rdConfig, execRdConfig_outside hextent, raiseRegisterError_eq]

/-- Settles O27: the write row of the DeviceSpecific range raises the RegisterError whatever its index and length. -/
theorem configWriteIsRejected : Obligations.ConfigWriteIsRejected := by
  refine ⟨fun o data ho => ?encoding, fun k n s => ?effect⟩
  case encoding => rw [decode_writeImage, decodeBus_write_of_config data ho]
  case effect => rw [exec_wrConfig, raiseRegisterError_eq]

end Sys2Proof.Machine
end

