-- ==== Sys2Proof/Proofs/Chains.lean ====
section
/-! Descriptors and chains (spec/45_virtqueue_engine.md R171, R172): where a descriptor is read, which lists the walk
answers while the guest is quiet, and what bounds a walked chain in any interleaving. -/

namespace Sys2Proof.Machine

/-! ## Descriptors -/

/-- `LE64` of eight bytes is their concatenation, the last in the most significant place. -/
theorem le64_octet (b0 b1 b2 b3 b4 b5 b6 b7 : Byte) :
    le64 [b0, b1, b2, b3, b4, b5, b6, b7] = b7 ++ b6 ++ b5 ++ b4 ++ b3 ++ b2 ++ b1 ++ b0 := by
  apply BitVec.eq_of_toNat_eq
  have hbound := leNat_lt [b0, b1, b2, b3, b4, b5, b6, b7]
  simp only [List.length_cons, List.length_nil, leNat] at hbound
  simp only [append_toNat_low, le64, BitVec.toNat_ofNat, leNat]
  omega

/-- Slot `k` of the descriptor table (R184). -/
theorem descEntryAddr_eq (q : Queue) (k : Half) :
    descEntryAddr q k = q.descAddr + BitVec.ofNat 64 (16 * k.toNat) := availAddrOf_eq q.descAddr k

theorem descRead_forbidden {s : State} {i : QueueId} {k : Half}
    (h : accessOk s (descEntryAddr (s.queue i) k) 16 = false) :
    descRead i k s = .fault (descEntryAddr (s.queue i) k).toNat 16 s := by
  rw [descRead, memReadTorn_forbidden _ (by decide) h, Res.bind_fault]

theorem descRead_cfg {i : QueueId} {k : Half} {s t : State} {d : Desc} (h : descRead i k s = .ok d t) :
    t.cfg = s.cfg := by
  have haccess := descRead_access i k s
  rw [h] at haccess
  exact (haccess.engine (i := i)).cfg

/-- Settles O32: each field is the little-endian number of its bytes, and the slot's address is that of R184. -/
theorem descriptorsAreReadFromTheirSlots : Obligations.DescriptorsAreReadFromTheirSlots := by
  refine ⟨fun b0 b1 b2 b3 b4 b5 b6 b7 b8 b9 b10 b11 b12 b13 b14 b15 => ?fields, fun s i k a hq ha => ?slot⟩
  case fields =>
    rw [← le64_octet, ← le32_quad, ← le16_pair, ← le16_pair]
    rfl
  case slot =>
    obtain rfl : a = descEntryAddr (s.queue i) k := ha.trans (descEntryAddr_eq _ k).symm
    exact ⟨descRead_quiet hq, descRead_forbidden⟩

/-! ## Linked chains -/

section linked

variable {s : State} {i : QueueId} {k : Half} {chain : List Desc} {d e : Desc} {ds : List Desc}

theorem linked_singleton : linked s i k [d] ↔ d = descAt s i k ∧ d.hasNext = false := .rfl

theorem linked_cons_cons :
    linked s i k (d :: e :: ds) ↔ d = descAt s i k ∧ d.hasNext = true
      ∧ d.next.toNat < (s.queue i).size.toNat ∧ linked s i d.next (e :: ds) := .rfl

/-- A chain begins with the descriptor in its slot. -/
theorem linked_head (h : linked s i k chain) : chain.head? = some (descAt s i k) := by
  cases chain with
  | nil => exact h.elim
  | cons d ds =>
    cases ds with
    | nil => rw [List.head?_cons, (linked_singleton.mp h).1]
    | cons e es => rw [List.head?_cons, (linked_cons_cons.mp h).1]

theorem linked_of_last (hlast : (descAt s i k).hasNext = false) :
    linked s i k chain ↔ chain = [descAt s i k] := by
  constructor
  · intro h
    cases chain with
    | nil => exact h.elim
    | cons d ds =>
      cases ds with
      | nil => rw [(linked_singleton.mp h).1]
      | cons e es =>
        obtain ⟨hd, hnext, -⟩ := linked_cons_cons.mp h
        rw [hd, hlast] at hnext
        cases hnext
  · rintro rfl
    exact linked_singleton.mpr ⟨rfl, hlast⟩

theorem linked_of_hasNext (hnext : (descAt s i k).hasNext = true) :
    linked s i k chain ↔ (descAt s i k).next.toNat < (s.queue i).size.toNat
      ∧ ∃ rest, chain = descAt s i k :: rest ∧ linked s i (descAt s i k).next rest := by
  constructor
  · intro h
    cases chain with
    | nil => exact h.elim
    | cons d ds =>
      cases ds with
      | nil =>
        obtain ⟨hd, hlast⟩ := linked_singleton.mp h
        rw [hd, hnext] at hlast
        cases hlast
      | cons e es =>
        obtain ⟨hd, -, hlt, hrest⟩ := linked_cons_cons.mp h
        rw [hd] at hlt hrest ⊢
        exact ⟨hlt, e :: es, rfl, hrest⟩
  · rintro ⟨hlt, rest, rfl, hrest⟩
    cases rest with
    | nil => exact hrest.elim
    | cons e es => exact linked_cons_cons.mpr ⟨rfl, hnext, hlt, hrest⟩

theorem linked_length_pos (h : linked s i k chain) : 0 < chain.length :=
  List.length_pos_iff_exists_mem.mpr ⟨_, List.mem_of_mem_head? (linked_head h)⟩

end linked

/-! ## The walk while the guest is quiet -/

/-- The walk of at most `rem` descriptors from slot `k` has to find `chain`: checks W2, W4 and, on the chain's first
descriptor, W3 (R172). -/
structure WalkedFrom (s : State) (i : QueueId) (rem : Nat) (k : Half) (first : Bool) (chain : List Desc) : Prop where
  links : linked s i k chain
  length : chain.length ≤ rem
  header : first = true → s.cfg.netHdrLen ≤ (descAt s i k).len.toNat

section quietWalk

variable {s : State} {i : QueueId} (hq : quiet s)
  (htable : ∀ k : Half, k.toNat < (s.queue i).size.toNat → accessOk s (descEntryAddr (s.queue i) k) 16 = true)

theorem walkedFrom_of_last {rem : Nat} {k : Half} {first : Bool} {chain : List Desc}
    (hlast : (descAt s i k).hasNext = false) (hheader : first = true → s.cfg.netHdrLen ≤ (descAt s i k).len.toNat) :
    WalkedFrom s i (rem + 1) k first chain ↔ chain = [descAt s i k] := by
  constructor
  · exact fun h => (linked_of_last hlast).mp h.links
  · rintro rfl
    exact ⟨(linked_of_last hlast).mpr rfl, Nat.succ_le_succ (Nat.zero_le rem), hheader⟩

theorem walkedFrom_of_hasNext {rem : Nat} {k : Half} {first : Bool} {chain : List Desc}
    (hnext : (descAt s i k).hasNext = true) (hheader : first = true → s.cfg.netHdrLen ≤ (descAt s i k).len.toNat)
    (hlt : (descAt s i k).next.toNat < (s.queue i).size.toNat) :
    WalkedFrom s i (rem + 1) k first chain ↔
      ∃ rest, chain = descAt s i k :: rest ∧ WalkedFrom s i rem (descAt s i k).next false rest := by
  constructor
  · intro h
    obtain ⟨-, rest, rfl, hrest⟩ := (linked_of_hasNext hnext).mp h.links
    exact ⟨rest, rfl, hrest, Nat.le_of_succ_le_succ h.length, nofun⟩
  · rintro ⟨rest, rfl, hrest⟩
    exact ⟨(linked_of_hasNext hnext).mpr ⟨hlt, rest, rfl, hrest.links⟩, Nat.succ_le_succ hrest.length, hheader⟩

theorem wellFormedChain_iff {head : Half} {chain : List Desc} (hhead : head.toNat < (s.queue i).size.toNat) :
    WellFormedChain s i head chain ↔ WalkedFrom s i (s.queue i).size.toNat head true chain := by
  constructor
  · intro h
    exact ⟨h.links, h.length, fun _ => h.header _ (linked_head h.links)⟩
  · intro h
    refine ⟨hhead, h.links, h.length, fun d hd => ?_⟩
    obtain rfl : descAt s i head = d := Option.some.inj ((linked_head h.links).symm.trans hd)
    exact h.header rfl

include hq htable

/-- The walk answers without a fault, changes nothing, and what it finds is the chain that passes the checks. -/
theorem walkFrom_quiet (rem : Nat) (k : Half) (first : Bool) (hk : k.toNat < (s.queue i).size.toNat) :
    ∃ found, walkFrom i (s.queue i).size.toNat rem k first s = .ok found s
      ∧ ∀ chain, found = some chain ↔ WalkedFrom s i rem k first chain := by
  induction rem generalizing k first with
  | zero =>
    refine ⟨none, rfl, fun chain => ⟨nofun, fun h => ?_⟩⟩
    exact absurd (linked_length_pos h.links) (Nat.not_lt_of_le h.length)
  | succ rem ih =>
    rw [walkFrom, descRead_quiet hq (htable k hk), Res.bind_ok]
    split
    next hshort =>
      obtain ⟨hfirst, hlen⟩ : first = true ∧ (descAt s i k).len.toNat < s.cfg.netHdrLen := by simpa using hshort
      exact ⟨none, rfl, fun chain => ⟨nofun, fun h => absurd (h.header hfirst) (Nat.not_le_of_lt hlen)⟩⟩
    next hlong =>
      have hheader : first = true → s.cfg.netHdrLen ≤ (descAt s i k).len.toNat := by simpa using hlong
      split
      next hlast =>
        rw [Bool.not_eq_true'] at hlast
        exact ⟨_, rfl, fun chain => by rw [walkedFrom_of_last hlast hheader, Option.some_inj, eq_comm]⟩
      next hmore =>
        rw [Bool.not_eq_true', Bool.not_eq_false] at hmore
        split
        next hout =>
          refine ⟨none, rfl, fun chain => ⟨nofun, fun h => ?_⟩⟩
          exact absurd ((linked_of_hasNext hmore).mp h.links).1 (Nat.not_lt_of_le hout)
        next hin =>
          have hlt := Nat.lt_of_not_le hin
          obtain ⟨found, hwalk, hfound⟩ := ih (descAt s i k).next false hlt
          refine ⟨found.map (descAt s i k :: ·), by rw [hwalk, Res.bind_ok], fun chain => ?_⟩
          rw [walkedFrom_of_hasNext hmore hheader hlt, Option.map_eq_some_iff]
          exact exists_congr fun rest => by rw [hfound rest, eq_comm (a := chain), and_comm]

theorem walkChain_quiet (head : Half) :
    ∃ found, walkChain i head s = .ok found s ∧ ∀ chain, found = some chain ↔ WellFormedChain s i head chain := by
  unfold walkChain
  split
  next hout => exact ⟨none, rfl, fun chain => ⟨nofun, fun h => absurd h.inTable (Nat.not_lt_of_le hout)⟩⟩
  next hin =>
    have hhead := Nat.lt_of_not_le hin
    obtain ⟨found, hwalk, hfound⟩ := walkFrom_quiet hq htable (s.queue i).size.toNat head true hhead
    exact ⟨found, hwalk, fun chain => (hfound chain).trans (wellFormedChain_iff hhead).symm⟩

theorem walkChain_of_wellFormed {head : Half} {chain : List Desc} (h : WellFormedChain s i head chain) :
    walkChain i head s = .ok (some chain) s := by
  obtain ⟨found, hwalk, hfound⟩ := walkChain_quiet hq htable head
  rw [hwalk, (hfound chain).mpr h]

theorem walkChain_of_malformed {head : Half} (h : ¬ ∃ chain, WellFormedChain s i head chain) :
    walkChain i head s = .ok none s := by
  obtain ⟨found, hwalk, hfound⟩ := walkChain_quiet hq htable head
  rw [hwalk]
  cases found with
  | none => rfl
  | some chain => exact absurd ⟨chain, (hfound chain).mp rfl⟩ h

theorem wellFormed_of_walkChain {head : Half} {chain : List Desc} (h : walkChain i head s = .ok (some chain) s) :
    WellFormedChain s i head chain := by
  obtain ⟨found, hwalk, hfound⟩ := walkChain_quiet hq htable head
  cases hwalk.symm.trans h
  exact (hfound chain).mp rfl

end quietWalk

/-- Settles O33: what the walk finds is characterised by induction on the descriptors it may still take, each step
following the link `linked` follows. -/
theorem walkChainAcceptsExactlyTheWellFormedChains : Obligations.WalkChainAcceptsExactlyTheWellFormedChains :=
  fun _ _ _ hq htable =>
    ⟨fun _ => ⟨wellFormed_of_walkChain hq htable, walkChain_of_wellFormed hq htable⟩,
      walkChain_of_malformed hq htable⟩

/-! ## The walk in any interleaving -/

/-- Every descriptor but the last continues at a slot below `n`, and the last does not continue (R172, check W4). -/
structure FollowsLinks (n : Nat) (chain : List Desc) : Prop where
  followed : ∀ d ∈ chain.dropLast, d.hasNext = true ∧ d.next.toNat < n
  ends : ∀ d, chain.getLast? = some d → d.hasNext = false

theorem FollowsLinks.singleton {n : Nat} {d : Desc} (h : d.hasNext = false) : FollowsLinks n [d] :=
  ⟨nofun, fun _ he => Option.some.inj he ▸ h⟩

theorem FollowsLinks.cons {n : Nat} {d : Desc} {chain : List Desc} (hchain : 1 ≤ chain.length)
    (hnext : d.hasNext = true) (hlt : d.next.toNat < n) (h : FollowsLinks n chain) : FollowsLinks n (d :: chain) := by
  have hne := List.ne_nil_of_length_pos hchain
  constructor
  · intro e he
    rw [List.dropLast_cons_of_ne_nil hne] at he
    obtain rfl | he := List.mem_cons.mp he
    · exact ⟨hnext, hlt⟩
    · exact h.followed e he
  · intro e he
    rw [List.getLast?_cons_of_ne_nil hne] at he
    exact h.ends e he

/-- What one round of the walk that answers a chain has read. -/
theorem walkFrom_succ_ok {i : QueueId} {n rem : Nat} {k : Half} {first : Bool} {s t : State} {chain : List Desc}
    (h : walkFrom i n (rem + 1) k first s = .ok (some chain) t) :
    ∃ d ds, chain = d :: ds ∧ (first = true → s.cfg.netHdrLen ≤ d.len.toNat)
      ∧ (d.hasNext = false ∧ ds = []
        ∨ d.hasNext = true ∧ d.next.toNat < n ∧ ∃ u, walkFrom i n rem d.next false u = .ok (some ds) t) := by
  rw [walkFrom] at h
  obtain ⟨d, u, hread, h⟩ := Res.bind_eq_ok h
  split at h
  next => cases h
  next hlong =>
    have hheader : first = true → s.cfg.netHdrLen ≤ d.len.toNat := by simpa [descRead_cfg hread] using hlong
    split at h
    next hlast =>
      cases h
      exact ⟨d, [], rfl, hheader, .inl ⟨by simpa using hlast, rfl⟩⟩
    next hmore =>
      split at h
      next => cases h
      next hin =>
        obtain ⟨rest, v, hwalk, hrest⟩ := Res.bind_eq_ok h
        simp only [Res.ok.injEq, Option.map_eq_some_iff] at hrest
        obtain ⟨⟨ds, rfl, rfl⟩, rfl⟩ := hrest
        exact ⟨d, ds, rfl, hheader, .inr ⟨by simpa using hmore, Nat.lt_of_not_le hin, u, hwalk⟩⟩

theorem walkFrom_bounds {i : QueueId} {n : Nat} : ∀ (rem : Nat) {k : Half} {first : Bool} {s t : State}
    {chain : List Desc}, walkFrom i n rem k first s = .ok (some chain) t →
    1 ≤ chain.length ∧ chain.length ≤ rem ∧ FollowsLinks n chain
      ∧ (first = true → ∀ d, chain.head? = some d → s.cfg.netHdrLen ≤ d.len.toNat)
  | 0, _, _, _, _, _, h => by cases h
  | rem + 1, k, first, s, t, chain, h => by
    obtain ⟨d, ds, rfl, hheader, hstop | hgo⟩ := walkFrom_succ_ok h
    · obtain ⟨hlast, rfl⟩ := hstop
      exact ⟨le_refl 1, Nat.succ_le_succ (Nat.zero_le rem), .singleton hlast,
        fun hf e he => Option.some.inj he ▸ hheader hf⟩
    · obtain ⟨hnext, hlt, u, hwalk⟩ := hgo
      obtain ⟨hpos, hlen, hlinks, -⟩ := walkFrom_bounds rem hwalk
      exact ⟨Nat.succ_le_succ (Nat.zero_le _), Nat.succ_le_succ hlen, hlinks.cons hpos hnext hlt,
        fun hf e he => Option.some.inj he ▸ hheader hf⟩

/-- Settles O34: by induction on the descriptors still allowed, from the checks of one round. -/
theorem walkedChainsAreBounded : Obligations.WalkedChainsAreBounded := by
  intro s t i head chain h
  unfold walkChain at h
  split at h
  next => cases h
  next hin =>
    obtain ⟨hpos, hlen, hlinks, hheader⟩ := walkFrom_bounds _ h
    exact ⟨Nat.lt_of_not_le hin, hpos, hlen, hheader rfl, hlinks.followed, hlinks.ends⟩

end Sys2Proof.Machine
end

