-- ==== Sys2Proof/Proofs/RingArbiter.lean ====
section
/-! The ring arbiter while the guest is quiet (spec/45_virtqueue_engine.md R174 to R179): the available ring at the
cursor, the notification flag, and what memory holds after an entry is posted. -/

namespace Sys2Proof.Machine

/-! ## The available ring -/

theorem availRingAddr_eq (q : Queue) :
    availRingAddr q = q.availAddr + BitVec.ofNat 64 (4 + 2 * (q.nextAvail.toNat % q.size.toNat)) := by
  rw [availRingAddr, BitVec.add_assoc, BitVec.ofNat_add, slotOf]

/-- A cursor's next value, modulo 2^16 (R182). -/
theorem half_succ (c : Half) : c + 1#16 = BitVec.ofNat 16 ((c.toNat + 1) % 2 ^ 16) := by
  apply BitVec.eq_of_toNat_eq
  rw [BitVec.toNat_add, BitVec.toNat_ofNat, BitVec.toNat_ofNat]
  omega

/-- Settles O35: the quiet forms of the two reads, at the addresses of R184, and the cursor's next value. -/
theorem availableRingIsReadAtTheCursor : Obligations.AvailableRingIsReadAtTheCursor := by
  refine fun s i slotAddr hq => ⟨fun hidx => ?pending, fun hslot hring => ?peek, ?advance⟩
  case pending =>
    have hne : (availIdx s i != (s.queue i).nextAvail) = decide (availIdx s i ≠ (s.queue i).nextAvail) := by
      rw [bne, decide_not, beq_eq_decide]
    rw [availPending_quiet hq hidx, hne]
    rfl
  case peek =>
    obtain rfl : slotAddr = availRingAddr (s.queue i) := hslot.trans (availRingAddr_eq _).symm
    exact availPeek_quiet hq hring
  case advance => rw [availAdvance, half_succ]

/-! ## The notification flag -/

/-- A store after the bank was replaced, as one update. -/
theorem setQueue_stored (s : State) (i : QueueId) (q : Queue) (a : Dword) (bs : List Byte) :
    (s.setQueue i q).stored a bs = { s.setQueue i q with mem := writeBytes s.mem a bs } := by
  rw [State.stored, setQueue_mem]

/-- Settles O36: the state bit is set first, and the half-word is stored in memory as it was. -/
theorem notificationFlagIsMirrored : Obligations.NotificationFlagIsMirrored := by
  intro s i hq haccess
  rw [notifyDisable_quiet hq haccess, notifyEnable_quiet hq haccess, setQueue_stored, setQueue_stored]
  exact ⟨rfl, rfl⟩

/-! ## A posted entry -/

theorem bytesLE_zeroExtend (head : Half) : bytesLE 4 (head.zeroExtend 32).toNat = bytesLE 4 head.toNat := by
  rw [BitVec.toNat_setWidth_of_le (by decide)]

theorem usedIdAddr_eq (q : Queue) :
    usedIdAddr q = q.usedAddr + BitVec.ofNat 64 (4 + 8 * (q.nextUsed.toNat % q.size.toNat)) := by
  rw [usedIdAddr, BitVec.add_assoc, BitVec.ofNat_add, slotOf]

theorem usedLenAddr_eq (q : Queue) :
    usedLenAddr q = q.usedAddr + BitVec.ofNat 64 (8 + 8 * (q.nextUsed.toNat % q.size.toNat)) := by
  rw [usedLenAddr, BitVec.add_assoc, BitVec.ofNat_add, slotOf]

/-- A stored number reads back. -/
theorem readBytes_writeBytes_bytesLE {m : Memory} (hw : m.wf = true) (a : Dword) {n : Nat} (v : Nat)
    (h : a.toNat + n ≤ 2 ^ 64) : readBytes (writeBytes m a (bytesLE n v)) a n = bytesLE n v := by
  have hread := readBytes_writeBytes hw a (bytesLE n v) (by rwa [bytesLE_length])
  rwa [bytesLE_length] at hread

/-- A read beside a stored number is as before. -/
theorem readBytes_writeBytes_bytesLE_outside {m : Memory} (hw : m.wf = true) {a c : Dword} {k n : Nat} (v : Nat)
    (ha : a.toNat + k ≤ 2 ^ 64) (hc : c.toNat + n ≤ 2 ^ 64)
    (h : c.toNat + n ≤ a.toNat ∨ a.toNat + k ≤ c.toNat) :
    readBytes (writeBytes m a (bytesLE k v)) c n = readBytes m c n :=
  readBytes_writeBytes_outside hw (by rwa [bytesLE_length]) hc (by rwa [bytesLE_length])

/-- A byte beside a stored number is as before. -/
theorem memGet_writeBytes_bytesLE_outside {m : Memory} (hw : m.wf = true) {a : Dword} {k x : Nat} (v : Nat)
    (ha : a.toNat + k ≤ 2 ^ 64) (h : x < a.toNat ∨ a.toNat + k ≤ x) :
    memGet (writeBytes m a (bytesLE k v)) x = memGet m x :=
  memGet_writeBytes_outside hw (by rwa [bytesLE_length]) (by rwa [bytesLE_length])

theorem posted_mem (i : QueueId) (q : Queue) (head : Half) (n : Word) (t : State) :
    (posted i q head n t).mem =
      writeBytes (writeBytes (writeBytes t.mem (usedIdAddr q) (bytesLE 4 head.toNat)) (usedLenAddr q)
        (bytesLE 4 n.toNat)) (usedIdxAddr q) (bytesLE 2 ((t.queue i).nextUsed + 1#16).toNat) := by
  simp only [posted, stored_mem, setQueue_mem, bytesLE_zeroExtend]

/-- In the used ring: `flags`, `idx`, and behind them the element's `id` and `len` (R184). -/
theorem entry_places {q : Queue} (hr : RingsApart q) (hz : 0 < q.size.toNat) :
    (usedIdxAddr q).toNat = q.usedAddr.toNat + 2 ∧ (usedIdxAddr q).toNat + 2 ≤ (usedIdAddr q).toNat
      ∧ (usedLenAddr q).toNat = (usedIdAddr q).toNat + 4 ∧ (usedIdAddr q).toNat + 8 ≤ 2 ^ 64 := by
  have hend := hr.used
  have hslot := slot_lt q.nextUsed _ hz
  rw [addr_usedIdx hr, addr_usedId hr hz, addr_usedLen hr hz]
  omega

section posted

variable {i : QueueId} {q : Queue} {t : State} (head : Half) (n : Word) (hw : t.mem.wf = true) (hr : RingsApart q)
  (hz : 0 < q.size.toNat)

include hw hr hz

/-- The entry's head index (R179). -/
theorem posted_id : readBytes (posted i q head n t).mem (usedIdAddr q) 4 = bytesLE 4 head.toNat := by
  obtain ⟨hidx, hid, hlen, hend⟩ := entry_places hr hz
  have hw1 := writeBytes_wf (bytesLE 4 head.toNat) (usedIdAddr q) hw
  have hw2 := writeBytes_wf (bytesLE 4 n.toNat) (usedLenAddr q) hw1
  rw [posted_mem, readBytes_writeBytes_bytesLE_outside hw2 _ (by omega) (by omega) (by omega),
    readBytes_writeBytes_bytesLE_outside hw1 _ (by omega) (by omega) (by omega),
    readBytes_writeBytes_bytesLE hw _ _ (by omega)]

/-- The entry's length. -/
theorem posted_len : readBytes (posted i q head n t).mem (usedLenAddr q) 4 = bytesLE 4 n.toNat := by
  obtain ⟨hidx, hid, hlen, hend⟩ := entry_places hr hz
  have hw1 := writeBytes_wf (bytesLE 4 head.toNat) (usedIdAddr q) hw
  have hw2 := writeBytes_wf (bytesLE 4 n.toNat) (usedLenAddr q) hw1
  rw [posted_mem, readBytes_writeBytes_bytesLE_outside hw2 _ (by omega) (by omega) (by omega),
    readBytes_writeBytes_bytesLE hw1 _ _ (by omega)]

omit hz in
/-- The published index. -/
theorem posted_idx :
    readBytes (posted i q head n t).mem (usedIdxAddr q) 2 = bytesLE 2 ((t.queue i).nextUsed + 1#16).toNat := by
  have hend := hr.used
  have hidx := addr_usedIdx hr
  have hw1 := writeBytes_wf (bytesLE 4 head.toNat) (usedIdAddr q) hw
  have hw2 := writeBytes_wf (bytesLE 4 n.toNat) (usedLenAddr q) hw1
  rw [posted_mem, readBytes_writeBytes_bytesLE hw2 _ _ (by omega)]

/-- No byte outside `idx` and the element changes. -/
theorem posted_outside {a : Nat} (hidxOut : a < (usedIdxAddr q).toNat ∨ (usedIdxAddr q).toNat + 2 ≤ a)
    (hslotOut : a < (usedIdAddr q).toNat ∨ (usedIdAddr q).toNat + 8 ≤ a) :
    memGet (posted i q head n t).mem a = memGet t.mem a := by
  obtain ⟨hidx, hid, hlen, hend⟩ := entry_places hr hz
  have hw1 := writeBytes_wf (bytesLE 4 head.toNat) (usedIdAddr q) hw
  have hw2 := writeBytes_wf (bytesLE 4 n.toNat) (usedLenAddr q) hw1
  rw [posted_mem, memGet_writeBytes_bytesLE_outside hw2 _ (by omega) (by omega),
    memGet_writeBytes_bytesLE_outside hw1 _ (by omega) (by omega),
    memGet_writeBytes_bytesLE_outside hw _ (by omega) (by omega)]

end posted

/-- Posting changes the cursor and memory. -/
theorem posted_eq (i : QueueId) (q : Queue) (head : Half) (n : Word) (t : State) :
    posted i q head n t =
      { t.setQueue i { t.queue i with nextUsed := (t.queue i).nextUsed + 1#16 } with
        mem := (posted i q head n t).mem } := by
  unfold posted
  generalize t.setQueue i _ = u
  rfl

/-- Settles O37: the three stores lie in the used ring and beside each other. -/
theorem usedPostPublishesOneEntry : Obligations.UsedPostPublishesOneEntry := by
  rintro s i head n slot hq hw haccess hr rfl hz
  have hid := addr_usedId hr hz
  have hidx := addr_usedIdx hr
  rw [slotOf] at hid
  refine ⟨(posted i (s.queue i) head n s).mem, ?_, ?_, ?_, posted_idx head n hw hr, fun a hidxOut hslotOut => ?_⟩
  · rw [← posted_eq]
    exact reached_usedPost (reached_refl hw) hq haccess rfl head n
  · rw [← usedIdAddr_eq]
    exact posted_id head n hw hr hz
  · rw [← usedLenAddr_eq]
    exact posted_len head n hw hr hz
  · exact posted_outside head n hw hr hz (by omega) (by omega)

end Sys2Proof.Machine
end

