-- ==== Sys2Proof/Proofs/TxDrain.lean ====
section
/-! The TX drain while the guest is quiet (spec/45_virtqueue_engine.md R180): a notify of an empty ring, and one of a
ring with one well-formed chain. -/

namespace Sys2Proof.Machine

/-! ## The rounds of the drain -/

section rounds

variable {s t u : State}

/-- A round that takes a chain. -/
theorem txLoop_of_pending {fuel : Nat} (hpending : availPending .tx s = .ok true t) (hchain : txChain t = .ok () u) :
    txLoop (fuel + 1) s = txLoop fuel u := by
  simp only [txLoop, hpending, hchain]

/-- The round that ends the drain. -/
theorem txLoop_of_rechecked {fuel : Nat} (hpending : availPending .tx s = .ok false t)
    (hrecheck : reArm .tx t = .ok false u) : txLoop (fuel + 1) s = some (.ok () u) := by
  simp only [txLoop, hpending, hrecheck]

/-- A drain without a fault: disable, the rounds, the interrupt decision. -/
theorem processTx_of_drained {v : State} (hdisable : notifyDisable .tx s = .ok () t)
    (hloop : txLoop (drainFuel t) t = some (.ok () u)) (hnotify : maybeNotify .tx u = .ok () v) :
    processTx s = some v := by
  simp only [processTx, hdisable, hloop, endDrain, hnotify]

/-- A notify that is not rejected runs the drain and answers `Ok` (R127). -/
theorem exec_wrQueueNotify_of_drained {i : QueueId} {v : Word} (hqueue : queueOf s.cfg v = some i)
    (hop : s.operational = true) (hconf : configured (s.queue i) = true) (hdrain : processQueue i s = some t) :
    exec (.wrQueueNotify v) s = .next (busOk t) := by
  simp [exec_wrQueueNotify, execWrQueueNotify, hqueue, hop, hconf, hdrain]

end rounds

/-! ## An empty ring -/

/-- The drain ends in the round in which the cursor has met the index. -/
theorem reached_txLoop_end {s t : State} (h : Reached .tx s t) (hq : quiet s) (hr : RingsApart s.txq)
    (haccess : RingsAccessible s .tx) (hmet : availIdx s .tx = t.txq.nextAvail) (fuel : Nat) :
    txLoop (fuel + 1) t = some (.ok () (enabled .tx s.txq.usedAddr t)) := by
  have hpending : availPending .tx t = .ok false t := by
    rw [reached_availPending h hq hr haccess, queue_tx, bne_eq_false_iff_eq.mpr hmet]
  exact txLoop_of_rechecked hpending (reached_reArm h hq hr haccess hmet)

/-- Disabling notifications and enabling them again. -/
theorem enabled_disabled (i : QueueId) (u : Dword) (s : State) :
    enabled i u (disabled i u s) = { s.setQueue i { s.queue i with notifySuppressed := false } with
      mem := writeBytes (writeBytes s.mem u [1#8, 0#8]) u [0#8, 0#8] } := by
  cases i <;> rfl

/-- Settles O42: the drain ends in its first round, and with no entry posted there is no interrupt decision. -/
theorem txNotifyOnAnEmptyRing : Obligations.TxNotifyOnAnEmptyRing := by
  intro s hwf hq hmem hop hconf haccess hr hempty hposted
  have hdisabled : Reached .tx s (disabled .tx s.txq.usedAddr s) := reached_disabled (reached_refl hmem) hr
  obtain ⟨fuel, hfuel⟩ := drainFuel_three (disabled .tx s.txq.usedAddr s)
  have hloop := reached_txLoop_end hdisabled hq hr haccess hempty (fuel + 2)
  have hdrain : processTx s = some (enabled .tx s.txq.usedAddr (disabled .tx s.txq.usedAddr s)) :=
    processTx_of_drained (reached_notifyDisable (reached_refl hmem) hq haccess) (hfuel ▸ hloop)
      (maybeNotify_none hposted)
  rw [exec_wrQueueNotify_of_drained (i := .tx) (queueOf_one hwf) hop hconf hdrain, enabled_disabled]
  rfl

/-! ## Gathering a chain -/

/-- A read in pieces while the guest is quiet, of no byte or permitted. -/
theorem memReadTorn_quiet_ok {s : State} (hq : quiet s) (ps : List Piece) {a : Dword} {n : Nat}
    (h : n ≠ 0 → accessOk s a n = true) : memReadTorn ps a n s = .ok (readBytes s.mem a n) s := by
  by_cases hn : n = 0
  · rw [hn, memReadTorn_zero]
    rfl
  · rw [memReadTorn_quiet hq ps a hn, if_pos (h hn)]

theorem len_toNat_eq_zero_iff {d : Desc} : d.len.toNat = 0 ↔ d.len = 0#32 := BitVec.toNat_inj (y := 0#32)

theorem txGather_quiet {s : State} (hq : quiet s) : ∀ chain : List Desc,
    (∀ d ∈ chain, d.len ≠ 0#32 → accessOk s d.addr d.len.toNat = true) →
    txGather chain s = .ok (chainBytes s.mem chain) s
  | [], _ => rfl
  | d :: ds, h => by
    have hd := h d (List.mem_cons_self ..)
    rw [txGather, memReadTorn_quiet_ok hq _ fun hn => hd (len_toNat_eq_zero_iff.not.mp hn), Res.bind_ok,
      txGather_quiet hq ds fun e he => h e (.tail _ he), Res.bind_ok, chainBytes]

/-- Buffers off the rings hold what they held before the device wrote into the used ring. -/
theorem chainBytes_agree {q : Queue} {m m' : Memory} (hr : RingsApart q) (h : agreeOutside q m m') :
    ∀ chain : List Desc, (∀ d ∈ chain, d.len ≠ 0#32 → d.addr.toNat + d.len.toNat ≤ 2 ^ 64) →
    (∀ d ∈ chain, offRings q d) → chainBytes m' chain = chainBytes m chain
  | [], _, _ => rfl
  | d :: ds, hbound, hoff => by
    have hrest := chainBytes_agree hr h ds (fun e he => hbound e (.tail _ he)) fun e he => hoff e (.tail _ he)
    have hd : readBytes m' d.addr d.len.toNat = readBytes m d.addr d.len.toNat := by
      by_cases hzero : d.len = 0#32
      · rw [hzero]
        rfl
      · have htable := hr.table
        have havail := hr.avail
        refine agreeOutside_read h (hbound d (List.mem_cons_self ..) hzero) ?_
        obtain hbefore | hbehind := hoff d (List.mem_cons_self ..)
        · exact .inl (by omega)
        · exact .inr (by omega)
    rw [chainBytes, chainBytes, hd, hrest]

/-! ## Pushing a frame -/

/-- Handing a frame to the host, as one update (R202, R234). -/
theorem pushFrame_eq (bytes : List Byte) (s : State) :
    pushFrame bytes s = { s with
      history := s.history ++ [.hostTxPush bytes]
      txAnswers := s.txAnswers.tail
      diag := { s.diag with
        hostIoErrors := s.diag.hostIoErrors + if s.txAnswers.head? = some .error then 1 else 0 }
      errorLog := s.errorLog ++ if s.txAnswers.head? = some .error then [.hostIoError] else [] } := by
  have hanswer : nextTxAnswer s.txAnswers = .error ↔ s.txAnswers.head? = some .error := by
    cases s.txAnswers with
    | nil => simp [nextTxAnswer]
    | cons a as => simp [nextTxAnswer]
  rw [pushFrame, hostTxPush, List.drop_one]
  cases h : nextTxAnswer s.txAnswers with
  | ok =>
    have hok : s.txAnswers.head? ≠ some .error := by
      rw [← hanswer.ne, h]
      nofun
    simp only [if_neg hok, Nat.add_zero, List.append_nil]
    rfl
  | error =>
    simp only [if_pos (hanswer.mp h)]
    rfl

theorem reached_pushFrame {i : QueueId} {s t : State} (h : Reached i s t) (bytes : List Byte) :
    Reached i s (pushFrame bytes t) := by
  refine reached_of_eq h ?_
  rw [pushFrame_eq]

/-! ## One chain -/

/-- The state after the drain has taken a chain with these bytes. -/
def transmitted (s : State) (head : Half) (bytes : List Byte) (t : State) : State :=
  posted .tx s.txq head s.cfg.txUsedLen (pushFrame bytes (availAdvance .tx t))

/-- Taking a chain, as one update. -/
theorem transmitted_eq (s : State) (head : Half) (bytes : List Byte) (t : State) :
    transmitted s head bytes t = { t with
      txq := { t.txq with nextAvail := t.txq.nextAvail + 1#16, nextUsed := t.txq.nextUsed + 1#16 }
      mem := (transmitted s head bytes t).mem
      history := t.history ++ [.hostTxPush bytes]
      txAnswers := t.txAnswers.tail
      diag := { t.diag with
        hostIoErrors := t.diag.hostIoErrors + if t.txAnswers.head? = some .error then 1 else 0 }
      errorLog := t.errorLog ++ if t.txAnswers.head? = some .error then [.hostIoError] else [] } := by
  have hposted := posted_eq .tx s.txq head s.cfg.txUsedLen (pushFrame bytes (availAdvance .tx t))
  rw [← transmitted] at hposted
  generalize (transmitted s head bytes t).mem = m at hposted ⊢
  rw [hposted, pushFrame_eq]
  rfl

section chain

variable {s t : State} {chain : List Desc} (h : Reached .tx s t) (hr : RingsApart s.txq)
  (hz : 0 < s.txq.size.toNat)

include h hr hz

theorem reached_transmitted (head : Half) (bytes : List Byte) : Reached .tx s (transmitted s head bytes t) :=
  reached_posted (reached_pushFrame (reached_availAdvance h) bytes) hr hz head s.cfg.txUsedLen

/-- Peek, advance, walk, transfer and post, on a well-formed chain off the rings. -/
theorem reached_txChain (hq : quiet s) (haccess : RingsAccessible s .tx)
    (hnext : t.txq.nextAvail = s.txq.nextAvail) (hused : t.txq.nextUsed = s.txq.nextUsed)
    (htable : ∀ k : Half, k.toNat < s.txq.size.toNat → accessOk s (descEntryAddr s.txq k) 16 = true)
    (hchain : WellFormedChain s .tx (availHead s .tx) chain) (hfit : BuffersFit s .tx chain) :
    txChain t = .ok () (transmitted s (availHead s .tx) (chainBytes s.mem chain) t) := by
  have hadv := reached_availAdvance h
  have hpush := reached_pushFrame hadv (chainBytes s.mem chain)
  have hdesc : ∀ k, descEntryAddr (availAdvance .tx t).txq k = descEntryAddr s.txq k := fun k =>
    congrArg (· + 16#64 * k.zeroExtend 64) hadv.rings.2.1
  have hwalk : walkChain .tx (availHead s .tx) (availAdvance .tx t) = .ok (some chain) (availAdvance .tx t) := by
    refine walkChain_of_wellFormed (hadv.race.trans hq) (fun k hk => ?_)
      (wellFormedChain_congr hadv.cfg hadv.rings.1 (descAt_agree hr hadv.rings hadv.agree) hchain)
    rw [queue_tx, hdesc, reached_accessOk hadv]
    exact htable k (hadv.rings.1 ▸ hk)
  have hgather : txGather chain (availAdvance .tx t) = .ok (chainBytes s.mem chain) (availAdvance .tx t) := by
    rw [txGather_quiet (hadv.race.trans hq) chain, chainBytes_agree hr hadv.agree chain ?_ hfit.offRings]
    · exact fun d hd hlen => accessOk_bound (hfit.accessible d hd hlen)
    · exact fun d hd hlen => (reached_accessOk hadv ..).trans (hfit.accessible d hd hlen)
  rw [txChain, reached_availPeek h hq hr haccess hz hnext, Res.bind_ok, hwalk, Res.bind_ok]
  simp only [txTransfer, hgather, Res.bind_ok, hpush.cfg]
  refine reached_usedPost hpush hq haccess ?_ _ _
  rw [pushFrame_eq]
  exact hused

end chain

/-! ## The interrupt decision -/

/-- The interrupt decision with entries posted, as one update (spec/47_interrupt_signal.md R221). -/
theorem reached_maybeNotify_eq {i : QueueId} {s t : State} (h : Reached i s t) (hq : quiet s)
    (hr : RingsApart (s.queue i)) (haccess : RingsAccessible s i)
    (hnew : (t.queue i).nextUsed ≠ (t.queue i).signalledUsed) :
    maybeNotify i t = .ok () { t.setQueue i { t.queue i with signalledUsed := (t.queue i).nextUsed } with
      interruptStatus :=
        if (availFlags s i).getLsbD 0 = false then t.interruptStatus ||| irqBit t.cfg i else t.interruptStatus
      history := t.history ++
        (if (availFlags s i).getLsbD 0 = false ∧ t.interruptStatus &&& irqBit t.cfg i = 0#32 then [.irqPulse 1]
         else []) } := by
  rw [reached_maybeNotify h hq hr haccess hnew]
  congr 1
  cases (availFlags s i).getLsbD 0 with
  | true =>
    rw [if_pos rfl]
    simp only [Bool.true_eq_false, false_and, if_false, List.append_nil]
    cases i <;> rfl
  | false =>
    rw [if_neg Bool.false_ne_true, raiseIrq_eq]
    simp only [true_and, if_true, setQueue_interruptStatus, setQueue_cfg, setQueue_history]

/-! ## One chain on the ring -/

/-- The state in which a drain that took one chain with these bytes makes the interrupt decision. -/
def drainedOne (s : State) (head : Half) (bytes : List Byte) : State :=
  enabled .tx s.txq.usedAddr (transmitted s head bytes (disabled .tx s.txq.usedAddr s))

theorem drainedOne_eq (s : State) (head : Half) (bytes : List Byte) :
    drainedOne s head bytes = { s with
      txq := { s.txq with
        notifySuppressed := false
        nextAvail := s.txq.nextAvail + 1#16
        nextUsed := s.txq.nextUsed + 1#16 }
      mem := (drainedOne s head bytes).mem
      history := s.history ++ [.hostTxPush bytes]
      txAnswers := s.txAnswers.tail
      diag := { s.diag with
        hostIoErrors := s.diag.hostIoErrors + if s.txAnswers.head? = some .error then 1 else 0 }
      errorLog := s.errorLog ++ if s.txAnswers.head? = some .error then [.hostIoError] else [] } := by
  have htransmitted := transmitted_eq s head bytes (disabled .tx s.txq.usedAddr s)
  rw [drainedOne]
  generalize transmitted s head bytes (disabled .tx s.txq.usedAddr s) = u at htransmitted ⊢
  generalize u.mem = m at htransmitted
  subst htransmitted
  rfl

section memory

variable {s : State} (head : Half) (bytes : List Byte) (hmem : s.mem.wf = true) (hr : RingsApart s.txq)
  (hz : 0 < s.txq.size.toNat)

include hmem hr

/-- The state in which the entry is posted. -/
theorem reached_pushed : Reached .tx s (pushFrame bytes (availAdvance .tx (disabled .tx s.txq.usedAddr s))) :=
  reached_pushFrame (reached_availAdvance (reached_disabled (i := .tx) (reached_refl hmem) hr)) bytes

include hz

theorem drainedOne_read {c : Dword} {n : Nat} (hbehind : s.txq.usedAddr.toNat + 2 ≤ c.toNat)
    (hc : c.toNat + n ≤ 2 ^ 64) :
    readBytes (drainedOne s head bytes).mem c n =
      readBytes (transmitted s head bytes (disabled .tx s.txq.usedAddr s)).mem c n := by
  have hreached := reached_transmitted (reached_disabled (i := .tx) (reached_refl hmem) hr) hr hz head bytes
  rw [drainedOne, enabled, stored_mem, setQueue_mem]
  exact readBytes_writeBytes_outside hreached.wf (by simp only [List.length_cons, List.length_nil]; omega) hc
    (.inr hbehind)

theorem drainedOne_id : readBytes (drainedOne s head bytes).mem (usedIdAddr s.txq) 4 = bytesLE 4 head.toNat := by
  have hpushed := reached_pushed bytes hmem hr
  obtain ⟨hidx, hid, -, hend⟩ := entry_places hr hz
  rw [drainedOne_read head bytes hmem hr hz (by omega) (by omega)]
  exact posted_id head _ hpushed.wf hr hz

theorem drainedOne_len :
    readBytes (drainedOne s head bytes).mem (usedLenAddr s.txq) 4 = bytesLE 4 s.cfg.txUsedLen.toNat := by
  have hpushed := reached_pushed bytes hmem hr
  obtain ⟨hidx, hid, hlen, hend⟩ := entry_places hr hz
  rw [drainedOne_read head bytes hmem hr hz (by omega) (by omega)]
  exact posted_len head _ hpushed.wf hr hz

theorem drainedOne_idx :
    readBytes (drainedOne s head bytes).mem (usedIdxAddr s.txq) 2 = bytesLE 2 (s.txq.nextUsed + 1#16).toNat := by
  have hpushed := reached_pushed bytes hmem hr
  obtain ⟨hidx, hid, -, hend⟩ := entry_places hr hz
  have hcursor :
      (pushFrame bytes (availAdvance .tx (disabled .tx s.txq.usedAddr s))).txq.nextUsed = s.txq.nextUsed := by
    rw [pushFrame_eq]
    rfl
  rw [drainedOne_read head bytes hmem hr hz (by omega) (by omega), ← hcursor]
  exact posted_idx head _ hpushed.wf hr

theorem drainedOne_flags : readBytes (drainedOne s head bytes).mem (usedFlagsAddr s.txq) 2 = [0#8, 0#8] := by
  have hreached := reached_transmitted (reached_disabled (i := .tx) (reached_refl hmem) hr) hr hz head bytes
  have hend := hr.used
  exact readBytes_writeBytes hreached.wf s.txq.usedAddr [0#8, 0#8]
    (by simp only [List.length_cons, List.length_nil]; omega)

/-- The half-word of the flags and what posting stores is all that changes. -/
theorem drainedOne_outside {a : Nat} (ha : ¬ inPosted s.txq a) :
    memGet (drainedOne s head bytes).mem a = memGet s.mem a := by
  have hdisabled := reached_disabled (i := .tx) (reached_refl hmem) hr
  have hreached := reached_transmitted hdisabled hr hz head bytes
  have hpushed := reached_pushed bytes hmem hr
  have hend := hr.used
  have hidx := addr_usedIdx hr
  have hflags (bs : List Byte) (hbs : bs.length = 2) {m : Memory} (hm : m.wf = true) :
      memGet (writeBytes m s.txq.usedAddr bs) a = memGet m a :=
    memGet_writeBytes_outside hm (by omega) (by unfold inPosted at ha; omega)
  calc memGet (drainedOne s head bytes).mem a
      = memGet (transmitted s head bytes (disabled .tx s.txq.usedAddr s)).mem a := hflags _ rfl hreached.wf
    _ = memGet (pushFrame bytes (availAdvance .tx (disabled .tx s.txq.usedAddr s))).mem a :=
        posted_outside head _ hpushed.wf hr hz (by unfold inPosted at ha; omega) (by unfold inPosted at ha; omega)
    _ = memGet (disabled .tx s.txq.usedAddr s).mem a := by rw [pushFrame_eq]; rfl
    _ = memGet s.mem a := hflags _ rfl hmem

end memory

/-- The cursor that has moved by one is another. -/
theorem half_succ_ne (c : Half) : c + 1#16 ≠ c := by bv_omega

/-- Settles O43: one round takes the chain, the next finds the cursor at the index, and then the interrupt decision
sees the posted entry. -/
theorem txNotifyTransmitsOneChain : Obligations.TxNotifyTransmitsOneChain := by
  intro s chain hwf hq hmem hop hconf haccess hr havail hposted htable hchain hfit
  have hz := configured_size_pos hconf
  have hdisabled : Reached .tx s (disabled .tx s.txq.usedAddr s) := reached_disabled (reached_refl hmem) hr
  have htransmitted := reached_transmitted hdisabled hr hz (availHead s .tx) (chainBytes s.mem chain)
  have hdrained : Reached .tx s (drainedOne s (availHead s .tx) (chainBytes s.mem chain)) :=
    reached_enabled htransmitted hr
  have hpending : availPending .tx (disabled .tx s.txq.usedAddr s) = .ok true (disabled .tx s.txq.usedAddr s) := by
    rw [reached_availPending hdisabled hq hr haccess, havail]
    exact congrArg (Res.ok · _) (bne_iff_ne.mpr (half_succ_ne _))
  have hmet : availIdx s .tx
      = (transmitted s (availHead s .tx) (chainBytes s.mem chain) (disabled .tx s.txq.usedAddr s)).txq.nextAvail := by
    rw [transmitted_eq]
    exact havail
  have hloop : txLoop (drainFuel (disabled .tx s.txq.usedAddr s)) (disabled .tx s.txq.usedAddr s)
      = some (.ok () (drainedOne s (availHead s .tx) (chainBytes s.mem chain))) := by
    obtain ⟨fuel, hfuel⟩ := drainFuel_three (disabled .tx s.txq.usedAddr s)
    rw [hfuel, txLoop_of_pending hpending
      (reached_txChain hdisabled hr hz hq haccess rfl rfl htable hchain hfit)]
    exact reached_txLoop_end htransmitted hq hr haccess hmet (fuel + 1)
  have hnew : (drainedOne s (availHead s .tx) (chainBytes s.mem chain)).txq.nextUsed
      ≠ (drainedOne s (availHead s .tx) (chainBytes s.mem chain)).txq.signalledUsed := by
    rw [drainedOne_eq]
    exact hposted ▸ half_succ_ne _
  have hdrain := processTx_of_drained (reached_notifyDisable (reached_refl hmem) hq haccess) hloop
    (reached_maybeNotify_eq hdrained hq hr haccess hnew)
  refine ⟨_, ?state, drainedOne_flags (availHead s .tx) (chainBytes s.mem chain) hmem hr hz,
    drainedOne_idx _ _ hmem hr hz, drainedOne_id _ _ hmem hr hz, drainedOne_len _ _ hmem hr hz,
    fun a => drainedOne_outside _ _ hmem hr hz⟩
  rw [exec_wrQueueNotify_of_drained (i := .tx) (queueOf_one hwf) hop hconf hdrain]
  have hupdate := drainedOne_eq s (availHead s .tx) (chainBytes s.mem chain)
  generalize drainedOne s (availHead s .tx) (chainBytes s.mem chain) = d at hupdate ⊢
  generalize d.mem = m at hupdate ⊢
  subst hupdate
  rfl

end Sys2Proof.Machine
end

