-- ==== Sys2Proof/Proofs/EngineFrame.lean ====
section
/-! What an operation that starts the engine leaves as it was, in any interleaving (spec/45_virtqueue_engine.md R180,
spec/46_frame_transfer.md R204). -/

namespace Sys2Proof.Machine

/-- An operation of the engine on queue `i` ends in a state its sub-operations reach, save for what a bus reply, a
`RegisterError` and `DeviceFail` write. -/
def EngineEnds (i : QueueId) (s t : State) : Prop :=
  ∃ u, EngineStep i s u ∧ t = { u with
    status := t.status, operational := t.operational, failedByDevice := t.failedByDevice, diag := t.diag
    errorLog := t.errorLog, busOutcome := t.busOutcome }

section ends

variable {i : QueueId} {s t : State}

theorem DrainStep.engineEnds (h : DrainStep i s t) : EngineEnds i s t := by
  cases h with
  | normal u _ work last irq => exact ⟨t, work.1.trans last, rfl⟩
  | failed a n u work => exact ⟨u, work.1, rfl⟩

theorem refuseWrite_engineEnds (r : Reg) (i : QueueId) (s : State) : EngineEnds i s (refuseWrite r s) :=
  ⟨s, .refl i s, rfl⟩

theorem EngineEnds.busOk (h : EngineEnds i s t) : EngineEnds i s (busOk t) := by
  obtain ⟨u, hu, ht⟩ := h
  refine ⟨u, hu, ?_⟩
  rw [ht]
  rfl

/-- From an operation that always answers to the state it answers. -/
theorem EngineEnds.of_next {u : State} (h : (.next u : Host.Outcome State Fault Refusal) = .next t)
    (hu : EngineEnds i s u) : EngineEnds i s t := by
  cases h
  exact hu

theorem execWrQueueNotify_engineEnds {v : Word} (hqueue : queueOf s.cfg v = some i)
    (h : execWrQueueNotify v s = .next t) : EngineEnds i s t := by
  simp only [execWrQueueNotify, hqueue] at h
  split at h
  next notOperational => exact .of_next h (refuseWrite_engineEnds _ i s)
  next =>
    split at h
    next notConfigured => exact .of_next h (refuseWrite_engineEnds _ i s)
    next =>
      split at h
      next u hu => exact .of_next h (processQueue_step hu).engineEnds.busOk
      next => cases h

theorem execEvtHostRxReady_engineEnds (h : execEvtHostRxReady s = .next t) : EngineEnds .rx s t := by
  unfold execEvtHostRxReady at h
  split at h
  next ignored => exact .of_next h ⟨s, .refl .rx s, rfl⟩
  next =>
    split at h
    next u hu => exact .of_next h (pumpRx_step hu).engineEnds
    next => cases h

end ends

/-- Settles O52: every clause is a field of the engine's relation, and what is written besides it is in none. -/
theorem engineFrame : Obligations.EngineFrame := by
  intro s t i q hwf hi h
  have hends : EngineEnds q s t := by
    obtain rfl | ⟨rfl, rfl⟩ := hi
    · exact execWrQueueNotify_engineEnds (queueOf_queueIndex hwf q) h
    · exact execEvtHostRxReady_engineEnds h
  obtain ⟨u, hu, ht⟩ := hends
  have hqueue (p : QueueId) : t.queue p = u.queue p := by
    rw [ht]
    cases p <;> rfl
  obtain ⟨hsize, hdesc, havail, hused⟩ := hu.rings
  simp only [hqueue]
  rw [ht]
  exact ⟨hu.cfg, hu.hostFeaturesSel, hu.guestFeaturesSel, hu.driverFeatures, hu.pageSize, hu.queueSel,
    hu.configSpace, hu.inputs, hu.opsBegun, hu.busBuffer, hu.other, hsize, hdesc, havail, hused, hu.history, hu.race,
    fun htx => ⟨hu.portKept htx, hu.txAnswers⟩, fun hrx => ⟨hu.answersKept hrx, hu.rxPort⟩⟩

end Sys2Proof.Machine
end

