-- ==== Sys2Proof/Proofs/UsedRingStores.lean ====
section
/-! Where a TX notify stores while the guest is quiet (spec/45_virtqueue_engine.md R184): its reads leave memory alone,
and each of its stores lies in the used ring, wherever that is and whatever memory holds. -/

namespace Sys2Proof.Machine

/-! ## Reads -/

/-- A sub-operation that leaves memory as it is while the guest is quiet. -/
def ReadStep (s t : State) : Prop := s.race = [] → t = s

theorem ReadStep.refl (s : State) : ReadStep s s := fun _ => rfl

theorem ReadStep.trans {s t u : State} (h1 : ReadStep s t) (h2 : ReadStep t u) : ReadStep s u := by
  intro hq
  have ht := h1 hq
  rw [ht] at h2
  exact h2 hq

theorem memRead_read (a : Dword) (n : Nat) (s : State) : ReadStep s (memRead a n s).state := by
  intro hq
  by_cases hn : n = 0
  · rw [hn, memRead_zero, Res.state_ok]
  · rw [memRead_quiet hq a hn]
    split <;> rfl

theorem memReadTorn_read (ps : List Piece) (a : Dword) (n : Nat) (s : State) :
    ReadStep s (memReadTorn ps a n s).state := by
  intro hq
  by_cases hn : n = 0
  · rw [hn, memReadTorn_zero, Res.state_ok]
  · rw [memReadTorn_quiet hq ps a hn]
    split <;> rfl

theorem memRead16_read (a : Dword) (s : State) : ReadStep s (memRead16 a s).state :=
  Res.bind_rel .trans (memRead_read a 2 s) fun _ t _ => .refl t

theorem descRead_read (i : QueueId) (k : Half) (s : State) : ReadStep s (descRead i k s).state :=
  Res.bind_rel .trans (memReadTorn_read _ _ _ s) fun _ t _ => .refl t

theorem walkFrom_read (i : QueueId) (n : Nat) : ∀ (rem : Nat) (k : Half) (first : Bool) (s : State),
    ReadStep s (walkFrom i n rem k first s).state
  | 0, _, _, s => .refl s
  | rem + 1, k, first, s => by
    refine Res.bind_rel .trans (descRead_read i k s) fun d t _ => ?_
    split
    next short => exact .refl t
    next =>
      split
      next last => exact .refl t
      next =>
        split
        next outside => exact .refl t
        next => exact Res.bind_rel .trans (walkFrom_read i n rem d.next false t) fun _ u _ => .refl u

theorem walkChain_read (i : QueueId) (head : Half) (s : State) : ReadStep s (walkChain i head s).state := by
  unfold walkChain
  split
  · exact .refl s
  · exact walkFrom_read i _ _ head true s

theorem availPending_read (i : QueueId) (s : State) : ReadStep s (availPending i s).state :=
  Res.bind_rel .trans (memRead16_read _ s) fun _ t _ => .refl t

theorem txGather_read : ∀ (chain : List Desc) (s : State), ReadStep s (txGather chain s).state
  | [], s => .refl s
  | _ :: ds, s =>
    Res.bind_rel .trans (memReadTorn_read _ _ _ s) fun _ t _ =>
      Res.bind_rel .trans (txGather_read ds t) fun _ u _ => .refl u

/-! ## Stores into the used ring -/

theorem inUsedRing_congr {p q : Queue} (h : p.sameRings q) (a : Nat) : inUsedRing q a ↔ inUsedRing p a := by
  obtain ⟨hsize, -, -, hused⟩ := h
  rw [inUsedRing, inUsedRing, hsize, hused]

/-- A step of the engine that, while the guest is quiet, changes no byte outside the used ring of queue `i`. -/
structure UsedRingStep (i : QueueId) (s t : State) : Prop where
  engine : EngineStep i s t
  outside : s.race = [] → s.mem.wf = true → 0 < (s.queue i).size.toNat →
    ∀ a, ¬ inUsedRing (s.queue i) a → memGet t.mem a = memGet s.mem a

theorem UsedRingStep.trans {i : QueueId} {s t u : State} (h1 : UsedRingStep i s t) (h2 : UsedRingStep i t u) :
    UsedRingStep i s u := by
  refine ⟨h1.engine.trans h2.engine, fun hq hw hz a ha => ?_⟩
  obtain ⟨k, hrace⟩ := h1.engine.race
  have hquiet : t.race = [] := by rw [hrace, hq, List.drop_nil]
  have hsize : 0 < (t.queue i).size.toNat := h1.engine.rings.1 ▸ hz
  rw [h2.outside hquiet (h1.engine.wf hw) hsize a ((inUsedRing_congr h1.engine.rings a).not.mpr ha),
    h1.outside hq hw hz a ha]

/-- A step that leaves memory alone while the guest is quiet. -/
theorem EngineStep.usedRing {i : QueueId} {s t : State} (h : EngineStep i s t)
    (hmem : s.race = [] → t.mem = s.mem) : UsedRingStep i s t :=
  ⟨h, fun hq _ _ _ _ => by rw [hmem hq]⟩

theorem ReadStep.usedRing {i : QueueId} {s t : State} (h : ReadStep s t) (haccess : AccessStep s t) :
    UsedRingStep i s t := haccess.engine.usedRing fun hq => by rw [h hq]

theorem UsedRingStep.refl (i : QueueId) (s : State) : UsedRingStep i s s := (EngineStep.refl i s).usedRing fun _ => rfl

theorem setQueue_usedRing {i : QueueId} {s : State} {q : Queue} (h : (s.queue i).sameRings q) :
    UsedRingStep i s (s.setQueue i q) := (setQueue_engine h).usedRing fun _ => setQueue_mem s i q

/-- Every byte a store touches, at its address modulo 2^64, is one of the used ring's. -/
theorem inUsedRing_of_stored {q : Queue} {off len x : Nat} (hoff : off + len ≤ 4 + 8 * q.size.toNat)
    (hbound : (q.usedAddr + BitVec.ofNat 64 off).toNat + len ≤ 2 ^ 64)
    (hlo : (q.usedAddr + BitVec.ofNat 64 off).toNat ≤ x) (hhi : x < (q.usedAddr + BitVec.ofNat 64 off).toNat + len) :
    inUsedRing q x := by
  obtain ⟨j, rfl⟩ := Nat.exists_eq_add_of_le hlo
  refine ⟨off + j, by omega, ?_⟩
  rw [BitVec.ofNat_add, ← BitVec.add_assoc]
  exact (addr_add_toNat (by omega)).symm

section stores

variable {i : QueueId} {s : State} {a : Dword} (off : Nat) (ha : a = (s.queue i).usedAddr + BitVec.ofNat 64 off)

include ha

theorem memWrite_usedRing {bs : List Byte}
    (hoff : 0 < (s.queue i).size.toNat → off + bs.length ≤ 4 + 8 * (s.queue i).size.toNat) :
    UsedRingStep i s (memWrite a bs s).state := by
  subst ha
  refine ⟨(memWrite_access _ bs s).engine, fun hq hw hz x hx => ?_⟩
  by_cases hbs : bs = []
  · rw [hbs, memWrite_nil, Res.state_ok]
  · rw [memWrite_quiet hq _ hbs]
    split
    next permitted =>
      have hbound := accessOk_bound permitted
      refine memGet_writeBytes_outside hw hbound ?_
      by_contra hin
      exact hx (inUsedRing_of_stored (hoff hz) hbound (by omega) (by omega))
    next forbidden => rfl

theorem memWrite16_usedRing (v : Half)
    (hoff : 0 < (s.queue i).size.toNat → off + 2 ≤ 4 + 8 * (s.queue i).size.toNat) :
    UsedRingStep i s (memWrite16 a v s).state :=
  memWrite_usedRing off ha (by rwa [bytesLE_length])

theorem memWrite32_usedRing (v : Word)
    (hoff : 0 < (s.queue i).size.toNat → off + 4 ≤ 4 + 8 * (s.queue i).size.toNat) :
    UsedRingStep i s (memWrite32 a v s).state :=
  memWrite_usedRing off ha (by rwa [bytesLE_length])

end stores

/-! ## The sub-operations -/

theorem usedFlagsAddr_eq (q : Queue) : usedFlagsAddr q = q.usedAddr + BitVec.ofNat 64 0 := (BitVec.add_zero _).symm

theorem notifyDisable_usedRing (i : QueueId) (s : State) : UsedRingStep i s (notifyDisable i s).state :=
  .trans (setQueue_usedRing (q := { s.queue i with notifySuppressed := true }) ⟨rfl, rfl, rfl, rfl⟩)
    (memWrite16_usedRing 0 (by rw [setQueue_queue_same]; exact usedFlagsAddr_eq _) _ (by omega))

theorem notifyEnable_usedRing (i : QueueId) (s : State) : UsedRingStep i s (notifyEnable i s).state :=
  .trans (setQueue_usedRing (q := { s.queue i with notifySuppressed := false }) ⟨rfl, rfl, rfl, rfl⟩)
    (memWrite16_usedRing 0 (by rw [setQueue_queue_same]; exact usedFlagsAddr_eq _) _ (by omega))

theorem availPending_usedRing (i : QueueId) (s : State) : UsedRingStep i s (availPending i s).state :=
  (availPending_read i s).usedRing (availPending_access i s)

theorem reArm_usedRing (i : QueueId) (s : State) : UsedRingStep i s (reArm i s).state := by
  refine Res.bind_rel .trans (notifyEnable_usedRing i s) fun _ t _ => ?_
  refine Res.bind_rel .trans (availPending_usedRing i t) fun raced u _ => ?_
  split
  · exact Res.bind_rel .trans (notifyDisable_usedRing i u) fun _ v _ => .refl i v
  · exact .refl i u

theorem usedPost_usedRing (i : QueueId) (head : Half) (n : Word) (s : State) :
    UsedRingStep i s (usedPost i head n s).state := by
  refine Res.bind_rel .trans (memWrite32_usedRing _ (usedIdAddr_eq _) _ fun hz => ?_) fun _ t _ => ?_
  · have := slot_lt (s.queue i).nextUsed _ hz
    unfold slotOf at this
    omega
  refine Res.bind_rel .trans (memWrite32_usedRing _ (usedLenAddr_eq _) _ fun hz => ?_) fun _ u _ => ?_
  · have := slot_lt (t.queue i).nextUsed _ hz
    unfold slotOf at this
    omega
  refine .trans (setQueue_usedRing (q := { u.queue i with nextUsed := (u.queue i).nextUsed + 1#16 })
    ⟨rfl, rfl, rfl, rfl⟩) (memWrite16_usedRing 2 ?_ _ (by omega))
  rw [setQueue_queue_same]
  rfl

theorem pushFrame_usedRing (bytes : List Byte) (s : State) : UsedRingStep .tx s (pushFrame bytes s) :=
  (pushFrame_work bytes s).1.usedRing fun _ => by rw [pushFrame_eq]

theorem txTransfer_usedRing (chain : List Desc) (s : State) : UsedRingStep .tx s (txTransfer chain s).state :=
  Res.bind_rel .trans ((txGather_read chain s).usedRing (txGather_access chain s))
    fun bytes t _ => pushFrame_usedRing bytes t

theorem availAdvance_usedRing (i : QueueId) (s : State) : UsedRingStep i s (availAdvance i s) :=
  setQueue_usedRing ⟨rfl, rfl, rfl, rfl⟩

theorem txChain_usedRing (s : State) : UsedRingStep .tx s (txChain s).state := by
  refine Res.bind_rel .trans ((memRead16_read _ s).usedRing (memRead16_access _ s)) fun head t _ => ?_
  refine Res.bind_rel .trans (.trans (availAdvance_usedRing .tx t)
    ((walkChain_read .tx head _).usedRing (walkChain_access .tx head _))) fun chain u _ => ?_
  cases chain with
  | none => exact (countMalformedChain_work .tx head u).1.usedRing fun _ => rfl
  | some list => exact Res.bind_rel .trans (txTransfer_usedRing list u) fun _ v _ => usedPost_usedRing .tx head _ v

theorem maybeNotify_usedRing (i : QueueId) (s : State) : UsedRingStep i s (maybeNotify i s).state := by
  unfold maybeNotify
  split
  next => exact .refl i s
  next =>
    refine Res.bind_rel .trans (.trans
      (setQueue_usedRing (q := { s.queue i with signalledUsed := (s.queue i).nextUsed }) ⟨rfl, rfl, rfl, rfl⟩)
      ((memRead16_read _ _).usedRing (memRead16_access _ _))) fun f t _ => ?_
    split
    next suppressed => exact .refl i t
    next => exact (raiseIrq_engine i t).usedRing fun _ => raiseIrq_mem i t

/-! ## The drain -/

/-- A transitive relation that holds for the three steps of the TX drain holds for the drain, however it ends. -/
theorem txLoop_rel {R : State → State → Prop} (trans : ∀ {a b c}, R a b → R b c → R a c)
    (pending : ∀ s, R s (availPending .tx s).state) (chain : ∀ s, R s (txChain s).state)
    (recheck : ∀ s, R s (reArm .tx s).state) : ∀ (fuel : Nat) (s : State) (r : Res Unit),
    txLoop fuel s = some r → R s r.state
  | 0, _, _, h => by cases h
  | fuel + 1, s, r, h => by
    have hpending := pending s
    rw [txLoop] at h
    split at h
    next a n t hp => cases h; rwa [hp] at hpending
    next t hp =>
      rw [hp] at hpending
      have hchain := chain t
      split at h
      next a n u hc => cases h; rw [hc] at hchain; exact trans hpending hchain
      next u hc =>
        rw [hc, Res.state_ok] at hchain
        exact trans (trans hpending hchain) (txLoop_rel (R := R) trans pending chain recheck fuel u r h)
    next t hp =>
      rw [hp] at hpending
      have hrecheck := recheck t
      split at h
      next a n u hc => cases h; rw [hc] at hrecheck; exact trans hpending hrecheck
      next u hc =>
        rw [hc, Res.state_ok] at hrecheck
        exact trans (trans hpending hrecheck) (txLoop_rel (R := R) trans pending chain recheck fuel u r h)
      next u hc => cases h; rw [hc] at hrecheck; exact trans hpending hrecheck

theorem txLoop_usedRing {fuel : Nat} {s : State} {r : Res Unit} (h : txLoop fuel s = some r) :
    UsedRingStep .tx s r.state :=
  txLoop_rel .trans (availPending_usedRing .tx) txChain_usedRing (reArm_usedRing .tx) fuel s r h

/-- `DeviceFail` leaves memory as it is at the fault (spec/60_exceptions.md R237). -/
theorem endDrain_usedRing {i : QueueId} {s t : State} {r : Option (Res Unit)}
    (hr : ∀ x, r = some x → UsedRingStep i s x.state) (h : endDrain i r = some t) :
    ∃ u, UsedRingStep i s u ∧ t.mem = u.mem := by
  unfold endDrain at h
  split at h
  next => cases h
  next a n u => cases h; exact ⟨u, hr _ rfl, rfl⟩
  next u =>
    have hnotify := (hr _ rfl).trans (maybeNotify_usedRing i u)
    split at h
    next v hv => cases h; rw [hv] at hnotify; exact ⟨t, hnotify, rfl⟩
    next a n v hv => cases h; rw [hv] at hnotify; exact ⟨v, hnotify, rfl⟩

theorem processTx_usedRing {s t : State} (h : processTx s = some t) :
    ∃ u, UsedRingStep .tx s u ∧ t.mem = u.mem := by
  have hdisable := notifyDisable_usedRing .tx s
  unfold processTx at h
  split at h
  next a n u hu => cases h; rw [hu] at hdisable; exact ⟨u, hdisable, rfl⟩
  next u hu =>
    rw [hu] at hdisable
    exact endDrain_usedRing (fun x hx => hdisable.trans (txLoop_usedRing hx)) h

/-- A notify of the TX queue is refused, or runs the drain and answers `Ok`. -/
theorem execWrQueueNotify_tx {v : Word} {s t : State} (hqueue : queueOf s.cfg v = some .tx)
    (h : execWrQueueNotify v s = .next t) :
    t = refuseWrite .queueNotify s ∨ ∃ u, processTx s = some u ∧ t = busOk u := by
  simp only [execWrQueueNotify, hqueue] at h
  split at h
  next notOperational => cases h; exact .inl rfl
  next =>
    split at h
    next notConfigured => cases h; exact .inl rfl
    next =>
      split at h
      next u hu => cases h; exact .inr ⟨u, hu, rfl⟩
      next => cases h

/-- Settles O53: a refused notify stores nothing, and every step of the drain stores in the used ring or not at all. -/
theorem txNotifyStoresOnlyInTheUsedRing : Obligations.TxNotifyStoresOnlyInTheUsedRing := by
  intro s t hwf hq hmem hconf h a ha
  obtain rfl | ⟨u, hdrain, rfl⟩ := execWrQueueNotify_tx (queueOf_one hwf) h
  · rfl
  · obtain ⟨v, hstep, hsame⟩ := processTx_usedRing hdrain
    exact (congrArg (memGet · a) hsame).trans (hstep.outside hq hmem (configured_size_pos hconf) a ha)

end Sys2Proof.Machine
end

