-- ==== Sys2Proof/Proofs/Recheck.lean ====
section
/-! The race closure (spec/45_virtqueue_engine.md R181), in any interleaving: a drain that ends normally has
re-enabled notifications and looked once more. -/

namespace Sys2Proof.Machine

/-! ## What the last steps leave -/

theorem AccessStep.queue {s t : State} (h : AccessStep s t) (i : QueueId) : t.queue i = s.queue i := by
  rw [h.only]
  cases i <;> rfl

theorem AccessStep.rxPort {s t : State} (h : AccessStep s t) : t.rxPort = s.rxPort := by
  rw [h.only]

theorem notifyEnable_ok {i : QueueId} {s t : State} (h : notifyEnable i s = .ok () t) :
    (t.queue i).notifySuppressed = false := by
  have haccess := memWrite16_access (usedFlagsAddr (s.queue i)) 0#16
    (s.setQueue i { s.queue i with notifySuppressed := false })
  rw [← notifyEnable, h, Res.state_ok] at haccess
  rw [haccess.queue i, setQueue_queue_same]

/-- The answer compares the cursor with the index as it stands in memory after the read. -/
theorem availPending_ok {i : QueueId} {s t : State} {pending : Bool} (h : availPending i s = .ok pending t) :
    pending = (availIdx t i != (t.queue i).nextAvail) ∧ AccessStep s t := by
  have haccess := availPending_access i s
  rw [h, Res.state_ok] at haccess
  obtain ⟨idx, u, hread, hanswer⟩ := Res.bind_eq_ok h
  cases hanswer
  obtain ⟨-, -, rfl⟩ := memRead16_ok hread
  refine ⟨?_, haccess⟩
  rw [availIdx, haccess.queue i]

theorem reArm_ok_false {i : QueueId} {s t : State} (h : reArm i s = .ok false t) :
    availIdx t i = (t.queue i).nextAvail ∧ (t.queue i).notifySuppressed = false := by
  obtain ⟨_, u, henable, h⟩ := Res.bind_eq_ok h
  obtain ⟨raced, v, hpending, h⟩ := Res.bind_eq_ok h
  cases raced with
  | true =>
    obtain ⟨_, w, -, hanswer⟩ := Res.bind_eq_ok h
    cases hanswer
  | false =>
    cases h
    obtain ⟨hmet, haccess⟩ := availPending_ok hpending
    refine ⟨bne_eq_false_iff_eq.mp hmet.symm, ?_⟩
    rw [haccess.queue i]
    exact notifyEnable_ok henable

/-! ## The host read error -/

/-- A frame waiting, the RX pump stops at a chain only on a host read error, with notifications enabled (R204). -/
theorem rxDeliver_ok_false {head : Half} {list : List Desc} {s t : State} (hport : s.rxPort ≠ [])
    (h : rxDeliver head list s = .ok false t) :
    t.rxq.notifySuppressed = false ∧ s.diag.hostIoErrors < t.diag.hostIoErrors := by
  unfold rxDeliver hostRxPop at h
  split at h
  next u hpop =>
    split at hpop
    next hempty => exact absurd hempty hport
    next => cases hpop
  next u hpop =>
    split at hpop
    next => cases hpop
    next item rest hitems =>
      cases hpop
      obtain ⟨_, v, henable, hanswer⟩ := Res.bind_eq_ok h
      cases hanswer
      have hcount := (notifyEnable_work .rx (countHostIoError { s with rxPort := rest })).1.ioErrors
      rw [henable] at hcount
      exact ⟨notifyEnable_ok henable, hcount⟩
  next bytes u hpop =>
    obtain ⟨n, v, -, h⟩ := Res.bind_eq_ok h
    obtain ⟨_, w, -, hanswer⟩ := Res.bind_eq_ok h
    cases hanswer

theorem rxChain_ok_false {s t : State} (hport : s.rxPort ≠ []) (h : rxChain s = .ok false t) :
    t.rxq.notifySuppressed = false ∧ s.diag.hostIoErrors < t.diag.hostIoErrors := by
  obtain ⟨head, u, hpeek, h⟩ := Res.bind_eq_ok h
  obtain ⟨chain, v, hwalk, h⟩ := Res.bind_eq_ok h
  have hu := availPeek_access .rx s
  have hv := walkChain_access .rx head u
  rw [hpeek] at hu
  rw [hwalk] at hv
  have hread := hu.trans hv
  cases chain with
  | none => cases h
  | some list =>
    obtain ⟨hflag, hcount⟩ := rxDeliver_ok_false (hread.rxPort ▸ hport) h
    exact ⟨hflag, Nat.lt_of_le_of_lt (hread.engine (i := .rx)).ioErrors hcount⟩

/-! ## How the drains end -/

/-- A TX drain that ends normally ends in the re-check. -/
theorem txLoop_ok : ∀ (fuel : Nat) {s t : State}, txLoop fuel s = some (.ok () t) →
    ∃ u, reArm .tx u = .ok false t
  | 0, _, _, h => by cases h
  | fuel + 1, s, t, h => by
    rw [txLoop] at h
    split at h
    next => cases h
    next u hpending =>
      split at h
      next => cases h
      next v hchain => exact txLoop_ok fuel h
    next u hpending =>
      split at h
      next => cases h
      next v hraced => exact txLoop_ok fuel h
      next v hrechecked => cases h; exact ⟨u, hrechecked⟩

/-- How an RX drain that ends normally ends: without a frame, in the re-check, or at a chain with a frame waiting. -/
theorem rxLoop_ok : ∀ (fuel : Nat) {s t : State}, rxLoop fuel s = some (.ok () t) →
    ∃ u, s.diag.hostIoErrors ≤ u.diag.hostIoErrors
      ∧ (u.rxPort = [] ∧ notifyEnable .rx u = .ok () t ∨ reArm .rx u = .ok false t
        ∨ u.rxPort ≠ [] ∧ rxChain u = .ok false t)
  | 0, _, _, h => by cases h
  | fuel + 1, s, t, h => by
    have hpendingWork := (availPending_access .rx s).engine (i := .rx)
    have hport := (availPending_access .rx s).rxPort
    rw [rxLoop] at h
    split at h
    next hempty =>
      refine ⟨s, le_refl _, .inl ⟨?_, Option.some.inj h⟩⟩
      simpa [hostRxReady] using hempty
    next hready =>
      have hwaiting : s.rxPort ≠ [] := by simpa [hostRxReady] using hready
      split at h
      next => cases h
      next u hpending =>
        rw [hpending] at hpendingWork
        have hwork := (reArm_work .rx u).1
        split at h
        next => cases h
        next v hraced =>
          rw [hraced] at hwork
          obtain ⟨w, hcount, hend⟩ := rxLoop_ok fuel h
          exact ⟨w, ((hpendingWork.trans hwork).ioErrors).trans hcount, hend⟩
        next v hrechecked => cases h; exact ⟨u, hpendingWork.ioErrors, .inr (.inl hrechecked)⟩
      next u hpending =>
        rw [hpending] at hpendingWork hport
        have hwork := (rxChain_work u).1
        split at h
        next => cases h
        next v htaken =>
          rw [htaken] at hwork
          obtain ⟨w, hcount, hend⟩ := rxLoop_ok fuel h
          exact ⟨w, ((hpendingWork.trans hwork).ioErrors).trans hcount, hend⟩
        next v hstopped =>
          cases h
          exact ⟨u, hpendingWork.ioErrors, .inr (.inr ⟨hport ▸ hwaiting, hstopped⟩)⟩

/-- Enabling notifications takes no frame from the port. -/
theorem notifyEnable_rxPort {i : QueueId} {s t : State} (h : notifyEnable i s = .ok () t) : t.rxPort = s.rxPort := by
  have haccess := memWrite16_access (usedFlagsAddr (s.queue i)) 0#16
    (s.setQueue i { s.queue i with notifySuppressed := false })
  rw [← notifyEnable, h, Res.state_ok] at haccess
  rw [haccess.rxPort, setQueue_rxPort]

/-- Settles O55: by induction on the fuel a normal end is one of the loops' exits, and what each exit leaves is read off
its last steps. -/
theorem drainsEndOnlyAfterTheRecheck : Obligations.DrainsEndOnlyAfterTheRecheck := by
  refine ⟨fun fuel s t h => ?tx, fun fuel s t h => ?rx⟩
  case tx =>
    obtain ⟨u, hrechecked⟩ := txLoop_ok fuel h
    exact reArm_ok_false hrechecked
  case rx =>
    obtain ⟨u, hcount, ⟨hempty, henable⟩ | hrechecked | ⟨hport, hstopped⟩⟩ := rxLoop_ok fuel h
    · exact ⟨notifyEnable_ok henable, .inl ((notifyEnable_rxPort henable).trans hempty)⟩
    · obtain ⟨hmet, hflag⟩ := reArm_ok_false hrechecked
      exact ⟨hflag, .inr (.inl hmet)⟩
    · obtain ⟨hflag, herror⟩ := rxChain_ok_false hport hstopped
      exact ⟨hflag, .inr (.inr (Nat.lt_of_le_of_lt hcount herror))⟩

end Sys2Proof.Machine
end

