-- ==== Sys2Proof/Proofs/DrainEnds.lean ====
section
/-! Every operation of a machine that keeps the invariant runs to its end (spec/46_frame_transfer.md R207,
spec/70_reset_and_hazards.md R271): the rounds a drain has left go down with each round it takes, and the fuel covers
them. -/

namespace Sys2Proof.Machine

/-! ## The used ring misses the available index -/

/-- `AlignUp` adds less than the alignment. -/
theorem alignUp_lt (a : Nat) {k : Nat} (hk : 0 < k) : alignUp a k < a + k := by
  have := Nat.div_mul_le_self (a + k - 1) k
  rw [alignUp]
  omega

theorem queueAlign_pos_of_wf {c : Config} (h : c.wf = true) : 0 < c.queueAlign := by
  simp only [Config.wf, isPowerOfTwo, Bool.and_eq_true, bne_iff_ne, ne_eq] at h
  obtain ⟨-, hpos, -⟩ := h
  exact Nat.pos_of_ne_zero hpos

theorem size_le_of_sizeLegal {n : Half} (h : sizeLegal n = true) : n.toNat ≤ 256 := by
  simp only [sizeLegal, Bool.or_eq_true, beq_iff_eq, Bool.and_eq_true, decide_eq_true_eq] at h
  obtain rfl | ⟨hle, -⟩ := h
  · decide
  · exact hle

/-- A byte of the available index, as an address. -/
def inAvailIdx (q : Queue) (a : Nat) : Prop := ∃ k < 2, a = (availIdxAddr q + BitVec.ofNat 64 k).toNat

/-- The rings R15 places do not overlap there, also where they wrap around 2^64: the used ring begins behind the
available ring and less than 2^63 and its end later (log 9). -/
theorem not_inUsedRing_of_inAvailIdx {c : Config} {q : Queue} (hc : c.wf = true) (halign : c.queueAlign ≤ 2 ^ 63)
    (hbank : BankOk c q) (hconf : configured q = true) {a : Nat} (ha : inAvailIdx q a) : ¬ inUsedRing q a := by
  rintro ⟨off, hoff, rfl⟩
  obtain ⟨k, hk, hsame⟩ := ha
  have hsize := size_le_of_sizeLegal hbank.size
  have hrings := hbank.rings
  have hdesc : q.descAddr ≠ 0#64 := by
    simp only [configured, Bool.and_eq_true, bne_iff_ne, ne_eq] at hconf
    exact hconf.2
  rw [ringsPlaced, if_neg hdesc] at hrings
  obtain ⟨havail, hused⟩ := hrings
  rw [← havail] at hused
  obtain ⟨-, hlow, -⟩ :=
    alignUpIsTheNextMultiple (q.availAddr.toNat + 2 * (3 + q.size.toNat)) c.queueAlign (queueAlign_pos_of_wf hc)
  have hhigh := alignUp_lt (q.availAddr.toNat + 2 * (3 + q.size.toNat)) (queueAlign_pos_of_wf hc)
  rw [hused, usedAddrOf, availIdxAddr] at hsame
  generalize alignUp _ _ = used at hlow hhigh hsame
  simp only [BitVec.toNat_add, BitVec.toNat_ofNat] at hsame
  omega

/-! ## What a drain keeps -/

/-- What the rounds of a drain on queue `i` rely on. -/
structure Draining (i : QueueId) (s : State) : Prop where
  memory : s.mem.wf = true
  size : 0 < (s.queue i).size.toNat
  apart : ∀ a, inAvailIdx (s.queue i) a → ¬ inUsedRing (s.queue i) a

theorem availIdxAddr_congr {p q : Queue} (h : p.sameRings q) : availIdxAddr q = availIdxAddr p := by
  obtain ⟨-, -, havail, -⟩ := h
  rw [availIdxAddr, availIdxAddr, havail]

theorem Draining.step {i : QueueId} {s t : State} (h : Draining i s) (hstep : EngineStep i s t) : Draining i t where
  memory := hstep.wf h.memory
  size := hstep.rings.1 ▸ h.size
  apart := by
    intro a ha
    rw [inAvailIdx, availIdxAddr_congr hstep.rings] at ha
    rw [inUsedRing_congr hstep.rings]
    exact h.apart a ha

/-- A sub-operation that answers keeps it. -/
theorem Draining.of_work {α : Type} {i : QueueId} {s t : State} {r : Res α} {a : α} (h : Draining i s)
    (hr : r = .ok a t) (hwork : WorkStep i s r.state) : Draining i t := by
  rw [hr, Res.state_ok] at hwork
  exact h.step hwork.1

theorem Draining.of_pending {i : QueueId} {s t : State} {pending : Bool} (h : Draining i s)
    (hpending : availPending i s = .ok pending t) : Draining i t :=
  h.of_work hpending (availPending_access i s).work

theorem Draining.of_inv {s : State} {i : QueueId} (h : s.Inv) (halign : s.cfg.queueAlign ≤ 2 ^ 63)
    (hconf : configured (s.queue i) = true) : Draining i s where
  memory := h.memory
  size := configured_size_pos hconf
  apart := fun _ => not_inUsedRing_of_inAvailIdx h.parameters halign (h.bank i) hconf

/-- The guest being quiet, stores into the used ring leave the available index as it is. -/
theorem UsedRingStep.availIdx {i : QueueId} {s t : State} (hstep : UsedRingStep i s t) (h : Draining i s)
    (hq : s.race = []) : availIdx t i = availIdx s i := by
  rw [Machine.availIdx, Machine.availIdx, availIdxAddr_congr hstep.engine.rings]
  congr 1
  apply List.ext_getElem (by simp)
  intro k hk _
  rw [readBytes_length] at hk
  rw [readBytes_getElem, readBytes_getElem]
  exact hstep.outside hq h.memory h.size _ (h.apart _ ⟨k, hk, rfl⟩)

/-! ## The cursor -/

theorem Res.state_of_ok {α : Type} {r : Res α} {a : α} {t : State} (h : r = .ok a t) : r.state = t := by
  rw [h, Res.state_ok]

/-- The step leaves the available cursor of queue `i` where it is. -/
def SameCursor (i : QueueId) (s t : State) : Prop := (t.queue i).nextAvail = (s.queue i).nextAvail

theorem SameCursor.trans {i : QueueId} {s t u : State} (h1 : SameCursor i s t) (h2 : SameCursor i t u) :
    SameCursor i s u := Eq.trans h2 h1

theorem AccessStep.sameCursor {i : QueueId} {s t : State} (h : AccessStep s t) : SameCursor i s t := by
  rw [SameCursor, h.queue i]

theorem setQueue_sameCursor {i : QueueId} {s : State} {q : Queue} (h : q.nextAvail = (s.queue i).nextAvail) :
    SameCursor i s (s.setQueue i q) := by
  rw [SameCursor, setQueue_queue_same, h]

theorem notifyEnable_sameCursor (i : QueueId) (s : State) : SameCursor i s (notifyEnable i s).state :=
  .trans (setQueue_sameCursor (q := { s.queue i with notifySuppressed := false }) rfl)
    (memWrite16_access _ _ _).sameCursor

theorem usedPost_sameCursor (i : QueueId) (head : Half) (n : Word) (s : State) :
    SameCursor i s (usedPost i head n s).state := by
  refine Res.bind_rel .trans (memWrite32_access _ _ s).sameCursor fun _ t _ => ?_
  refine Res.bind_rel .trans (memWrite32_access _ _ t).sameCursor fun _ u _ => ?_
  exact .trans (setQueue_sameCursor (q := { u.queue i with nextUsed := (u.queue i).nextUsed + 1#16 }) rfl)
    (memWrite16_access _ _ _).sameCursor

theorem txTransfer_sameCursor (chain : List Desc) (s : State) : SameCursor .tx s (txTransfer chain s).state := by
  refine Res.bind_rel .trans (txGather_access chain s).sameCursor fun bytes t _ => ?_
  rw [Res.state_ok, pushFrame_eq]
  rfl

theorem availAdvance_nextAvail (i : QueueId) (s : State) :
    ((availAdvance i s).queue i).nextAvail = (s.queue i).nextAvail + 1#16 := by
  rw [availAdvance, setQueue_queue_same]

/-- A TX round that takes a chain moves the cursor by one (R175), in any interleaving. -/
theorem txChain_nextAvail {s t : State} (h : txChain s = .ok () t) : t.txq.nextAvail = s.txq.nextAvail + 1#16 := by
  obtain ⟨head, u, hpeek, h⟩ := Res.bind_eq_ok h
  obtain ⟨chain, v, hwalk, h⟩ := Res.bind_eq_ok h
  have hu : SameCursor .tx s u := Res.state_of_ok hpeek ▸ (availPeek_access .tx s).sameCursor
  have hv : SameCursor .tx (availAdvance .tx u) v := Res.state_of_ok hwalk ▸ (walkChain_access ..).sameCursor
  have hadvanced : (v.queue .tx).nextAvail = (s.queue .tx).nextAvail + 1#16 := by
    rw [hv, availAdvance_nextAvail, hu]
  cases chain with
  | none =>
    cases h
    exact hadvanced
  | some list =>
    obtain ⟨_, w, htransfer, hpost⟩ := Res.bind_eq_ok h
    have hw : SameCursor .tx v w := Res.state_of_ok htransfer ▸ txTransfer_sameCursor list v
    have ht : SameCursor .tx w t := Res.state_of_ok hpost ▸ usedPost_sameCursor .tx head _ w
    exact Eq.trans (hw.trans ht) hadvanced

/-! ## The rounds left -/

/-- How many entries the available index is ahead of the cursor. -/
def entriesAhead (i : QueueId) (s : State) : Nat := (availIdx s i - (s.queue i).nextAvail).toNat

theorem entriesAhead_lt (i : QueueId) (s : State) : entriesAhead i s < 65536 := BitVec.isLt _

theorem entriesAhead_advance {i : QueueId} {s t : State} (hidx : availIdx t i = availIdx s i)
    (hcursor : (t.queue i).nextAvail = (s.queue i).nextAvail + 1#16)
    (hpending : availIdx s i ≠ (s.queue i).nextAvail) : entriesAhead i t + 1 = entriesAhead i s := by
  rw [entriesAhead, entriesAhead, hidx, hcursor]
  bv_omega

/-- A bound on the rounds of a drain: each takes a turn of the guest, or an entry while the guest is quiet, or a frame,
which may move the index anywhere when it is written over it. -/
def roundsLeft (i : QueueId) (s : State) : Nat :=
  s.race.length + s.rxPort.length * 65537 + if s.race = [] then entriesAhead i s + 1 else 65536

theorem roundsLeft_quiet {i : QueueId} {s : State} (hq : s.race = []) :
    roundsLeft i s = s.rxPort.length * 65537 + entriesAhead i s + 1 := by
  rw [roundsLeft, if_pos hq, hq, List.length_nil]
  omega

theorem roundsLeft_of_turns {i : QueueId} {s : State} (hrace : s.race ≠ []) :
    roundsLeft i s = s.race.length + s.rxPort.length * 65537 + 65536 := by
  rw [roundsLeft, if_neg hrace]

theorem roundsLeft_le (i : QueueId) (s : State) :
    roundsLeft i s ≤ s.race.length + s.rxPort.length * 65537 + 65536 := by
  have := entriesAhead_lt i s
  rw [roundsLeft]
  split <;> omega

theorem roundsLeft_pos (i : QueueId) (s : State) : 0 < roundsLeft i s := by
  rw [roundsLeft]
  split <;> omega

theorem roundsLeft_le_drainFuel (i : QueueId) (s : State) : roundsLeft i s ≤ drainFuel s := by
  have := roundsLeft_le i s
  rw [drainFuel]
  omega

theorem EngineStep.race_le {i : QueueId} {s t : State} (h : EngineStep i s t) : t.race.length ≤ s.race.length := by
  obtain ⟨k, hk⟩ := h.race
  rw [hk, List.length_drop]
  omega

theorem EngineStep.quiet {i : QueueId} {s t : State} (h : EngineStep i s t) (hq : s.race = []) : t.race = [] := by
  obtain ⟨k, hk⟩ := h.race
  rw [hk, hq, List.drop_nil]

theorem EngineStep.rxPort_le {i : QueueId} {s t : State} (h : EngineStep i s t) :
    t.rxPort.length ≤ s.rxPort.length := by
  obtain ⟨k, hk⟩ := h.rxPort
  rw [hk, List.length_drop]
  omega

/-- A round begins with the read of the index, and where the guest has turns left it takes one there. -/
theorem roundsLeft_lt_of_turn {i : QueueId} {s t u : State} {pending : Bool} (hrace : s.race ≠ [])
    (hpending : availPending i s = .ok pending t) (hround : EngineStep i t u) : roundsLeft i u < roundsLeft i s := by
  have hturn : t.race.length < s.race.length := by
    obtain ⟨idx, v, hread, hanswer⟩ := Res.bind_eq_ok hpending
    cases hanswer
    obtain ⟨-, rfl, -⟩ := memRead16_ok hread
    exact guestTurn_race_lt hrace
  have hport : t.rxPort = s.rxPort := (availPending_ok hpending).2.rxPort
  have hrace_le := hround.race_le
  have hport_le := hround.rxPort_le
  have hle := roundsLeft_le i u
  rw [hport] at hport_le
  rw [roundsLeft_of_turns hrace]
  omega

/-- While the guest is quiet the read of the index changes nothing, and says whether an entry is there. -/
theorem availPending_ok_quiet {i : QueueId} {s t : State} {pending : Bool} (hq : s.race = [])
    (h : availPending i s = .ok pending t) : t = s ∧ pending = (availIdx s i != (s.queue i).nextAvail) := by
  obtain rfl : t = s := Res.state_of_ok h ▸ availPending_read i s hq
  exact ⟨rfl, (availPending_ok h).1⟩

/-! ## The rounds -/

section rounds

variable {s t u : State}

/-- The re-check finds another entry only where the guest took a turn. -/
theorem roundsLeft_lt_of_raced {i : QueueId} (hd : Draining i s) (hpending : availPending i s = .ok false t)
    (hraced : reArm i t = .ok true u) : roundsLeft i u < roundsLeft i s := by
  by_cases hrace : s.race = []
  · obtain ⟨rfl, hmet⟩ := availPending_ok_quiet hrace hpending
    obtain ⟨_, v, henable, hafter⟩ := Res.bind_eq_ok hraced
    obtain ⟨raced, w, hagain, hdecided⟩ := Res.bind_eq_ok hafter
    have hstep : UsedRingStep i t v := Res.state_of_ok henable ▸ notifyEnable_usedRing i t
    have hcursor : SameCursor i t v := Res.state_of_ok henable ▸ notifyEnable_sameCursor i t
    obtain ⟨rfl, hnone⟩ := availPending_ok_quiet (hstep.engine.quiet hrace) hagain
    rw [hstep.availIdx hd hrace, hcursor, ← hmet] at hnone
    subst hnone
    cases hdecided
  · have hround : EngineStep i t u := Res.state_of_ok hraced ▸ (reArm_work i t).1
    exact roundsLeft_lt_of_turn hrace hpending hround

/-- A TX round that takes a chain takes a turn or an entry. -/
theorem roundsLeft_lt_of_txChain (hd : Draining .tx s) (hpending : availPending .tx s = .ok true t)
    (hchain : txChain t = .ok () u) : roundsLeft .tx u < roundsLeft .tx s := by
  have hstep : UsedRingStep .tx t u := Res.state_of_ok hchain ▸ txChain_usedRing t
  by_cases hrace : s.race = []
  · obtain ⟨rfl, hthere⟩ := availPending_ok_quiet hrace hpending
    have hahead := entriesAhead_advance (hstep.availIdx hd hrace) (txChain_nextAvail hchain)
      (bne_iff_ne.mp hthere.symm)
    have hport : u.rxPort = t.rxPort := hstep.engine.portKept rfl
    rw [roundsLeft_quiet hrace, roundsLeft_quiet (hstep.engine.quiet hrace), hport]
    omega
  · exact roundsLeft_lt_of_turn hrace hpending hstep.engine

/-- A chain taken on RX, a frame waiting, takes the frame. -/
theorem rxDeliver_rxPort_lt {head : Half} {list : List Desc} (h : rxDeliver head list s = .ok true t) :
    t.rxPort.length < s.rxPort.length := by
  unfold rxDeliver hostRxPop at h
  split at h
  next => cases h
  next =>
    obtain ⟨_, v, -, hanswer⟩ := Res.bind_eq_ok h
    cases hanswer
  next bytes popped hpop =>
    split at hpop
    next => cases hpop
    next item rest hport =>
      cases hpop
      obtain ⟨n, v, htransfer, h⟩ := Res.bind_eq_ok h
      obtain ⟨_, w, hpost, hanswer⟩ := Res.bind_eq_ok h
      cases hanswer
      have hv : WorkStep .rx (availAdvance .rx { s with rxPort := rest }) v :=
        Res.state_of_ok htransfer ▸ rxTransfer_work .rx list bytes _
      have hw : WorkStep .rx v t := Res.state_of_ok hpost ▸ usedPost_work .rx head _ v
      have hle : t.rxPort.length ≤ rest.length := (hv.trans hw).1.rxPort_le
      rw [hport, List.length_cons]
      omega

/-- While the guest is quiet, an RX round that goes on has skipped an entry or taken a frame. -/
theorem rxChain_ok_true_quiet (hq : s.race = []) (h : rxChain s = .ok true t) :
    (∃ head, t = countMalformedChain head (availAdvance .rx s)) ∨ t.rxPort.length < s.rxPort.length := by
  obtain ⟨head, u, hpeek, h⟩ := Res.bind_eq_ok h
  obtain ⟨chain, v, hwalk, h⟩ := Res.bind_eq_ok h
  obtain rfl : u = s := Res.state_of_ok hpeek ▸ memRead16_read (availRingAddr (s.queue .rx)) s hq
  obtain rfl : v = u := Res.state_of_ok hwalk ▸ walkChain_read .rx head u hq
  cases chain with
  | none => cases h; exact .inl ⟨head, rfl⟩
  | some list => exact .inr (rxDeliver_rxPort_lt h)

/-- An RX round that goes on takes a turn, an entry or a frame. -/
theorem roundsLeft_lt_of_rxChain (hpending : availPending .rx s = .ok true t)
    (hchain : rxChain t = .ok true u) : roundsLeft .rx u < roundsLeft .rx s := by
  have hstep : EngineStep .rx t u := Res.state_of_ok hchain ▸ (rxChain_work t).1
  by_cases hrace : s.race = []
  · obtain ⟨rfl, hthere⟩ := availPending_ok_quiet hrace hpending
    obtain ⟨head, rfl⟩ | hpopped := rxChain_ok_true_quiet hrace hchain
    · have hahead : entriesAhead .rx (countMalformedChain head (availAdvance .rx t)) + 1 = entriesAhead .rx t :=
        entriesAhead_advance rfl rfl (bne_iff_ne.mp hthere.symm)
      rw [roundsLeft_quiet hrace, roundsLeft_quiet (hstep.quiet hrace)]
      simp only [countMalformedChain_rxPort, availAdvance_rxPort]
      omega
    · have := entriesAhead_lt .rx u
      rw [roundsLeft_quiet hrace, roundsLeft_quiet (hstep.quiet hrace)]
      omega
  · exact roundsLeft_lt_of_turn hrace hpending hstep

end rounds

/-! ## The drains -/

/-- The TX loop ends within the rounds left. -/
theorem txLoop_ends : ∀ (fuel : Nat) {s : State}, Draining .tx s → roundsLeft .tx s ≤ fuel →
    ∃ r, txLoop fuel s = some r
  | 0, s, _, hfuel => absurd (roundsLeft_pos .tx s) (Nat.not_lt_of_le hfuel)
  | fuel + 1, s, hd, hfuel => by
    rw [txLoop]
    split
    next => exact ⟨_, rfl⟩
    next t hpending =>
      split
      next => exact ⟨_, rfl⟩
      next u hchain =>
        have hless := roundsLeft_lt_of_txChain hd hpending hchain
        exact txLoop_ends fuel ((hd.of_pending hpending).of_work hchain (txChain_work t)) (by omega)
    next t hpending =>
      split
      next => exact ⟨_, rfl⟩
      next u hraced =>
        have hless := roundsLeft_lt_of_raced hd hpending hraced
        exact txLoop_ends fuel ((hd.of_pending hpending).of_work hraced (reArm_work .tx t)) (by omega)
      next => exact ⟨_, rfl⟩

/-- The RX loop ends within the rounds left. -/
theorem rxLoop_ends : ∀ (fuel : Nat) {s : State}, Draining .rx s → roundsLeft .rx s ≤ fuel →
    ∃ r, rxLoop fuel s = some r
  | 0, s, _, hfuel => absurd (roundsLeft_pos .rx s) (Nat.not_lt_of_le hfuel)
  | fuel + 1, s, hd, hfuel => by
    rw [rxLoop]
    split
    next => exact ⟨_, rfl⟩
    next =>
      split
      next => exact ⟨_, rfl⟩
      next t hpending =>
        split
        next => exact ⟨_, rfl⟩
        next u hraced =>
          have hless := roundsLeft_lt_of_raced hd hpending hraced
          exact rxLoop_ends fuel ((hd.of_pending hpending).of_work hraced (reArm_work .rx t)) (by omega)
        next => exact ⟨_, rfl⟩
      next t hpending =>
        split
        next => exact ⟨_, rfl⟩
        next u hchain =>
          have hless := roundsLeft_lt_of_rxChain hpending hchain
          exact rxLoop_ends fuel ((hd.of_pending hpending).of_work hchain (rxChain_work t)) (by omega)
        next => exact ⟨_, rfl⟩

/-- A loop that has ended ends its drain. -/
theorem endDrain_some (i : QueueId) (r : Res Unit) : ∃ t, endDrain i (some r) = some t := by
  cases r with
  | fault a n s => exact ⟨_, rfl⟩
  | ok _ s =>
    rw [endDrain]
    split <;> exact ⟨_, rfl⟩

theorem processQueue_ends {i : QueueId} {s : State} (hd : Draining i s) : ∃ t, processQueue i s = some t := by
  cases i with
  | rx =>
    rw [processQueue, pumpRx]
    split
    next => exact ⟨_, rfl⟩
    next u hu =>
      obtain ⟨r, hr⟩ := rxLoop_ends _ (hd.of_work hu (notifyDisable_work .rx s)) (roundsLeft_le_drainFuel .rx u)
      rw [hr]
      exact endDrain_some .rx r
  | tx =>
    rw [processQueue, processTx]
    split
    next => exact ⟨_, rfl⟩
    next u hu =>
      obtain ⟨r, hr⟩ := txLoop_ends _ (hd.of_work hu (notifyDisable_work .tx s)) (roundsLeft_le_drainFuel .tx u)
      rw [hr]
      exact endDrain_some .tx r

/-! ## The operations with a branch -/

theorem execWrQueueNum_completes (v : Word) (s : State) : Completes (execWrQueueNum v s) := by
  unfold execWrQueueNum
  split
  next => exact ⟨_, rfl⟩
  next => split <;> exact ⟨_, rfl⟩

theorem execWrQueuePfn_completes (v : Word) (s : State) : Completes (execWrQueuePfn v s) := by
  unfold execWrQueuePfn
  split <;> exact ⟨_, rfl⟩

theorem execRdConfig_completes (k : Offset) (n : Nat) (s : State) : Completes (execRdConfig k n s) := by
  unfold execRdConfig
  split <;> exact ⟨_, rfl⟩

section operations

variable {s : State} (hs : s.Inv) (halign : s.cfg.queueAlign ≤ 2 ^ 63)

include hs

theorem execEvtPowerOn_completes (hextra : s.cfg.extraFeatures = 0#64) (hfirst : s.opsBegun ≤ 1) :
    Completes (execEvtPowerOn s) := by
  rw [execEvtPowerOn, if_neg (Nat.not_lt_of_le hfirst), hs.parameters, Bool.not_true, if_neg Bool.false_ne_true,
    if_neg (not_not_intro hextra)]
  exact ⟨_, rfl⟩

include halign

theorem execWrQueueNotify_completes (v : Word) : Completes (execWrQueueNotify v s) := by
  unfold execWrQueueNotify
  split
  next => exact ⟨_, rfl⟩
  next i _ =>
    split
    next => exact ⟨_, rfl⟩
    next =>
      split
      next => exact ⟨_, rfl⟩
      next hconf =>
        rw [Bool.not_eq_true', Bool.not_eq_false] at hconf
        obtain ⟨t, ht⟩ := processQueue_ends (Draining.of_inv hs halign hconf)
        rw [ht]
        exact ⟨_, rfl⟩

theorem execEvtHostRxReady_completes : Completes (execEvtHostRxReady s) := by
  unfold execEvtHostRxReady
  split
  next => exact ⟨_, rfl⟩
  next hready =>
    simp only [Bool.or_eq_true, Bool.not_eq_true', not_or, Bool.not_eq_false] at hready
    obtain ⟨-, hconf⟩ := hready
    obtain ⟨t, ht⟩ := processQueue_ends (i := .rx) (Draining.of_inv hs halign hconf)
    rw [show pumpRx s = some t from ht]
    exact ⟨_, rfl⟩

end operations

/-- Settles O56: only power-on can be refused and only a drain can fault, and a drain's fuel covers the rounds it has
left. -/
theorem everyOperationEnds : Obligations.EveryOperationEnds := by
  intro i s hs halign hextra hfirst
  cases i with
  | rdMagic | rdVersion | rdDeviceId | rdVendorId | rdHostFeatures | rdQueueNumMax | rdQueuePfn
  | rdInterruptStatus | rdStatus => exact ⟨_, rfl⟩
  | wrHostFeaturesSel v | wrGuestFeatures v | wrGuestFeaturesSel v | wrGuestPageSize v | wrQueueSel v
  | wrQueueAlign v | wrInterruptAck v | wrStatus v => exact ⟨_, rfl⟩
  | wrConfig k n | invalidAccess dir o len => exact ⟨_, rfl⟩
  | wrQueueNum v => exact execWrQueueNum_completes v s
  | wrQueuePfn v => exact execWrQueuePfn_completes v s
  | rdConfig k n => exact execRdConfig_completes k n s
  | wrQueueNotify v => exact execWrQueueNotify_completes hs halign v
  | evtHostRxReady => exact execEvtHostRxReady_completes hs halign
  | evtPowerOn => exact execEvtPowerOn_completes hs hextra (hfirst rfl)

end Sys2Proof.Machine
end

