-- ==== Sys2Proof/Proofs/RxTransfer.lean ====
section
/-! `RxTransfer` (spec/46_frame_transfer.md R200, R201): how much it copies, in any interleaving, and what it leaves in
memory while the guest is quiet. -/

namespace Sys2Proof.Machine

/-! ## The rounds of the copy -/

/-- The bytes of the frame that a descriptor takes from `cursor` on. -/
theorem slice_frame (frame : List Byte) (cursor k : Nat) :
    slice frame cursor (min k (frame.length - cursor)) = (frame.drop cursor).take k := by
  rw [slice, ← List.length_drop, List.take_eq_take_iff]
  omega

theorem rxCopy_nil (frame : List Byte) (cursor : Nat) (s : State) : rxCopy frame [] cursor s = .ok cursor s := rfl

/-- A finished copy skips the remaining descriptors. -/
theorem rxCopy_finished (frame : List Byte) (chain : List Desc) (s : State) :
    rxCopy frame chain frame.length s = .ok frame.length s := by
  cases chain with
  | nil => rfl
  | cons d ds => rw [rxCopy, if_pos rfl]

/-- One round; behind the frame's end it stores no byte. -/
theorem rxCopy_cons (frame : List Byte) (d : Desc) (ds : List Desc) (cursor : Nat) (s : State) :
    rxCopy frame (d :: ds) cursor s =
      (memWriteTorn d.addr ((frame.drop cursor).take d.len.toNat) s).bind fun _ s =>
        rxCopy frame ds (cursor + min d.len.toNat (frame.length - cursor)) s := by
  by_cases hend : cursor = frame.length
  · rw [hend, rxCopy_finished, List.drop_length, List.take_nil, memWriteTorn_nil, Res.bind_ok, Nat.sub_self,
      Nat.min_zero, Nat.add_zero, rxCopy_finished]
  · rw [rxCopy, if_neg hend, slice_frame]

/-! ## How much is copied -/

theorem rxCopy_ok {frame : List Byte} : ∀ {chain : List Desc} {cursor n : Nat} {s t : State},
    cursor ≤ frame.length → rxCopy frame chain cursor s = .ok n t → n = min frame.length (cursor + capacity chain)
  | [], cursor, n, s, t, hle, h => by
    cases h
    rw [capacity]
    omega
  | d :: ds, cursor, n, s, t, hle, h => by
    rw [rxCopy_cons] at h
    obtain ⟨_, u, -, hrest⟩ := Res.bind_eq_ok h
    have := rxCopy_ok (by omega) hrest
    rw [capacity]
    omega

/-- Whether the frame fits is all that the answer and the counter depend on. -/
theorem rxTransfer_eq (chain : List Desc) (frame : List Byte) (s : State) :
    rxTransfer chain frame s = (rxCopy frame chain 0 s).bind fun n t =>
      .ok n (if capacity chain < frame.length then countOversizedFrame frame.length (capacity chain) t else t) := by
  rw [rxTransfer]
  cases h : rxCopy frame chain 0 s with
  | fault a k t => rfl
  | ok n t =>
    have hn := rxCopy_ok (Nat.zero_le _) h
    have hfits : n < frame.length ↔ capacity chain < frame.length := by omega
    simp only [Res.bind_ok, hfits]
    split <;> rfl

/-- Settles O39: the cursor is the smaller of the two after every round, and storing bytes counts nothing. -/
theorem rxTransferCountsWhatFits : Obligations.RxTransferCountsWhatFits := by
  intro s t chain frame n h
  rw [rxTransfer_eq] at h
  obtain ⟨k, u, hcopy, hanswer⟩ := Res.bind_eq_ok h
  cases hanswer
  have haccess := rxCopy_access frame chain 0 s
  rw [hcopy, Res.state_ok] at haccess
  have hdiag : u.diag = s.diag := by rw [haccess.only]
  refine ⟨by rw [rxCopy_ok (Nat.zero_le _) hcopy, Nat.zero_add], ?_⟩
  split
  next => rw [← hdiag]; rfl
  next => rw [hdiag]; rfl

/-! ## The first bytes of a chain -/

theorem chainBytes_length (m : Memory) : ∀ chain : List Desc, (chainBytes m chain).length = capacity chain
  | [] => rfl
  | d :: ds => by rw [chainBytes, List.length_append, readBytes_length, chainBytes_length m ds, capacity]

theorem min_len_toNat (d : Desc) (n : Nat) : (BitVec.ofNat 32 (min d.len.toNat n)).toNat = min d.len.toNat n := by
  have := d.len.isLt
  rw [BitVec.toNat_ofNat]
  omega

theorem firstBytes_min_capacity : ∀ (n : Nat) (chain : List Desc),
    firstBytes (min n (capacity chain)) chain = firstBytes n chain
  | _, [] => rfl
  | n, d :: ds => by
    have hfirst : min d.len.toNat (min n (capacity (d :: ds))) = min d.len.toNat n := by rw [capacity]; omega
    have hrest : min n (capacity (d :: ds)) - d.len.toNat = min (n - d.len.toNat) (capacity ds) := by
      rw [capacity]; omega
    rw [firstBytes, firstBytes, hfirst, hrest, firstBytes_min_capacity]

theorem inBuffers_cons {d : Desc} {ds : List Desc} {a : Nat} :
    inBuffers (d :: ds) a ↔ (d.addr.toNat ≤ a ∧ a < d.addr.toNat + d.len.toNat) ∨ inBuffers ds a := by
  simp only [inBuffers, List.mem_cons, exists_eq_or_imp]

theorem inBuffers_firstBytes_cons {n : Nat} {d : Desc} {ds : List Desc} {a : Nat} :
    inBuffers (firstBytes n (d :: ds)) a ↔
      (d.addr.toNat ≤ a ∧ a < d.addr.toNat + min d.len.toNat n) ∨ inBuffers (firstBytes (n - d.len.toNat) ds) a := by
  rw [firstBytes, inBuffers_cons, min_len_toNat]

/-- The first bytes of a chain lie in its buffers. -/
theorem inBuffers_of_firstBytes : ∀ {n : Nat} {chain : List Desc} {a : Nat},
    inBuffers (firstBytes n chain) a → inBuffers chain a
  | _, [], _, h => h
  | n, d :: ds, a, h => by
    rw [inBuffers_firstBytes_cons] at h
    rw [inBuffers_cons]
    obtain ⟨hlo, hhi⟩ | hrest := h
    · exact .inl ⟨hlo, by omega⟩
    · exact .inr (inBuffers_of_firstBytes hrest)

theorem inBuffers_of_prefix {before chain : List Desc} (h : before <+: chain) {a : Nat} (ha : inBuffers before a) :
    inBuffers chain a := by
  obtain ⟨d, hd, hin⟩ := ha
  exact ⟨d, h.subset hd, hin⟩

/-- A read of bytes that two memories agree on. -/
theorem readBytes_congr {m m' : Memory} {a : Dword} {n : Nat} (hbound : a.toNat + n ≤ 2 ^ 64)
    (h : ∀ x, a.toNat ≤ x → x < a.toNat + n → memGet m' x = memGet m x) : readBytes m' a n = readBytes m a n := by
  apply List.ext_getElem (by simp)
  intro i hi _
  rw [readBytes_length] at hi
  rw [readBytes_getElem, readBytes_getElem, addr_add_toNat (by omega)]
  exact h _ (by omega) (by omega)

theorem readBytes_take (m : Memory) : ∀ (n k : Nat) (a : Dword),
    (readBytes m a n).take k = readBytes m a (min k n)
  | 0, k, a => by rw [Nat.min_zero, readBytes, List.take_nil]
  | n + 1, 0, a => by rw [Nat.zero_min, List.take_zero, readBytes]
  | n + 1, k + 1, a => by rw [readBytes, List.take_succ_cons, readBytes_take m n k, Nat.add_min_add_right, readBytes]

/-! ## What a copy leaves in memory -/

/-- Memory `m'` is `m` after the bytes `bs` went into the chain's buffers, as many as they hold (R200, R201). -/
structure Scattered (chain : List Desc) (bs : List Byte) (m m' : Memory) : Prop where
  wf : m'.wf = true
  outside : ∀ a, ¬ inBuffers (firstBytes bs.length chain) a → memGet m' a = memGet m a
  holds : chain.Pairwise buffersApart → (chainBytes m' chain).take bs.length = bs.take (capacity chain)

theorem Scattered.nil (bs : List Byte) {m : Memory} (hw : m.wf = true) : Scattered [] bs m m :=
  ⟨hw, fun _ _ => rfl, fun _ => by rw [chainBytes, capacity, List.take_nil, List.take_zero]⟩

/-- The first buffer's share, and then the rest into the rest: a later store does not reach back into a buffer apart
from its own. -/
theorem Scattered.cons {d : Desc} {ds : List Desc} {bs : List Byte} {m m' : Memory} (hw : m.wf = true)
    (hbound : d.addr.toNat + (bs.take d.len.toNat).length ≤ 2 ^ 64)
    (h : Scattered ds (bs.drop d.len.toNat) (writeBytes m d.addr (bs.take d.len.toNat)) m') :
    Scattered (d :: ds) bs m m' := by
  have hlen : (bs.take d.len.toNat).length = min d.len.toNat bs.length := List.length_take
  have houtside := h.outside
  rw [List.length_drop] at houtside
  refine ⟨h.wf, fun a ha => ?_, fun hapart => ?_⟩
  · rw [inBuffers_firstBytes_cons, not_or] at ha
    obtain ⟨hfirst, hrest⟩ := ha
    rw [houtside a hrest, memGet_writeBytes_outside hw hbound (by omega)]
  · obtain ⟨hd, hds⟩ := List.pairwise_cons.mp hapart
    have hkept : readBytes m' d.addr (bs.take d.len.toNat).length = bs.take d.len.toNat := by
      refine (readBytes_congr hbound fun x hlo hhi => houtside x fun hin => ?_).trans
        (readBytes_writeBytes hw _ _ hbound)
      obtain ⟨e, he, helo, hehi⟩ := inBuffers_of_firstBytes hin
      have := hd e he
      unfold buffersApart at this
      omega
    have hrest := h.holds hds
    rw [List.length_drop] at hrest
    rw [chainBytes, capacity, List.take_append, readBytes_length, hrest, readBytes_take, Nat.min_comm, ← hlen, hkept,
      List.take_add]

/-! ## The copy while the guest is quiet -/

/-- What the next round has to copy. -/
theorem drop_advance (frame : List Byte) (cursor k : Nat) :
    frame.drop (cursor + min k (frame.length - cursor)) = (frame.drop cursor).drop k := by
  rw [List.drop_drop, List.drop_eq_drop_iff]
  omega

/-- A store of a buffer's share, of no byte or permitted. -/
theorem memWriteTorn_quiet_ok {s : State} (hq : quiet s) {a : Dword} {bs : List Byte}
    (h : bs ≠ [] → accessOk s a bs.length = true) : memWriteTorn a bs s = .ok () (s.stored a bs) := by
  by_cases hbs : bs = []
  · rw [hbs, memWriteTorn_nil]
    rfl
  · rw [memWriteTorn_quiet hq a hbs, if_pos (h hbs)]
    rfl

theorem permitted_bound {s : State} {a : Dword} {bs : List Byte} (h : bs ≠ [] → accessOk s a bs.length = true) :
    a.toNat + bs.length ≤ 2 ^ 64 := by
  by_cases hbs : bs = []
  · rw [hbs, List.length_nil]
    exact Nat.le_of_lt a.isLt
  · exact accessOk_bound (h hbs)

/-- However the copy ends, some first buffers of the chain have their share and nothing else has changed; all of them
when it answers. -/
theorem rxCopy_quiet {frame : List Byte} : ∀ (chain : List Desc) (cursor : Nat) {s : State}, quiet s →
    s.mem.wf = true →
    ∃ before m, before <+: chain ∧ Scattered before (frame.drop cursor) s.mem m
      ∧ (rxCopy frame chain cursor s).state = { s with mem := m }
      ∧ ∀ n t, rxCopy frame chain cursor s = .ok n t → before = chain
  | [], cursor, s, _, hw => ⟨[], s.mem, List.prefix_refl [], .nil _ hw, rfl, fun _ _ _ => rfl⟩
  | d :: ds, cursor, s, hq, hw => by
    rw [rxCopy_cons]
    by_cases hpermitted : (frame.drop cursor).take d.len.toNat ≠ [] →
        accessOk s d.addr ((frame.drop cursor).take d.len.toNat).length = true
    · obtain ⟨before, m, hprefix, hscattered, hstate, hall⟩ :=
        rxCopy_quiet (frame := frame) ds (cursor + min d.len.toNat (frame.length - cursor))
          (s := s.stored d.addr ((frame.drop cursor).take d.len.toNat)) hq (stored_wf hw _ _)
      rw [drop_advance] at hscattered
      rw [memWriteTorn_quiet_ok hq hpermitted, Res.bind_ok]
      exact ⟨d :: before, m, (List.prefix_cons_inj d).mpr hprefix, hscattered.cons hw (permitted_bound hpermitted),
        hstate, fun n t h => congrArg (d :: ·) (hall n t h)⟩
    · obtain ⟨hshare, hforbidden⟩ := Classical.not_imp.mp hpermitted
      rw [memWriteTorn_forbidden hshare (Bool.eq_false_of_not_eq_true hforbidden), Res.bind_fault]
      exact ⟨[], s.mem, List.nil_prefix, .nil _ hw, rfl, nofun⟩

/-- Accessible buffers get their share, and the copy goes on behind them. -/
theorem rxCopy_append {frame : List Byte} (behind : List Desc) : ∀ (before : List Desc) (cursor : Nat) {s : State},
    quiet s → s.mem.wf = true → cursor ≤ frame.length →
    (∀ e ∈ before, e.len ≠ 0#32 → accessOk s e.addr e.len.toNat = true) →
    ∃ m, Scattered before (frame.drop cursor) s.mem m
      ∧ rxCopy frame (before ++ behind) cursor s =
          rxCopy frame behind (min frame.length (cursor + capacity before)) { s with mem := m }
  | [], cursor, s, _, hw, hle, _ => ⟨s.mem, .nil _ hw, by rw [capacity, Nat.add_zero, Nat.min_eq_right hle]; rfl⟩
  | d :: ds, cursor, s, hq, hw, hle, haccess => by
    have hpermitted : (frame.drop cursor).take d.len.toNat ≠ [] →
        accessOk s d.addr ((frame.drop cursor).take d.len.toNat).length = true := by
      intro hshare
      have hlen : d.len ≠ 0#32 := by
        intro hzero
        rw [hzero] at hshare
        exact hshare List.take_zero
      exact accessOk_prefix (haccess d (List.mem_cons_self ..) hlen) (List.length_take_le _ _)
    obtain ⟨m, hscattered, hrest⟩ :=
      rxCopy_append (frame := frame) behind ds (cursor + min d.len.toNat (frame.length - cursor))
        (s := s.stored d.addr ((frame.drop cursor).take d.len.toNat)) hq (stored_wf hw _ _) (by omega)
        fun e he => haccess e (.tail _ he)
    rw [drop_advance] at hscattered
    have hcursor : min frame.length (cursor + min d.len.toNat (frame.length - cursor) + capacity ds)
        = min frame.length (cursor + capacity (d :: ds)) := by
      rw [capacity]
      omega
    rw [hcursor] at hrest
    refine ⟨m, hscattered.cons hw (permitted_bound hpermitted), ?_⟩
    rw [List.cons_append, rxCopy_cons, memWriteTorn_quiet_ok hq hpermitted, Res.bind_ok, hrest]
    rfl

/-- The count of an oversized frame is all that the transfer adds to the copy. -/
theorem rxTransfer_ok {chain : List Desc} {frame : List Byte} {n : Nat} {s t : State}
    (h : rxTransfer chain frame s = .ok n t) :
    n = min frame.length (capacity chain) ∧ ∃ u, rxCopy frame chain 0 s = .ok n u ∧ t.mem = u.mem := by
  rw [rxTransfer_eq] at h
  obtain ⟨k, u, hcopy, hanswer⟩ := Res.bind_eq_ok h
  cases hanswer
  refine ⟨by rw [rxCopy_ok (Nat.zero_le _) hcopy, Nat.zero_add], u, hcopy, ?_⟩
  split <;> rfl

theorem rxTransfer_fault {chain : List Desc} {frame : List Byte} {addr n : Nat} {s t : State} :
    rxTransfer chain frame s = .fault addr n t ↔ rxCopy frame chain 0 s = .fault addr n t := by
  rw [rxTransfer_eq]
  cases rxCopy frame chain 0 s with
  | ok k u => exact ⟨nofun, nofun⟩
  | fault a k u => rfl

/-- The first bytes of buffers that got their share, counted up to what fits. -/
theorem Scattered.take_min {chain : List Desc} {bs : List Byte} {m m' : Memory} (h : Scattered chain bs m m')
    (hapart : chain.Pairwise buffersApart) :
    (chainBytes m' chain).take (min bs.length (capacity chain)) = bs.take (min bs.length (capacity chain)) := by
  have hholds := congrArg (List.take (min bs.length (capacity chain))) (h.holds hapart)
  rwa [List.take_take, List.take_take, Nat.min_eq_left (Nat.min_le_left ..), Nat.min_eq_left (Nat.min_le_right ..)]
    at hholds

/-- Settles O40: by induction on the chain, each round stores one buffer's share, and a fault stores nothing. -/
theorem rxTransferWritesTheFrameInsideTheBuffers : Obligations.RxTransferWritesTheFrameInsideTheBuffers := by
  intro s chain frame hq hw
  obtain ⟨done, m, hprefix, hscattered, hstate, hall⟩ := rxCopy_quiet (frame := frame) chain 0 hq hw
  rw [List.drop_zero] at hscattered
  refine ⟨fun n t h => ?answer, fun addr n t h => ?fault,
    fun before behind d k hchain haccess hroom hlen hk hbad => ?firstForbidden⟩
  case answer =>
    obtain ⟨rfl, u, hcopy, hmem⟩ := rxTransfer_ok h
    obtain rfl := hall _ _ hcopy
    rw [hcopy, Res.state_ok] at hstate
    have htm : t.mem = m := by rw [hmem, hstate]
    rw [htm, firstBytes_min_capacity]
    exact ⟨hscattered.outside, hscattered.take_min⟩
  case fault =>
    rw [rxTransfer_fault.mp h, Res.state_fault] at hstate
    intro a ha
    rw [hstate]
    exact hscattered.outside a fun hin => ha (inBuffers_of_prefix hprefix (inBuffers_of_firstBytes hin))
  case firstForbidden =>
    subst hchain
    obtain ⟨m', hbefore, hrest⟩ := rxCopy_append (frame := frame) (d :: behind) before 0 hq hw (Nat.zero_le _) haccess
    rw [List.drop_zero] at hbefore
    rw [Nat.zero_add, Nat.min_eq_right (Nat.le_of_lt hroom)] at hrest
    have hshare : ((frame.drop (capacity before)).take d.len.toNat).length = k := by
      rw [hk, List.length_take, List.length_drop]
    have hne : (frame.drop (capacity before)).take d.len.toNat ≠ [] := by
      have := len_toNat_eq_zero_iff.not.mpr hlen
      rw [← List.length_pos_iff, hshare]
      omega
    refine ⟨{ s with mem := m' }, rxTransfer_fault.mpr ?_, rfl, fun a ha => ?_, fun hapart => ?_⟩
    · rw [hrest, rxCopy_cons, memWriteTorn_forbidden hne (hshare ▸ hbad), hshare, Res.bind_fault]
    · exact hbefore.outside a fun hin => ha (inBuffers_of_firstBytes hin)
    · have htake := hbefore.holds hapart
      rwa [List.take_of_length_le (by rw [chainBytes_length]; omega)] at htake

end Sys2Proof.Machine
end

