-- ==== Sys2Proof/Proofs/TxTransfer.lean ====
section
/-! `TxTransfer` (spec/46_frame_transfer.md R202): the push comes after the last buffer was read, or not at all. -/

namespace Sys2Proof.Machine

/-- A read in pieces, of no byte or permitted, answers in any interleaving. -/
theorem memReadTorn_answers {s : State} (ps : List Piece) {a : Dword} {n : Nat} (h : n ≠ 0 → accessOk s a n = true) :
    ∃ b t, memReadTorn ps a n s = .ok b t := by
  by_cases hn : n = 0
  · exact ⟨[], s, by rw [hn, memReadTorn_zero]⟩
  · obtain ⟨b, t, hread, -⟩ := memReadTorn_permitted ps hn (h hn)
    exact ⟨b, t, hread⟩

/-- The gathering stops at the first buffer that may not be accessed, in any interleaving. -/
theorem txGather_forbidden {behind : List Desc} {d : Desc} (hlen : d.len ≠ 0#32) : ∀ (before : List Desc) {s : State},
    (∀ e ∈ before, e.len ≠ 0#32 → accessOk s e.addr e.len.toNat = true) →
    accessOk s d.addr d.len.toNat = false →
    ∃ t, txGather (before ++ d :: behind) s = .fault d.addr.toNat d.len.toNat t
  | [], s, _, hbad => by
    refine ⟨s, ?_⟩
    rw [List.nil_append, txGather, memReadTorn_forbidden _ (len_toNat_eq_zero_iff.not.mpr hlen) hbad, Res.bind_fault]
  | e :: es, s, haccess, hbad => by
    obtain ⟨b, u, hread⟩ := memReadTorn_answers (bytePieces e.len.toNat)
      fun hn => haccess e (List.mem_cons_self ..) (len_toNat_eq_zero_iff.not.mp hn)
    have hstep := memReadTorn_access (bytePieces e.len.toNat) e.addr e.len.toNat s
    rw [hread, Res.state_ok] at hstep
    have hcfg : u.cfg = s.cfg := by rw [hstep.only]
    obtain ⟨t, hfault⟩ := txGather_forbidden (behind := behind) hlen es (s := u)
      (fun e' he hl => (accessOk_cfg hcfg ..).trans (haccess e' (.tail _ he) hl)) ((accessOk_cfg hcfg ..).trans hbad)
    exact ⟨t, by rw [List.cons_append, txGather, hread, Res.bind_ok, hfault, Res.bind_fault]⟩

/-- Only the gathering can fault. -/
theorem txTransfer_fault {chain : List Desc} {addr n : Nat} {s t : State} :
    txTransfer chain s = .fault addr n t ↔ txGather chain s = .fault addr n t := by
  rw [txTransfer]
  cases txGather chain s with
  | ok b u => exact ⟨nofun, nofun⟩
  | fault a k u => rw [Res.bind_fault, Res.fault.injEq, Res.fault.injEq]

/-- What a transfer that faults has changed. -/
theorem txTransfer_fault_access {chain : List Desc} {addr n : Nat} {s t : State}
    (h : txTransfer chain s = .fault addr n t) : AccessStep s t := by
  have haccess := txGather_access chain s
  rwa [txTransfer_fault.mp h, Res.state_fault] at haccess

/-- Settles O41: every read comes before the push, and while the guest is quiet the reads change nothing. -/
theorem txTransferPushesTheChainsBytes : Obligations.TxTransferPushesTheChainsBytes := by
  refine ⟨fun s before behind d haccess hlen hbad => ?forbidden, fun s t chain addr n h => ?fault,
    fun s chain hq haccess => ?pushed⟩
  case forbidden =>
    obtain ⟨t, hgather⟩ := txGather_forbidden (behind := behind) hlen before haccess hbad
    have hfault := txTransfer_fault.mpr hgather
    exact ⟨t, hfault, (txTransfer_fault_access hfault).only⟩
  case fault =>
    rw [(txTransfer_fault_access h).only]
    exact ⟨rfl, rfl, rfl⟩
  case pushed =>
    rw [txTransfer, txGather_quiet hq chain haccess, Res.bind_ok, pushFrame_eq]
    refine ⟨fun hok => ?_, fun herror => ?_⟩
    · simp only [if_neg hok, Nat.add_zero, List.append_nil]
    · simp only [if_pos herror]

end Sys2Proof.Machine
end

