-- ==== Sys2Proof/Proofs/RxPump.lean ====
section
/-! The RX pump while the guest is quiet (spec/46_frame_transfer.md R204, R205): when it does not run, when it stops at
once, and how it passes over a malformed chain. -/

namespace Sys2Proof.Machine

/-! ## The two operations that run the pump -/

theorem exec_evtHostRxReady (s : State) : exec .evtHostRxReady s = execEvtHostRxReady s := rfl

theorem configured_eq_false {q : Queue} (h : q.size = 0#16 ∨ q.descAddr = 0#64) : configured q = false := by
  rw [configured, Bool.and_eq_false_iff, bne_eq_false_iff_eq, bne_eq_false_iff_eq]
  exact h

/-- Settles O49: the first test of the event is the negation of the hypothesis. -/
theorem rxReadyIsIgnoredUnlessReady : Obligations.RxReadyIsIgnoredUnlessReady := by
  intro s h
  rw [exec_evtHostRxReady, execEvtHostRxReady]
  obtain hop | hunset := h
  · rw [hop, Bool.not_false, Bool.true_or, if_pos rfl]
  · rw [configured_eq_false hunset, Bool.not_false, Bool.or_true, if_pos rfl]

section ready

variable {s t : State} (hop : s.operational = true) (hconf : configured s.rxq = true)

include hop hconf

/-- On a ready block the event is the pump (R205). -/
theorem exec_evtHostRxReady_iff : exec .evtHostRxReady s = .next t ↔ pumpRx s = some t := by
  rw [exec_evtHostRxReady, execEvtHostRxReady, hop, hconf, if_neg (by decide)]
  cases pumpRx s with
  | none => exact ⟨nofun, nofun⟩
  | some v => rw [Host.Outcome.next.injEq, Option.some_inj]

/-- On a ready block the RX notify is the pump, and the bus answers `Ok` (R127, R206). -/
theorem exec_rxNotify_iff (hwf : s.cfg.wf = true) :
    exec (.wrQueueNotify 0#32) s = .next t ↔ ∃ v, pumpRx s = some v ∧ busOk v = t := by
  have hpump : processQueue .rx s = pumpRx s := by rw [processQueue]
  simp only [exec_wrQueueNotify, execWrQueueNotify, queueOf_zero hwf, hop, queue_rx, hconf, Bool.not_true,
    Bool.false_eq_true, if_false, hpump]
  cases pumpRx s with
  | none => exact ⟨nofun, fun ⟨_, hnone, _⟩ => nomatch hnone⟩
  | some v => simp only [Host.Outcome.next.injEq, Option.some_inj, exists_eq_left']

/-- What both operations do where the pump ends. -/
theorem exec_of_pumped (hwf : s.cfg.wf = true) (hpump : pumpRx s = some t) :
    exec .evtHostRxReady s = .next t ∧ exec (.wrQueueNotify 0#32) s = .next { t with busOutcome := some .ok } :=
  ⟨(exec_evtHostRxReady_iff hop hconf).mpr hpump, (exec_rxNotify_iff hop hconf hwf).mpr ⟨t, hpump, rfl⟩⟩

end ready

/-! ## The rounds of the pump -/

section rounds

variable {s t u : State}

theorem hostRxReady_of_waiting (hport : s.rxPort ≠ []) : hostRxReady s = true := by
  simpa [hostRxReady] using hport

/-- The round that finds no frame. -/
theorem rxLoop_of_noFrame {fuel : Nat} (hport : s.rxPort = []) (henable : notifyEnable .rx s = .ok () t) :
    rxLoop (fuel + 1) s = some (.ok () t) := by
  simp [rxLoop, hostRxReady, hport, henable]

/-- A round that takes or skips a chain. -/
theorem rxLoop_of_pending {fuel : Nat} (hport : s.rxPort ≠ []) (hpending : availPending .rx s = .ok true t)
    (hchain : rxChain t = .ok true u) : rxLoop (fuel + 1) s = rxLoop fuel u := by
  simp [rxLoop, hostRxReady_of_waiting hport, hpending, hchain]

/-- The round that finds no chain. -/
theorem rxLoop_of_rechecked {fuel : Nat} (hport : s.rxPort ≠ []) (hpending : availPending .rx s = .ok false t)
    (hrecheck : reArm .rx t = .ok false u) : rxLoop (fuel + 1) s = some (.ok () u) := by
  simp [rxLoop, hostRxReady_of_waiting hport, hpending, hrecheck]

/-- A loop that has ended normally leaves the interrupt decision. -/
theorem endDrain_of_notified {i : QueueId} (hnotify : maybeNotify i s = .ok () t) :
    endDrain i (some (.ok () s)) = some t := by
  rw [endDrain, hnotify]

/-- A pump without a fault: disable, the rounds, the interrupt decision. -/
theorem pumpRx_of_drained {v : State} (hdisable : notifyDisable .rx s = .ok () t)
    (hloop : rxLoop (drainFuel t) t = some (.ok () u)) (hnotify : maybeNotify .rx u = .ok () v) :
    pumpRx s = some v := by
  rw [pumpRx, hdisable]
  exact (congrArg (endDrain .rx) hloop).trans (endDrain_of_notified hnotify)

end rounds

/-! ## Without a frame or without a chain -/

/-- The pump ends in the round in which no frame waits or the cursor has met the index. -/
theorem reached_rxLoop_end {s t : State} (h : Reached .rx s t) (hq : quiet s) (hr : RingsApart s.rxq)
    (haccess : RingsAccessible s .rx) (hstop : t.rxPort = [] ∨ availIdx s .rx = t.rxq.nextAvail) (fuel : Nat) :
    rxLoop (fuel + 1) t = some (.ok () (enabled .rx s.rxq.usedAddr t)) := by
  by_cases hport : t.rxPort = []
  · exact rxLoop_of_noFrame hport (reached_notifyEnable h hq haccess)
  · have hmet := hstop.resolve_left hport
    have hpending : availPending .rx t = .ok false t := by
      rw [reached_availPending h hq hr haccess, queue_rx, bne_eq_false_iff_eq.mpr hmet]
    exact rxLoop_of_rechecked hport hpending (reached_reArm h hq hr haccess hmet)

/-- Settles O46: the pump ends in its first round, and with no entry posted there is no interrupt decision. -/
theorem rxPumpStopsWithoutAFrameOrAChain : Obligations.RxPumpStopsWithoutAFrameOrAChain := by
  rintro s hwf hq hmem hop hconf haccess hr hstop hposted t rfl
  have hdisabled : Reached .rx s (disabled .rx s.rxq.usedAddr s) := reached_disabled (reached_refl hmem) hr
  obtain ⟨fuel, hfuel⟩ := drainFuel_three (disabled .rx s.rxq.usedAddr s)
  have hloop := reached_rxLoop_end hdisabled hq hr haccess hstop (fuel + 2)
  have hpump : pumpRx s = some (enabled .rx s.rxq.usedAddr (disabled .rx s.rxq.usedAddr s)) :=
    pumpRx_of_drained (reached_notifyDisable (reached_refl hmem) hq haccess) (hfuel ▸ hloop)
      (maybeNotify_none hposted)
  rw [enabled_disabled] at hpump
  exact exec_of_pumped hop hconf hwf hpump

/-! ## A malformed chain -/

section reached

variable {i : QueueId} {s t : State} (h : Reached i s t)

include h

theorem reached_descEntryAddr (k : Half) : descEntryAddr (t.queue i) k = descEntryAddr (s.queue i) k :=
  congrArg (· + 16#64 * k.zeroExtend 64) h.rings.2.1

theorem reached_tableAccessible
    (htable : ∀ k : Half, k.toNat < (s.queue i).size.toNat → accessOk s (descEntryAddr (s.queue i) k) 16 = true)
    (k : Half) (hk : k.toNat < (t.queue i).size.toNat) : accessOk t (descEntryAddr (t.queue i) k) 16 = true := by
  rw [reached_descEntryAddr h, reached_accessOk h]
  exact htable k (h.rings.1 ▸ hk)

/-- The descriptor table is the same in every state of the run, and so are its chains. -/
theorem reached_wellFormedChain_iff (hr : RingsApart (s.queue i)) {head : Half} {chain : List Desc} :
    WellFormedChain t i head chain ↔ WellFormedChain s i head chain := by
  have hdesc := descAt_agree hr h.rings h.agree
  constructor
  · exact wellFormedChain_congr h.cfg.symm h.rings.1.symm fun k hk => (hdesc k (h.rings.1 ▸ hk)).symm
  · exact wellFormedChain_congr h.cfg h.rings.1 hdesc

end reached

/-- The state in which the pump has counted and passed over the entry with this head. -/
def passedOver (head : Half) (s : State) : State := countMalformedChain head (availAdvance .rx s)

section malformed

variable {s t : State} (h : Reached .rx s t) (hq : quiet s) (hr : RingsApart s.rxq) (haccess : RingsAccessible s .rx)

include h

theorem reached_passedOver (head : Half) : Reached .rx s (passedOver head t) :=
  reached_of_eq (reached_availAdvance h) rfl

include hq hr haccess

/-- The round that finds no well-formed chain at the head. -/
theorem reached_rxChain_malformed (hz : 0 < s.rxq.size.toNat) (hnext : t.rxq.nextAvail = s.rxq.nextAvail)
    (htable : ∀ k : Half, k.toNat < s.rxq.size.toNat → accessOk s (descEntryAddr s.rxq k) 16 = true)
    (hbad : ¬ ∃ chain, WellFormedChain s .rx (availHead s .rx) chain) :
    rxChain t = .ok true (passedOver (availHead s .rx) t) := by
  have hwalk : walkChain .rx (availHead s .rx) t = .ok none t := by
    refine walkChain_of_malformed (h.race.trans hq) (reached_tableAccessible h htable) fun ⟨chain, hchain⟩ => ?_
    exact hbad ⟨chain, (reached_wellFormedChain_iff h hr).mp hchain⟩
  rw [rxChain, reached_availPeek h hq hr haccess hz hnext, Res.bind_ok, hwalk, Res.bind_ok]
  rfl

/-- What the pump does before an entry that waits. -/
theorem reached_availPending_true (havail : availIdx s .rx ≠ t.rxq.nextAvail) : availPending .rx t = .ok true t := by
  rw [reached_availPending h hq hr haccess, queue_rx, bne_iff_ne.mpr havail]

end malformed

/-! ## The fuel -/

/-- A loop that has ended ends the same with more fuel. -/
theorem rxLoop_succ : ∀ {fuel : Nat} {s : State} {r : Res Unit}, rxLoop fuel s = some r → rxLoop (fuel + 1) s = some r
  | 0, _, _, h => by cases h
  | fuel + 1, s, r, h => by
    rw [rxLoop] at h ⊢
    split at h
    next hport => rwa [if_pos hport]
    next hport =>
      rw [if_neg hport]
      cases hpending : availPending .rx s with
      | fault a n t => simp only [hpending] at h ⊢; exact h
      | ok pending t =>
        cases pending with
        | false =>
          cases hrecheck : reArm .rx t with
          | fault a n u => simp only [hpending, hrecheck] at h ⊢; exact h
          | ok raced u =>
            cases raced with
            | true => simp only [hpending, hrecheck] at h ⊢; exact rxLoop_succ h
            | false => simp only [hpending, hrecheck] at h ⊢; exact h
        | true =>
          cases hchain : rxChain t with
          | fault a n u => simp only [hpending, hchain] at h ⊢; exact h
          | ok more u =>
            cases more with
            | true => simp only [hpending, hchain] at h ⊢; exact rxLoop_succ h
            | false => simp only [hpending, hchain] at h ⊢; exact h

theorem endDrain_rxLoop_succ {fuel : Nat} {s t : State} (h : endDrain .rx (rxLoop fuel s) = some t) :
    endDrain .rx (rxLoop (fuel + 1) s) = some t := by
  cases hloop : rxLoop fuel s with
  | none => rw [hloop] at h; cases h
  | some r => rwa [rxLoop_succ hloop, ← hloop]

/-! ## Passing over an entry -/

section passing

variable {s : State} (hq : quiet s) (hmem : s.mem.wf = true) (hconf : configured s.rxq = true)
  (haccess : RingsAccessible s .rx) (hr : RingsApart s.rxq) (hport : s.rxPort ≠ [])
  (htable : ∀ k : Half, k.toNat < s.rxq.size.toNat → accessOk s (descEntryAddr s.rxq k) 16 = true)
  (hbad : ¬ ∃ chain, WellFormedChain s .rx (availHead s .rx) chain)

include hq hmem hconf haccess hr hport htable hbad

/-- The pump's first round, at an entry without a well-formed chain. -/
theorem rxLoop_malformed (havail : availIdx s .rx ≠ s.rxq.nextAvail) (fuel : Nat) :
    rxLoop (fuel + 1) (disabled .rx s.rxq.usedAddr s)
      = rxLoop fuel (passedOver (availHead s .rx) (disabled .rx s.rxq.usedAddr s)) := by
  have hdisabled : Reached .rx s (disabled .rx s.rxq.usedAddr s) := reached_disabled (reached_refl hmem) hr
  exact rxLoop_of_pending hport (reached_availPending_true hdisabled hq hr haccess havail)
    (reached_rxChain_malformed hdisabled hq hr haccess (configured_size_pos hconf) rfl htable hbad)

/-- Where it is the only entry, the pump ends behind it. -/
theorem pumpRx_malformed (havail : availIdx s .rx = s.rxq.nextAvail + 1#16)
    (hposted : s.rxq.nextUsed = s.rxq.signalledUsed) :
    pumpRx s = some (enabled .rx s.rxq.usedAddr (disabled .rx s.rxq.usedAddr (passedOver (availHead s .rx) s))) := by
  have hdisabled : Reached .rx s (disabled .rx s.rxq.usedAddr s) := reached_disabled (reached_refl hmem) hr
  have hpassed := reached_passedOver hdisabled (availHead s .rx)
  have hloop : rxLoop (drainFuel (disabled .rx s.rxq.usedAddr s)) (disabled .rx s.rxq.usedAddr s)
      = some (.ok () (enabled .rx s.rxq.usedAddr (passedOver (availHead s .rx) (disabled .rx s.rxq.usedAddr s)))) := by
    obtain ⟨fuel, hfuel⟩ := drainFuel_three (disabled .rx s.rxq.usedAddr s)
    rw [hfuel, rxLoop_malformed hq hmem hconf haccess hr hport htable hbad (havail ▸ half_succ_ne _)]
    exact reached_rxLoop_end hpassed hq hr haccess (.inr havail) (fuel + 1)
  exact pumpRx_of_drained (reached_notifyDisable (reached_refl hmem) hq haccess) hloop (maybeNotify_none hposted)

/-- Where entries are available, what the pump does is what it does with this one passed over and counted before: its
first round leads there, and what is left of the fuel is one round less. -/
theorem pumpRx_passedOver (havail : availIdx s .rx ≠ s.rxq.nextAvail) {t : State} (h : pumpRx s = some t) :
    pumpRx (passedOver (availHead s .rx) s) = some t := by
  have hpassed : Reached .rx s (passedOver (availHead s .rx) s) := reached_passedOver (reached_refl hmem) _
  obtain ⟨fuel, hfuel⟩ := drainFuel_three (disabled .rx s.rxq.usedAddr s)
  have hsame : drainFuel (disabled .rx s.rxq.usedAddr (passedOver (availHead s .rx) s)) = fuel + 3 := hfuel
  simp only [pumpRx, reached_notifyDisable (reached_refl hmem) hq haccess, reached_notifyDisable hpassed hq haccess,
    queue_rx, hfuel, hsame, rxLoop_malformed hq hmem hconf haccess hr hport htable hbad havail] at h ⊢
  exact endDrain_rxLoop_succ h

end passing

/-- Settles O45: the pump's first round passes over the entry, and then it is in the state in which the entry had been
passed over before. -/
theorem rxPumpSkipsAMalformedChain : Obligations.RxPumpSkipsAMalformedChain := by
  rintro s hwf hq hmem hop hconf haccess hr hport hposted htable hbad u rfl
  refine ⟨fun havail t ht => ?only, fun havail => ?more⟩
  case only =>
    subst ht
    have hpump := pumpRx_malformed hq hmem hconf haccess hr hport htable hbad havail hposted
    rw [enabled_disabled] at hpump
    exact exec_of_pumped hop hconf hwf hpump
  case more =>
    have hpassed {t : State} := pumpRx_passedOver hq hmem hconf haccess hr hport htable hbad havail (t := t)
    refine ⟨fun t h => ?_, fun t h => ?_⟩
    · rw [exec_evtHostRxReady_iff hop hconf] at h
      exact (exec_evtHostRxReady_iff (s := passedOver (availHead s .rx) s) hop hconf).mpr (hpassed h)
    · rw [exec_rxNotify_iff hop hconf hwf] at h
      obtain ⟨v, hpump, rfl⟩ := h
      exact (exec_rxNotify_iff (s := passedOver (availHead s .rx) s) hop hconf hwf).mpr ⟨v, hpassed hpump, rfl⟩

end Sys2Proof.Machine
end

