-- ==== Sys2Proof/Proofs/RxDelivery.lean ====
section
/-! The delivery of one frame while the guest is quiet (spec/46_frame_transfer.md R204): the copy into the chain, the
posted entry, and the interrupt decision. -/

namespace Sys2Proof.Machine

/-! ## An entry posted, notifications enabled again -/

/-- The state after `UsedPost` and then `NotifyEnable`, at the addresses of the bank `q`. -/
def published (i : QueueId) (q : Queue) (head : Half) (n : Word) (t : State) : State :=
  enabled i q.usedAddr (posted i q head n t)

section published

variable {i : QueueId} {q : Queue} {t : State} (head : Half) (n : Word) (hw : t.mem.wf = true) (hr : RingsApart q)
  (hz : 0 < q.size.toNat)

theorem published_mem (i : QueueId) (q : Queue) (t : State) :
    (published i q head n t).mem = writeBytes (posted i q head n t).mem q.usedAddr [0#8, 0#8] := by
  rw [published, enabled, stored_mem, setQueue_mem]

include hw

theorem posted_wf : (posted i q head n t).mem.wf = true := by
  rw [posted_mem]
  exact writeBytes_wf _ _ (writeBytes_wf _ _ (writeBytes_wf _ _ hw))

include hr

theorem published_flags : readBytes (published i q head n t).mem (usedFlagsAddr q) 2 = [0#8, 0#8] := by
  have hend := hr.used
  rw [published_mem]
  exact readBytes_writeBytes (posted_wf head n hw) q.usedAddr [0#8, 0#8]
    (by simp only [List.length_cons, List.length_nil]; omega)

/-- Behind the flags, what was posted reads as posted. -/
theorem published_read {c : Dword} {k : Nat} (hbehind : q.usedAddr.toNat + 2 ≤ c.toNat) (hc : c.toNat + k ≤ 2 ^ 64) :
    readBytes (published i q head n t).mem c k = readBytes (posted i q head n t).mem c k := by
  have hend := hr.used
  rw [published_mem]
  exact readBytes_writeBytes_outside (posted_wf head n hw) (by simp only [List.length_cons, List.length_nil]; omega)
    hc (.inr hbehind)

include hz

theorem published_idx :
    readBytes (published i q head n t).mem (usedIdxAddr q) 2 = bytesLE 2 ((t.queue i).nextUsed + 1#16).toNat := by
  obtain ⟨hidx, hid, -, hend⟩ := entry_places hr hz
  rw [published_read head n hw hr (by omega) (by omega), posted_idx head n hw hr]

theorem published_id : readBytes (published i q head n t).mem (usedIdAddr q) 4 = bytesLE 4 head.toNat := by
  obtain ⟨hidx, hid, -, hend⟩ := entry_places hr hz
  rw [published_read head n hw hr (by omega) (by omega), posted_id head n hw hr hz]

theorem published_len : readBytes (published i q head n t).mem (usedLenAddr q) 4 = bytesLE 4 n.toNat := by
  obtain ⟨hidx, hid, hlen, hend⟩ := entry_places hr hz
  rw [published_read head n hw hr (by omega) (by omega), posted_len head n hw hr hz]

/-- The flags, the index and the element are all that changes. -/
theorem published_outside {a : Nat} (ha : ¬ inPosted q a) :
    memGet (published i q head n t).mem a = memGet t.mem a := by
  have hend := hr.used
  have hidx := addr_usedIdx hr
  unfold inPosted at ha
  rw [published_mem, memGet_writeBytes_outside (posted_wf head n hw)
    (by simp only [List.length_cons, List.length_nil]; omega) (by simp only [List.length_cons, List.length_nil]; omega),
    posted_outside head n hw hr hz (by omega) (by omega)]

end published

/-! ## The transfer of a frame into accessible buffers -/

/-- The state after the frame went into the chain and left memory as `m`, an oversized frame counted (R200, R233). -/
def transferred (chain : List Desc) (frame : List Byte) (m : Memory) (s : State) : State :=
  { s with
    mem := m
    diag := { s.diag with
      oversizedFrames := s.diag.oversizedFrames + if capacity chain < frame.length then 1 else 0 }
    errorLog := s.errorLog ++
      if capacity chain < frame.length then [.oversizedFrame frame.length (capacity chain)] else [] }

theorem rxTransfer_quiet {chain : List Desc} {s : State} (frame : List Byte) (hq : quiet s) (hw : s.mem.wf = true)
    (haccess : ∀ d ∈ chain, d.len ≠ 0#32 → accessOk s d.addr d.len.toNat = true) :
    ∃ m, Scattered chain frame s.mem m
      ∧ rxTransfer chain frame s = .ok (min frame.length (capacity chain)) (transferred chain frame m s) := by
  obtain ⟨m, hscattered, hcopy⟩ := rxCopy_append (frame := frame) [] chain 0 hq hw (Nat.zero_le _) haccess
  rw [List.append_nil, rxCopy_nil, Nat.zero_add] at hcopy
  refine ⟨m, hscattered, ?_⟩
  rw [rxTransfer_eq, hcopy, Res.bind_ok, transferred]
  split
  next => rfl
  next => rw [Nat.add_zero, List.append_nil]

/-! ## The delivery -/

/-- The state in which the pump copies: notifications disabled, the frame and the entry taken. -/
def taken (s : State) : State := availAdvance .rx { disabled .rx s.rxq.usedAddr s with rxPort := [] }

/-- The state after the frame went into the chain and the entry was posted. -/
def filled (s : State) (head : Half) (chain : List Desc) (frame : List Byte) (m : Memory) : State :=
  posted .rx s.rxq head (BitVec.ofNat 32 (min frame.length (capacity chain))) (transferred chain frame m (taken s))

/-- The state in which the pump makes the interrupt decision. -/
def delivered (s : State) (head : Half) (chain : List Desc) (frame : List Byte) (m : Memory) : State :=
  published .rx s.rxq head (BitVec.ofNat 32 (min frame.length (capacity chain)))
    (transferred chain frame m (taken s))

theorem taken_eq (s : State) :
    taken s = { s with
      rxq := { s.rxq with notifySuppressed := true, nextAvail := s.rxq.nextAvail + 1#16 }
      rxPort := []
      mem := (taken s).mem } := rfl

/-- Filling the chain, as one update. -/
theorem filled_eq (s : State) (head : Half) (chain : List Desc) (frame : List Byte) (m : Memory) :
    filled s head chain frame m = { s with
      rxq := { s.rxq with
        notifySuppressed := true
        nextAvail := s.rxq.nextAvail + 1#16
        nextUsed := s.rxq.nextUsed + 1#16 }
      rxPort := []
      mem := (filled s head chain frame m).mem
      diag := { s.diag with
        oversizedFrames := s.diag.oversizedFrames + if capacity chain < frame.length then 1 else 0 }
      errorLog := s.errorLog ++
        if capacity chain < frame.length then [.oversizedFrame frame.length (capacity chain)] else [] } := by
  have hposted := posted_eq .rx s.rxq head (BitVec.ofNat 32 (min frame.length (capacity chain)))
    (transferred chain frame m (taken s))
  have htaken := taken_eq s
  rw [← filled] at hposted
  generalize filled s head chain frame m = u at hposted ⊢
  generalize u.mem = v at hposted ⊢
  generalize taken s = w at hposted htaken
  generalize w.mem = x at htaken
  subst hposted htaken
  rfl

/-- The delivery, as one update. -/
theorem delivered_eq (s : State) (head : Half) (chain : List Desc) (frame : List Byte) (m : Memory) :
    delivered s head chain frame m = { s with
      rxq := { s.rxq with
        notifySuppressed := false
        nextAvail := s.rxq.nextAvail + 1#16
        nextUsed := s.rxq.nextUsed + 1#16 }
      rxPort := []
      mem := (delivered s head chain frame m).mem
      diag := { s.diag with
        oversizedFrames := s.diag.oversizedFrames + if capacity chain < frame.length then 1 else 0 }
      errorLog := s.errorLog ++
        if capacity chain < frame.length then [.oversizedFrame frame.length (capacity chain)] else [] } := by
  have hfilled := filled_eq s head chain frame m
  rw [delivered, published, ← filled]
  generalize filled s head chain frame m = u at hfilled ⊢
  generalize u.mem = v at hfilled
  subst hfilled
  rfl

section delivery

variable {s : State} {chain : List Desc} {frame : List Byte} (hq : quiet s) (hmem : s.mem.wf = true)
  (hr : RingsApart s.rxq) (haccess : RingsAccessible s .rx)

theorem ringsAccessible_with_mem {s : State} (haccess : RingsAccessible s .rx) (m : Memory) :
    RingsAccessible { s with mem := m } .rx :=
  ⟨haccess.availFlags, haccess.availIdx, haccess.availRing, haccess.usedFlags, haccess.usedIdx, haccess.usedId,
    haccess.usedLen⟩

theorem taken_mem (s : State) : (taken s).mem = writeBytes s.mem s.rxq.usedAddr [1#8, 0#8] := rfl

/-- From the copy on, a state of the run of the machine in whose memory the frame stood from the start. -/
theorem reached_transferred {m : Memory} (hm : m.wf = true) :
    Reached .rx { s with mem := m } (transferred chain frame m (taken s)) :=
  ⟨rfl, rfl, ⟨rfl, rfl, rfl, rfl⟩, agreeOutside_refl _ _, hm⟩

include hr

theorem reached_filled (hz : 0 < s.rxq.size.toNat) (head : Half) {m : Memory} (hm : m.wf = true) :
    Reached .rx { s with mem := m } (filled s head chain frame m) :=
  reached_posted (reached_transferred hm) hr hz head _

theorem reached_delivered (hz : 0 < s.rxq.size.toNat) (head : Half) {m : Memory} (hm : m.wf = true) :
    Reached .rx { s with mem := m } (delivered s head chain frame m) :=
  reached_enabled (reached_filled hr hz head hm) hr

/-- The buffers lie off the used ring, where alone posting stores. -/
theorem delivered_copied (hz : 0 < s.rxq.size.toNat) {head : Half} {m : Memory}
    (h : Scattered chain frame (taken s).mem m) (hfit : BuffersFit s .rx chain) :
    (chainBytes (delivered s head chain frame m).mem chain).take (min frame.length (capacity chain))
      = frame.take (min frame.length (capacity chain)) := by
  have hagree : agreeOutside s.rxq m (delivered s head chain frame m).mem := (reached_delivered hr hz head h.wf).agree
  rw [chainBytes_agree hr hagree chain (fun d hd hlen => accessOk_bound (hfit.accessible d hd hlen)) hfit.offRings]
  exact h.take_min hfit.apart

include hmem

/-- No byte outside the first buffers' share and the flags changes before the entry is posted. -/
theorem scattered_outside {m : Memory} (h : Scattered chain frame (taken s).mem m) {a : Nat}
    (hflags : a < s.rxq.usedAddr.toNat ∨ s.rxq.usedAddr.toNat + 2 ≤ a)
    (hbuffers : ¬ inBuffers (firstBytes frame.length chain) a) : memGet m a = memGet s.mem a := by
  have hend := hr.used
  rw [h.outside a hbuffers, taken_mem,
    memGet_writeBytes_outside hmem (by simp only [List.length_cons, List.length_nil]; omega)
      (by simpa only [List.length_cons, List.length_nil] using hflags)]

/-- What the whole delivery leaves as it was (R201, R184). -/
theorem delivered_outside (hz : 0 < s.rxq.size.toNat) {head : Half} {m : Memory}
    (h : Scattered chain frame (taken s).mem m) {a : Nat} (hposted : ¬ inPosted s.rxq a)
    (hbuffers : ¬ inBuffers (firstBytes (min frame.length (capacity chain)) chain) a) :
    memGet (delivered s head chain frame m).mem a = memGet s.mem a := by
  rw [firstBytes_min_capacity] at hbuffers
  have hkept : memGet (delivered s head chain frame m).mem a = memGet m a :=
    published_outside (t := transferred chain frame m (taken s)) head _ h.wf hr hz hposted
  rw [hkept]
  unfold inPosted at hposted
  exact scattered_outside hmem hr h (by omega) hbuffers

/-- The driver's flag lies in no buffer and before the used ring. -/
theorem availFlags_scattered {m : Memory} (h : Scattered chain frame (taken s).mem m)
    (hoff : ∀ d ∈ chain, offRings s.rxq d) : availFlags { s with mem := m } .rx = availFlags s .rx := by
  have htable := hr.table
  have havail := hr.avail
  have hend := hr.used
  have hread : readBytes m s.rxq.availAddr 2 = readBytes s.mem s.rxq.availAddr 2 := by
    refine readBytes_congr (by omega) fun x hlo hhi => scattered_outside hmem hr h (by omega) fun hin => ?_
    obtain ⟨d, hd, hdlo, hdhi⟩ := inBuffers_of_firstBytes hin
    have := hoff d hd
    unfold offRings at this
    omega
  exact congrArg le16 hread

include hq haccess

/-- Peek, walk, pop, advance, copy and post, on a well-formed chain of accessible buffers. -/
theorem rxChain_delivers (hz : 0 < s.rxq.size.toNat) (hport : s.rxPort = [.frame frame])
    (htable : ∀ k : Half, k.toNat < s.rxq.size.toNat → accessOk s (descEntryAddr s.rxq k) 16 = true)
    (hchain : WellFormedChain s .rx (availHead s .rx) chain)
    (hbuffers : ∀ d ∈ chain, d.len ≠ 0#32 → accessOk s d.addr d.len.toNat = true) :
    ∃ m, Scattered chain frame (taken s).mem m
      ∧ rxChain (disabled .rx s.rxq.usedAddr s) = .ok true (filled s (availHead s .rx) chain frame m) := by
  have hdisabled : Reached .rx s (disabled .rx s.rxq.usedAddr s) := reached_disabled (reached_refl hmem) hr
  have hwalk : walkChain .rx (availHead s .rx) (disabled .rx s.rxq.usedAddr s)
      = .ok (some chain) (disabled .rx s.rxq.usedAddr s) :=
    walkChain_of_wellFormed (hdisabled.race.trans hq) (reached_tableAccessible hdisabled htable)
      ((reached_wellFormedChain_iff hdisabled hr).mpr hchain)
  have hpop : hostRxPop (disabled .rx s.rxq.usedAddr s)
      = (some (.frame frame), { disabled .rx s.rxq.usedAddr s with rxPort := [] }) := by
    rw [hostRxPop, show (disabled .rx s.rxq.usedAddr s).rxPort = [.frame frame] from hport]
  obtain ⟨m, hscattered, htransfer⟩ :=
    rxTransfer_quiet (s := taken s) frame hq hdisabled.wf hbuffers
  have hpost := reached_usedPost (reached_transferred (s := s) (chain := chain) (frame := frame) hscattered.wf) hq
    (ringsAccessible_with_mem haccess m) rfl (availHead s .rx)
    (BitVec.ofNat 32 (min frame.length (capacity chain)))
  refine ⟨m, hscattered, ?_⟩
  rw [rxChain, reached_availPeek hdisabled hq hr haccess hz rfl, Res.bind_ok, hwalk, Res.bind_ok]
  simp only [rxDeliver, hpop]
  rw [← taken, htransfer, Res.bind_ok, hpost, Res.bind_ok]
  rfl

/-- The pump takes the frame in its first round and finds no other in its second. -/
theorem rxLoop_delivers (hz : 0 < s.rxq.size.toNat) (hport : s.rxPort = [.frame frame])
    (havail : availIdx s .rx ≠ s.rxq.nextAvail)
    (htable : ∀ k : Half, k.toNat < s.rxq.size.toNat → accessOk s (descEntryAddr s.rxq k) 16 = true)
    (hchain : WellFormedChain s .rx (availHead s .rx) chain)
    (hbuffers : ∀ d ∈ chain, d.len ≠ 0#32 → accessOk s d.addr d.len.toNat = true) :
    ∃ m, Scattered chain frame (taken s).mem m
      ∧ rxLoop (drainFuel (disabled .rx s.rxq.usedAddr s)) (disabled .rx s.rxq.usedAddr s)
          = some (.ok () (delivered s (availHead s .rx) chain frame m)) := by
  have hdisabled : Reached .rx s (disabled .rx s.rxq.usedAddr s) := reached_disabled (reached_refl hmem) hr
  obtain ⟨m, hscattered, htaken⟩ := rxChain_delivers hq hmem hr haccess hz hport htable hchain hbuffers
  have hwaiting : (disabled .rx s.rxq.usedAddr s).rxPort ≠ [] := by
    rw [show (disabled .rx s.rxq.usedAddr s).rxPort = [.frame frame] from hport]
    exact List.cons_ne_nil _ _
  have hempty : (filled s (availHead s .rx) chain frame m).rxPort = [] := by
    rw [filled, posted_eq]
    rfl
  refine ⟨m, hscattered, ?_⟩
  obtain ⟨fuel, hfuel⟩ := drainFuel_three (disabled .rx s.rxq.usedAddr s)
  rw [hfuel, rxLoop_of_pending hwaiting (reached_availPending_true hdisabled hq hr haccess havail) htaken]
  exact reached_rxLoop_end (reached_filled hr hz _ hscattered.wf) hq hr (ringsAccessible_with_mem haccess m)
    (.inl hempty) (fuel + 1)

/-- The pump delivers the frame and decides on the interrupt: the state it ends in, as one update. -/
theorem pumpRx_delivers (hz : 0 < s.rxq.size.toNat) (hport : s.rxPort = [.frame frame])
    (havail : availIdx s .rx ≠ s.rxq.nextAvail) (hposted : s.rxq.nextUsed = s.rxq.signalledUsed)
    (htable : ∀ k : Half, k.toNat < s.rxq.size.toNat → accessOk s (descEntryAddr s.rxq k) 16 = true)
    (hchain : WellFormedChain s .rx (availHead s .rx) chain) (hfit : BuffersFit s .rx chain) :
    ∃ m t, Scattered chain frame (taken s).mem m ∧ pumpRx s = some t
      ∧ t.mem = (delivered s (availHead s .rx) chain frame m).mem
      ∧ t = { s with
          rxq := { s.rxq with
            notifySuppressed := false
            nextAvail := s.rxq.nextAvail + 1#16
            nextUsed := s.rxq.nextUsed + 1#16
            signalledUsed := s.rxq.nextUsed + 1#16 }
          rxPort := []
          mem := t.mem
          diag := { s.diag with
            oversizedFrames := s.diag.oversizedFrames + if capacity chain < frame.length then 1 else 0 }
          errorLog := s.errorLog ++
            if capacity chain < frame.length then [.oversizedFrame frame.length (capacity chain)] else []
          history := s.history ++
            (if (availFlags s .rx).getLsbD 0 = false ∧ s.interruptStatus &&& s.cfg.irqBitRx = 0#32
             then [.irqPulse 1] else [])
          interruptStatus :=
            if (availFlags s .rx).getLsbD 0 = false then s.interruptStatus ||| s.cfg.irqBitRx
            else s.interruptStatus } := by
  obtain ⟨m, hscattered, hloop⟩ :=
    rxLoop_delivers hq hmem hr haccess hz hport havail htable hchain hfit.accessible
  have hdelivered : Reached .rx { s with mem := m } (delivered s (availHead s .rx) chain frame m) :=
    reached_delivered hr hz _ hscattered.wf
  have hupdate := delivered_eq s (availHead s .rx) chain frame m
  have hnew : (delivered s (availHead s .rx) chain frame m).rxq.nextUsed
      ≠ (delivered s (availHead s .rx) chain frame m).rxq.signalledUsed := by
    rw [hupdate]
    exact hposted ▸ half_succ_ne _
  have hnotify := reached_maybeNotify_eq hdelivered hq hr (ringsAccessible_with_mem haccess m) hnew
  rw [availFlags_scattered hmem hr hscattered hfit.offRings] at hnotify
  have hpump := pumpRx_of_drained (reached_notifyDisable (reached_refl hmem) hq haccess) hloop hnotify
  refine ⟨m, _, hscattered, hpump, rfl, ?_⟩
  clear hpump hnotify hnew hdelivered hloop
  generalize delivered s (availHead s .rx) chain frame m = d at hupdate ⊢
  generalize d.mem = v at hupdate
  subst hupdate
  rfl

end delivery

/-- Settles O47: the first round takes the frame, the second finds none, and then the interrupt decision sees the posted
entry; the frame's bytes lie off the rings, so that posting and reading the flag do not meet them. -/
theorem rxPumpDeliversOneFrame : Obligations.RxPumpDeliversOneFrame := by
  rintro s chain frame n hwf hq hmem hop hconf haccess hr hport hlen havail hposted htable hchain hfit rfl
  have hz := configured_size_pos hconf
  obtain ⟨m, t, hscattered, hpump, htm, ht⟩ :=
    pumpRx_delivers hq hmem hr haccess hz hport havail hposted htable hchain hfit
  obtain ⟨hevent, hbus⟩ := exec_of_pumped hop hconf hwf hpump
  have hword : (BitVec.ofNat 32 (min frame.length (capacity chain))).toNat = min frame.length (capacity chain) := by
    rw [BitVec.toNat_ofNat, Nat.mod_eq_of_lt (by omega)]
  have hw : (transferred chain frame m (taken s)).mem.wf = true := hscattered.wf
  refine ⟨t, hevent, hbus, ht, ?_⟩
  rw [htm]
  exact ⟨delivered_copied hr hz hscattered hfit, published_flags _ _ hw hr, published_idx _ _ hw hr hz,
    published_id _ _ hw hr hz, (published_len _ _ hw hr hz).trans (congrArg (bytesLE 4) hword),
    fun a => delivered_outside hmem hr hz hscattered⟩

end Sys2Proof.Machine
end

