-- ==== Sys2Proof/Proofs/Lifecycle.lean ====
section
/-! What an operation can do to the interrupt bits, the pulses and the lifecycle (spec/47_interrupt_signal.md R221 to
R224, spec/60_exceptions.md R237, R245): five kinds of operation, and the statements read off them. -/

namespace Sys2Proof.Machine

/-! ## Pulses among output events -/

/-- No event of the list is a pulse. -/
def Silent (es : List Event) : Prop := ∀ v, .irqPulse v ∉ es

theorem silent_nil : Silent [] := nofun

theorem silent_hostTxPush (frames : List (List Byte)) : Silent (frames.map Event.hostTxPush) := by
  intro v hv
  obtain ⟨bytes, -, h⟩ := List.mem_map.mp hv
  cases h

theorem silent_resetHook : Silent [.resetHook] := nofun

theorem silent_activateHook (features : Dword) : Silent [.activateHook features] := nofun

theorem Silent.pulses_eq_zero {es : List Event} (h : Silent es) : pulses es = 0 := by
  rw [pulses, List.length_eq_zero_iff, List.filter_eq_nil_iff]
  intro e he hpulse
  rw [beq_iff_eq] at hpulse
  exact h 1 (hpulse ▸ he)

theorem pulses_append (es fs : List Event) : pulses (es ++ fs) = pulses es + pulses fs := by
  rw [pulses, List.filter_append, List.length_append, pulses, pulses]

/-- From `s` to `t` output is only appended, at most one pulse among it, of value 1 and for a queue's bit that was
clear and is set, no other bit changing (R221, R222). -/
def PulsesOnEdge (s t : State) : Prop :=
  ∃ es, t.history = s.history ++ es ∧ pulses es ≤ 1
    ∧ (∀ v, .irqPulse v ∈ es → v = 1)
    ∧ (pulses es = 1 → ∃ q, s.interruptStatus &&& irqBit s.cfg q = 0#32
        ∧ t.interruptStatus = s.interruptStatus ||| irqBit s.cfg q)

section pulses

variable {i : QueueId} {s t u : State}

theorem PulsesOnEdge.of_silent {es : List Event} (hes : Silent es) (h : t.history = s.history ++ es) :
    PulsesOnEdge s t := by
  have hzero := hes.pulses_eq_zero
  exact ⟨es, h, by omega, fun v hv => absurd hv (hes v), fun hone => by omega⟩

/-- What precedes `MaybeNotify` adds no pulse and leaves the bits. -/
theorem PulsesOnEdge.of_work (hwork : WorkStep i s u) (h : PulsesOnEdge u t) : PulsesOnEdge s t := by
  obtain ⟨hbits, frames, hsent⟩ := hwork.2
  obtain ⟨es, hes, hmost, hvalue, hedge⟩ := h
  have hsilent := silent_hostTxPush frames
  have hcount : pulses (frames.map Event.hostTxPush ++ es) = pulses es := by
    rw [pulses_append, hsilent.pulses_eq_zero, Nat.zero_add]
  refine ⟨frames.map Event.hostTxPush ++ es, by rw [hes, hsent, List.append_assoc], hcount ▸ hmost, fun v hv => ?_, ?_⟩
  · exact (List.mem_append.mp hv).elim (fun hv => absurd hv (hsilent v)) (hvalue v)
  · rw [hcount, ← hbits, ← hwork.1.cfg]
    exact hedge

/-- The interrupt decision itself (R221). -/
theorem IrqStep.pulsesOnEdge (h : IrqStep i s t) : PulsesOnEdge s t := by
  obtain ⟨-, hhistory⟩ | ⟨hraised, hhistory⟩ := h.cases
  · exact .of_silent silent_nil (by rw [hhistory, List.append_nil])
  · by_cases hedge : irqEdge s.interruptStatus (irqBit s.cfg i) = true
    · rw [if_pos hedge] at hhistory
      refine ⟨[.irqPulse 1], hhistory, le_refl 1, fun v hv => ?_, fun _ => ⟨i, eq_of_beq hedge, hraised⟩⟩
      exact Event.irqPulse.inj (List.mem_singleton.mp hv)
    · rw [if_neg hedge] at hhistory
      exact .of_silent silent_nil hhistory

end pulses

/-! ## What a run of the engine does -/

/-- The lifecycle fields and the count of guest memory faults are as before. -/
structure KeepsLifecycle (s t : State) : Prop where
  status : t.status = s.status
  operational : t.operational = s.operational
  failedByDevice : t.failedByDevice = s.failedByDevice
  faults : t.diag.guestMemoryFaults = s.diag.guestMemoryFaults

/-- A guest memory fault has failed the device, without a pulse and with the interrupt bits as they were (R237). -/
structure FailsDevice (s t : State) : Prop where
  status : t.status = s.status ||| 0x80#8
  operational : t.operational = false
  failedByDevice : t.failedByDevice = true
  faults : t.diag.guestMemoryFaults = s.diag.guestMemoryFaults + 1
  interruptStatus : t.interruptStatus = s.interruptStatus
  history : ∃ es, t.history = s.history ++ es ∧ Silent es

/-- What an operation that runs the engine leaves behind: a normal end or a failed device, one pulse at most, and no
interrupt bit cleared. -/
structure EngineEffect (s t : State) : Prop where
  running : s.operational = true
  lifecycle : KeepsLifecycle s t ∨ FailsDevice s t
  pulse : PulsesOnEdge s t
  bits : ∀ k, s.interruptStatus.getLsbD k = true → t.interruptStatus.getLsbD k = true

section engine

variable {i : QueueId} {s t : State}

theorem KeepsLifecycle.refl (s : State) : KeepsLifecycle s s := ⟨rfl, rfl, rfl, rfl⟩

theorem EngineStep.keepsLifecycle (h : EngineStep i s t) : KeepsLifecycle s t :=
  ⟨h.status, h.operational, h.failedByDevice, h.faults⟩

theorem WorkStep.failsDevice (h : WorkStep i s t) (a n : Nat) : FailsDevice s (deviceFail a n t) := by
  obtain ⟨hbits, frames, hsent⟩ := h.2
  have hkept := h.1.keepsLifecycle
  exact ⟨congrArg (· ||| 0x80#8) hkept.status, rfl, rfl, congrArg (· + 1) hkept.faults, hbits,
    _, hsent, silent_hostTxPush frames⟩

theorem FailsDevice.pulsesOnEdge (h : FailsDevice s t) : PulsesOnEdge s t := by
  obtain ⟨es, hhistory, hsilent⟩ := h.history
  exact .of_silent hsilent hhistory

/-- `MaybeNotify` clears no bit. -/
theorem IrqStep.bits (h : IrqStep i s t) (k : Nat) (hk : s.interruptStatus.getLsbD k = true) :
    t.interruptStatus.getLsbD k = true := by
  obtain ⟨hkept, -⟩ | ⟨hraised, -⟩ := h.cases
  · rw [hkept, hk]
  · rw [hraised, BitVec.getLsbD_or, hk, Bool.true_or]

theorem DrainStep.engineEffect (h : DrainStep i s t) (hrunning : s.operational = true) : EngineEffect s t := by
  cases h with
  | normal u _ work last irq =>
    have hlifecycle := (work.1.trans last).keepsLifecycle
    exact ⟨hrunning, .inl hlifecycle, .of_work work irq.pulsesOnEdge,
      fun k hk => irq.bits k (work.2.interruptStatus ▸ hk)⟩
  | failed a n u work =>
    have hfailed := work.failsDevice a n
    exact ⟨hrunning, .inr hfailed, hfailed.pulsesOnEdge, fun k hk => hfailed.interruptStatus ▸ hk⟩

/-- The bus reply touches none of this. -/
theorem EngineEffect.busOk (h : EngineEffect s t) : EngineEffect s (busOk t) :=
  ⟨h.running, h.lifecycle.imp (fun hk => ⟨hk.status, hk.operational, hk.failedByDevice, hk.faults⟩)
    (fun hf => ⟨hf.status, hf.operational, hf.failedByDevice, hf.faults, hf.interruptStatus, hf.history⟩),
    h.pulse, h.bits⟩

/-- A notify that answers is rejected, or has run the engine and answers `Ok` (R127, R236). -/
theorem execWrQueueNotify_next {v : Word} (h : execWrQueueNotify v s = .next t) :
    t = refuseWrite .queueNotify s ∨ EngineEffect s t ∧ t.busOutcome = some .ok := by
  unfold execWrQueueNotify at h
  split at h
  next noQueue => cases h; exact .inl rfl
  next i hi =>
    split at h
    next notOperational => cases h; exact .inl rfl
    next hop =>
      split at h
      next notConfigured => cases h; exact .inl rfl
      next =>
        split at h
        next u hu =>
          cases h
          exact .inr ⟨((processQueue_step hu).engineEffect (by simpa using hop)).busOk, rfl⟩
        next => cases h

/-- The RX event is ignored or runs the engine (R205). -/
theorem execEvtHostRxReady_next (h : execEvtHostRxReady s = .next t) : t = s ∨ EngineEffect s t := by
  unfold execEvtHostRxReady at h
  split at h
  next ignored => cases h; exact .inl rfl
  next hready =>
    have hop : s.operational = true := by
      rw [Bool.or_eq_true, not_or, Bool.not_eq_true, Bool.not_eq_false'] at hready
      exact hready.1
    split at h
    next u hu => cases h; exact .inr ((pumpRx_step hu).engineEffect hop)
    next => cases h

end engine

/-! ## What an operation can do -/

/-- The lifecycle, the interrupt bits and the output are as before. -/
structure KeepsSignals (s t : State) : Prop where
  lifecycle : KeepsLifecycle s t
  interruptStatus : t.interruptStatus = s.interruptStatus
  history : t.history = s.history

/-- The operations that start the engine. -/
def StartsEngine (i : Instr) : Prop := (∃ v, i = .wrQueueNotify v) ∨ i = .evtHostRxReady

/-- The five kinds of operation, by what they do to the lifecycle, the interrupt bits and the output. -/
inductive SignalStep (s t : State) : Instr → Prop where
  | kept (i : Instr) (kept : KeepsSignals s t) : SignalStep s t i
  | acked (v : Word) (lifecycle : KeepsLifecycle s t) (history : t.history = s.history)
      (bits : t.interruptStatus = ackBits s.interruptStatus v) : SignalStep s t (.wrInterruptAck v)
  | statusWritten (v : Word) (written : t = busOk (writeStatus (statusByte v) s)) : SignalStep s t (.wrStatus v)
  | engine (i : Instr) (starts : StartsEngine i) (effect : EngineEffect s t) : SignalStep s t i
  | poweredOn (powered : t = powerOn s) : SignalStep s t .evtPowerOn

section operations

variable {s t : State}

theorem KeepsSignals.refl (s : State) : KeepsSignals s s := ⟨.refl s, rfl, rfl⟩

/-- From an operation that always answers to the state it answers. -/
theorem KeepsSignals.of_next {u : State} (h : (.next u : Host.Outcome State Fault Refusal) = .next t)
    (hu : KeepsSignals s u) : KeepsSignals s t := by
  cases h
  exact hu

theorem busRead_keepsSignals (data : List Byte) (s : State) : KeepsSignals s (busRead data s) :=
  ⟨⟨rfl, rfl, rfl, rfl⟩, rfl, rfl⟩

theorem raiseRegisterError_keepsSignals (d : Dir) (o : Offset) (n : Nat) (s : State) :
    KeepsSignals s (raiseRegisterError d o n s) := ⟨⟨rfl, rfl, rfl, rfl⟩, rfl, rfl⟩

theorem refuseWrite_keepsSignals (r : Reg) (s : State) : KeepsSignals s (refuseWrite r s) :=
  raiseRegisterError_keepsSignals ..

theorem busOk_setQueue_keepsSignals (i : QueueId) (q : Queue) (s : State) :
    KeepsSignals s (busOk (s.setQueue i q)) := by
  cases i with
  | rx | tx => exact ⟨⟨rfl, rfl, rfl, rfl⟩, rfl, rfl⟩

theorem execRdConfig_keepsSignals {k : Offset} {n : Nat} (h : execRdConfig k n s = .next t) : KeepsSignals s t := by
  unfold execRdConfig at h
  split at h
  next => exact .of_next h (busRead_keepsSignals _ s)
  next => exact .of_next h (raiseRegisterError_keepsSignals ..)

theorem execWrQueueNum_keepsSignals {v : Word} (h : execWrQueueNum v s = .next t) : KeepsSignals s t := by
  unfold execWrQueueNum at h
  split at h
  next => exact .of_next h (refuseWrite_keepsSignals _ s)
  next i _ =>
    split at h
    next legal => exact .of_next h (busOk_setQueue_keepsSignals i _ s)
    next => exact .of_next h (refuseWrite_keepsSignals _ s)

theorem execWrQueuePfn_keepsSignals {v : Word} (h : execWrQueuePfn v s = .next t) : KeepsSignals s t := by
  unfold execWrQueuePfn at h
  split at h
  next => exact .of_next h (refuseWrite_keepsSignals _ s)
  next i _ => exact .of_next h (busOk_setQueue_keepsSignals i _ s)

/-- Each operation is of one of the five kinds. -/
theorem exec_signalStep {i : Instr} (h : exec i s = .next t) : SignalStep s t i := by
  cases i with
  | rdMagic | rdVersion | rdDeviceId | rdVendorId | rdHostFeatures | rdQueueNumMax | rdQueuePfn
  | rdInterruptStatus | rdStatus => exact .kept _ (.of_next h (busRead_keepsSignals _ s))
  | wrHostFeaturesSel v | wrGuestFeatures v | wrGuestFeaturesSel v | wrGuestPageSize v | wrQueueSel v
  | wrQueueAlign v => exact .kept _ (.of_next h ⟨⟨rfl, rfl, rfl, rfl⟩, rfl, rfl⟩)
  | wrConfig k n | invalidAccess dir o len => exact .kept _ (.of_next h (raiseRegisterError_keepsSignals ..))
  | rdConfig k n => exact .kept _ (execRdConfig_keepsSignals h)
  | wrQueueNum v => exact .kept _ (execWrQueueNum_keepsSignals h)
  | wrQueuePfn v => exact .kept _ (execWrQueuePfn_keepsSignals h)
  | wrInterruptAck v => cases h; exact .acked v ⟨rfl, rfl, rfl, rfl⟩ rfl rfl
  | wrStatus v => cases h; exact .statusWritten v rfl
  | wrQueueNotify v =>
    obtain rfl | ⟨heffect, -⟩ := execWrQueueNotify_next h
    · exact .kept _ (refuseWrite_keepsSignals _ s)
    · exact .engine _ (.inl ⟨v, rfl⟩) heffect
  | evtHostRxReady =>
    obtain rfl | heffect := execEvtHostRxReady_next h
    · exact .kept _ (.refl _)
    · exact .engine _ (.inr rfl) heffect
  | evtPowerOn => exact .poweredOn (execEvtPowerOn_next h).2

/-- The three ends of a Status write (R143): a reset, for 0 and FAILED; activation; the byte stored. -/
theorem writeStatus_cases (v : Word) (s : State) :
    ((v.toNat % 256 = 0 ∨ v.getLsbD 7 = true)
      ∧ writeStatus (statusByte v) s = { deviceReset s with status := statusByte v })
    ∨ (v.getLsbD 7 = false ∧ v.getLsbD 2 = true ∧ s.status.getLsbD 2 = false ∧ s.failedByDevice = false
      ∧ writeStatus (statusByte v) s = activate { s with status := statusByte v })
    ∨ writeStatus (statusByte v) s = { s with status := statusByte v } := by
  by_cases hzero : statusByte v = 0#8
  · refine .inl ⟨.inl (statusByte_eq_zero_iff.mp hzero), ?_⟩
    rw [hzero, writeStatus_zero]
    rfl
  · cases hfailed : failedBit (statusByte v) with
    | true => exact .inl ⟨.inr ((failedBit_statusByte v).symm.trans hfailed), writeStatus_of_failedBit s hfailed⟩
    | false =>
      cases hact : activates s (statusByte v) with
      | true =>
        obtain ⟨hold, hok, -, hfault⟩ := activates_eq_true_iff.mp hact
        exact .inr (.inl ⟨(failedBit_statusByte v).symm.trans hfailed, (driverOk_statusByte v).symm.trans hok, hold,
          hfault, writeStatus_of_activates s hfailed hact⟩)
      | false => exact .inr (.inr (writeStatus_of_not_activates s hzero hfailed hact))

/-- What an operation does to the lifecycle (spec/60_exceptions.md R245). -/
inductive LifecycleStep (s t : State) : Instr → Prop where
  | kept (i : Instr) (operational : t.operational = s.operational) (fault : t.failedByDevice = s.failedByDevice) :
      LifecycleStep s t i
  | reset (v : Word) (byte : v.toNat % 256 = 0 ∨ v.getLsbD 7 = true) (operational : t.operational = false)
      (hook : t.history = s.history ++ [.resetHook]) : LifecycleStep s t (.wrStatus v)
  | activated (v : Word) (driverOk : v.getLsbD 2 = true) (failed : v.getLsbD 7 = false)
      (raised : s.status.getLsbD 2 = false) (fault : s.failedByDevice = false) (operational : t.operational = true)
      (hook : t.history = s.history ++ [.activateHook (negotiated s)]) : LifecycleStep s t (.wrStatus v)
  | failed (i : Instr) (starts : StartsEngine i) (running : s.operational = true) (effect : FailsDevice s t) :
      LifecycleStep s t i
  | poweredOn (operational : t.operational = false) : LifecycleStep s t .evtPowerOn

theorem exec_lifecycleStep {i : Instr} (h : exec i s = .next t) : LifecycleStep s t i := by
  cases exec_signalStep h with
  | kept _ hkept => exact .kept i hkept.lifecycle.operational hkept.lifecycle.failedByDevice
  | acked v hkept => exact .kept _ hkept.operational hkept.failedByDevice
  | statusWritten v hwritten =>
    subst hwritten
    obtain ⟨hbyte, hreset⟩ | ⟨hfailed, hok, hold, hfault, hactive⟩ | hstored := writeStatus_cases v s
    · exact .reset v hbyte (by rw [hreset]; rfl) (by rw [hreset]; rfl)
    · exact .activated v hok hfailed hold hfault (by rw [hactive]; rfl) (by rw [hactive]; rfl)
    · exact .kept _ (by rw [hstored]; rfl) (by rw [hstored]; rfl)
  | engine _ hstarts heffect =>
    obtain hkept | hfailed := heffect.lifecycle
    · exact .kept i hkept.operational hkept.failedByDevice
    · exact .failed i hstarts heffect.running hfailed
  | poweredOn hpowered => subst hpowered; exact .poweredOn rfl

end operations

/-! ## The obligations -/

/-- Settles O54: only the engine sends a pulse; the hooks of a Status write are none. -/
theorem atMostOnePulsePerOperation : Obligations.AtMostOnePulsePerOperation := by
  intro i s t h
  cases exec_signalStep h with
  | kept _ hkept => exact PulsesOnEdge.of_silent silent_nil (by rw [hkept.history, List.append_nil])
  | acked v _ hhistory => exact PulsesOnEdge.of_silent silent_nil (by rw [hhistory, List.append_nil])
  | statusWritten v hwritten =>
    subst hwritten
    obtain ⟨-, hreset⟩ | ⟨-, -, -, -, hactive⟩ | hstored := writeStatus_cases v s
    · exact PulsesOnEdge.of_silent silent_resetHook (by rw [hreset]; rfl)
    · exact PulsesOnEdge.of_silent (silent_activateHook _) (by rw [hactive]; rfl)
    · exact PulsesOnEdge.of_silent silent_nil (by rw [hstored]; exact (List.append_nil _).symm)
  | engine _ _ heffect => exact heffect.pulse
  | poweredOn hpowered => exact PulsesOnEdge.of_silent silent_nil (by rw [hpowered, powerOn_history, List.append_nil])

/-- Settles O24: an operation that clears a bit is an acknowledge, the reset case of a Status write, or power-on; all
others keep the bits or add one. -/
theorem interruptBitsAreSticky : Obligations.InterruptBitsAreSticky := by
  intro i s t k h hset hclear
  have hchanged : t.interruptStatus ≠ s.interruptStatus := fun hsame => by rw [hsame, hset] at hclear; cases hclear
  cases exec_signalStep h with
  | kept _ hkept => exact absurd hkept.interruptStatus hchanged
  | acked v _ _ hbits =>
    rw [hbits, ackBits_getLsbD, hset, Bool.true_and, Bool.not_eq_false'] at hclear
    exact .inl ⟨v, rfl, hclear⟩
  | statusWritten v hwritten =>
    subst hwritten
    obtain ⟨hreset, -⟩ | ⟨-, -, -, -, hactive⟩ | hstored := writeStatus_cases v s
    · exact .inr (.inl ⟨v, rfl, hreset⟩)
    · exact absurd (by rw [hactive]; rfl) hchanged
    · exact absurd (by rw [hstored]; rfl) hchanged
  | engine _ _ heffect => rw [heffect.bits k hset] at hclear; cases hclear
  | poweredOn => exact .inr (.inr rfl)

/-- Settles O23, by what the operation does to the lifecycle. -/
theorem lifecycleTransitions : Obligations.LifecycleTransitions := by
  intro i s t h
  cases exec_lifecycleStep h with
  | kept _ hop hfault =>
    refine ⟨fun hdown hup => ?_, fun hup hdown => ?_, fun hfailed hdown => ⟨hop.trans hdown, .inl (hfault.trans hfailed)⟩⟩
    · cases hdown.symm.trans (hop.symm.trans hup)
    · cases hup.symm.trans (hop.symm.trans hdown)
  | reset v hbyte hop hhook =>
    refine ⟨fun _ hup => ?_, fun _ _ => .inl ⟨v, rfl, hbyte, hhook⟩, fun _ _ => ⟨hop, .inr (.inl ⟨v, rfl, hbyte⟩)⟩⟩
    cases hop.symm.trans hup
  | activated v hok hfailed hold hfault hop hhook =>
    refine ⟨fun _ _ => ⟨⟨v, rfl, hok, hfailed⟩, hold, hfault, hhook⟩, fun _ hdown => ?_, fun hdownByFault => ?_⟩
    · cases hop.symm.trans hdown
    · cases hfault.symm.trans hdownByFault
  | failed _ hstarts hrunning hfailed =>
    refine ⟨fun hdown => ?_, fun _ _ => .inr (.inl ⟨hstarts, hfailed.status, hfailed.failedByDevice, hfailed.faults⟩),
      fun _ hdown => ?_⟩
    · cases hrunning.symm.trans hdown
    · cases hrunning.symm.trans hdown
  | poweredOn hop =>
    refine ⟨fun _ hup => ?_, fun _ _ => .inr (.inr rfl), fun _ _ => ⟨hop, .inr (.inr rfl)⟩⟩
    cases hop.symm.trans hup

/-- Settles O51: an operation that starts the engine keeps every signal or is a run of it, and a notify that is not
rejected is answered after the run. -/
theorem engineEndsNormallyOrFailsTheDevice : Obligations.EngineEndsNormallyOrFailsTheDevice := by
  intro s t i hstarts h
  refine ⟨?ends, fun v hv => ?answer⟩
  case ends =>
    have hends : KeepsLifecycle s t ∨ s.operational = true ∧ FailsDevice s t := by
      cases exec_signalStep h with
      | kept _ hkept => exact .inl hkept.lifecycle
      | engine _ _ heffect => exact heffect.lifecycle.imp_right fun hfailed => ⟨heffect.running, hfailed⟩
      | acked | statusWritten | poweredOn => obtain ⟨v, hv⟩ | hv := hstarts <;> cases hv
    obtain hkept | ⟨hrunning, hfailed⟩ := hends
    · exact .inl ⟨hkept.status, hkept.operational, hkept.failedByDevice, hkept.faults⟩
    · obtain ⟨es, hhistory, hsilent⟩ := hfailed.history
      exact .inr ⟨hfailed.status, hrunning, hfailed.operational, hfailed.failedByDevice, hfailed.faults,
        hfailed.interruptStatus, es, hhistory, hsilent.pulses_eq_zero⟩
  case answer =>
    subst hv
    obtain hrefused | ⟨-, hok⟩ := execWrQueueNotify_next h
    · exact .inr hrefused
    · exact .inl hok

end Sys2Proof.Machine
end

