-- ==== Sys2Proof/Proofs/InterruptDecision.lean ====
section
/-! The interrupt decision while the guest is quiet (spec/47_interrupt_signal.md R221, R222). -/

namespace Sys2Proof.Machine

/-- `MaybeNotify` with entries posted and the driver's flags readable: the cursor follows, and the flag alone decides
whether the bit is raised. -/
theorem maybeNotify_quiet {s : State} {i : QueueId} (hq : quiet s)
    (hnew : (s.queue i).nextUsed ≠ (s.queue i).signalledUsed)
    (haccess : accessOk s (availFlagsAddr (s.queue i)) 2 = true) :
    maybeNotify i s = .ok ()
      (if (availFlags s i).getLsbD 0 then s.setQueue i { s.queue i with signalledUsed := (s.queue i).nextUsed }
       else raiseIrq i (s.setQueue i { s.queue i with signalledUsed := (s.queue i).nextUsed })) := by
  have hread := memRead16_quiet_ok (s := s.setQueue i { s.queue i with signalledUsed := (s.queue i).nextUsed })
    (a := availFlagsAddr (s.queue i)) ((setQueue_race ..).trans hq) ((accessOk_setQueue ..).trans haccess)
  rw [setQueue_mem, ← availFlags] at hread
  rw [maybeNotify, if_neg hnew, hread, Res.bind_ok, suppressFlag]
  split
  next suppressed => rfl
  next wanted => rfl

/-- Settles O38: the driver's flag and then the edge split the case of entries posted. -/
theorem maybeNotifyPulsesOnTheEdge : Obligations.MaybeNotifyPulsesOnTheEdge := by
  refine fun s i hq => ⟨maybeNotify_none, fun hnew haccess u hu => ?posted⟩
  case posted =>
    rw [maybeNotify_quiet hq hnew haccess, ← hu]
    have hbits : u.interruptStatus = s.interruptStatus := by rw [hu, setQueue_interruptStatus]
    have hcfg : u.cfg = s.cfg := by rw [hu, setQueue_cfg]
    have hhistory : u.history = s.history := by rw [hu, setQueue_history]
    refine ⟨fun hsuppressed => ?suppressed, fun hwanted hedge => ?edge, fun hwanted hset => ?level⟩
    case suppressed => rw [if_pos hsuppressed]
    case edge =>
      rw [if_neg (ne_true_of_eq_false hwanted), raiseIrq_eq, hbits, hcfg, hhistory, if_pos hedge]
    case level =>
      rw [if_neg (ne_true_of_eq_false hwanted), raiseIrq_eq, hbits, hcfg, if_neg hset, List.append_nil]

end Sys2Proof.Machine
end

