-- ==== Sys2Proof/Proofs/UnmappedRing.lean ====
section
/-! A used ring outside the mapped regions: the drain's first access faults (spec/60_exceptions.md R236, R237). -/

namespace Sys2Proof.Machine

/-- The state bit is set before the access to the ring (R176), so a fault there finds it set. -/
theorem notifyDisable_forbidden {i : QueueId} {s : State}
    (h : accessOk s (usedFlagsAddr (s.queue i)) 2 = false) :
    notifyDisable i s = .fault (usedFlagsAddr (s.queue i)).toNat 2
      (s.setQueue i { s.queue i with notifySuppressed := true }) := by
  rw [notifyDisable, memWrite16]
  exact memWrite_forbidden (bs := bytesLE 2 (1#16 : Half).toNat) (by decide) ((accessOk_setQueue ..).trans h)

theorem processTx_unmapped {s : State} (h : accessOk s (usedFlagsAddr s.txq) 2 = false) :
    processTx s = some (deviceFail (usedFlagsAddr s.txq).toNat 2
      (s.setQueue .tx { s.txq with notifySuppressed := true })) := by
  rw [processTx, notifyDisable_forbidden (i := .tx) h]
  rfl

/-- Settles O50: the drain is `DeviceFail` at its first access, and the notify answers `Ok` all the same. -/
theorem unmappedUsedRingFailsTheDevice : Obligations.UnmappedUsedRingFailsTheDevice := by
  intro s hwf hop hconf hunmapped
  rw [exec_wrQueueNotify_of_drained (i := .tx) (queueOf_one hwf) hop hconf (processTx_unmapped hunmapped)]
  rfl

end Sys2Proof.Machine
end

