-- ==== Sys2Proof/Proofs/PowerOn.lean ====
section
/-! Power-on (spec/70_reset_and_hazards.md R260): its refusals in their order, and the state it leaves. -/

namespace Sys2Proof.Machine

section powerOn

variable {s : State}

theorem exec_evtPowerOn (s : State) : exec .evtPowerOn s = execEvtPowerOn s := rfl

theorem exec_evtPowerOn_late (h : 1 < s.opsBegun) : exec .evtPowerOn s = .refused .powerOnNotFirst := by
  rw [exec_evtPowerOn, execEvtPowerOn, if_pos h]

theorem exec_evtPowerOn_badConfiguration (hfirst : s.opsBegun ≤ 1) (hbad : s.cfg.wf = false) :
    exec .evtPowerOn s = .refused .badConfiguration := by
  rw [exec_evtPowerOn, execEvtPowerOn, if_neg (Nat.not_lt_of_le hfirst), hbad, if_pos (by decide)]

theorem exec_evtPowerOn_extraFeatures (hfirst : s.opsBegun ≤ 1) (hwf : s.cfg.wf = true)
    (hextra : s.cfg.extraFeatures ≠ 0#64) : exec .evtPowerOn s = .refused .extraFeaturesUnsupported := by
  rw [exec_evtPowerOn, execEvtPowerOn, if_neg (Nat.not_lt_of_le hfirst), hwf, if_neg (by decide), if_pos hextra]

theorem exec_evtPowerOn_accepted (hfirst : s.opsBegun ≤ 1) (hwf : s.cfg.wf = true)
    (hextra : s.cfg.extraFeatures = 0#64) : exec .evtPowerOn s = .next (powerOn s) := by
  rw [exec_evtPowerOn, execEvtPowerOn, if_neg (Nat.not_lt_of_le hfirst), hwf, if_neg (by decide),
    if_neg (not_not_intro hextra)]

/-- Power-on finds in the reset state what it leaves (spec/10_state.md R33). -/
theorem powerOn_resetWith (c : Config) : powerOn (State.resetWith c) = State.resetWith c := rfl

end powerOn

/-- Settles O29: the four ends of the operation, one for each outcome of its three tests, and the reset state as a
state power-on accepts. -/
theorem powerOnSetsEveryField : Obligations.PowerOnSetsEveryField := by
  refine fun s => ⟨exec_evtPowerOn_accepted, exec_evtPowerOn_late, exec_evtPowerOn_badConfiguration,
    exec_evtPowerOn_extraFeatures, rfl, fun c hwf hextra => ?reset⟩
  case reset =>
    rw [exec_evtPowerOn_accepted (s := State.resetWith c) (Nat.zero_le 1) hwf hextra, powerOn_resetWith]

end Sys2Proof.Machine
end

