-- ==== Sys2Proof/Proofs/LostEntries.lean ====
section
/-! Drains in which nothing is posted while the guest is quiet: a malformed TX chain (spec/60_exceptions.md R232) and a
host read error on RX (R234). -/

namespace Sys2Proof.Machine

/-! ## A malformed TX chain -/

/-- The state in which the TX drain has taken and counted the malformed entry with this head. -/
def skipped (head : Half) (s : State) : State := countMalformedChain head (availAdvance .tx s)

/-- Taking and counting the entry, as one update. -/
theorem skipped_eq (head : Half) (s : State) :
    skipped head s = { s with
      txq := { s.txq with nextAvail := s.txq.nextAvail + 1#16 }
      diag := { s.diag with malformedChains := s.diag.malformedChains + 1 }
      errorLog := s.errorLog ++ [.malformedChain head] } := rfl

section malformed

variable {s t : State} (h : Reached .tx s t) (hq : quiet s) (hr : RingsApart s.txq) (haccess : RingsAccessible s .tx)

include h

theorem reached_skipped (head : Half) : Reached .tx s (skipped head t) := reached_of_eq (reached_availAdvance h) rfl

include hq hr haccess

/-- Peek, advance and walk, with no well-formed chain at the head. -/
theorem reached_txChain_malformed (hz : 0 < s.txq.size.toNat) (hnext : t.txq.nextAvail = s.txq.nextAvail)
    (htable : ∀ k : Half, k.toNat < s.txq.size.toNat → accessOk s (descEntryAddr s.txq k) 16 = true)
    (hbad : ¬ ∃ chain, WellFormedChain s .tx (availHead s .tx) chain) :
    txChain t = .ok () (skipped (availHead s .tx) t) := by
  have hadv := reached_availAdvance h
  have hwalk : walkChain .tx (availHead s .tx) (availAdvance .tx t) = .ok none (availAdvance .tx t) := by
    refine walkChain_of_malformed (hadv.race.trans hq) (reached_tableAccessible hadv htable) fun ⟨chain, hchain⟩ => ?_
    exact hbad ⟨chain, (reached_wellFormedChain_iff hadv hr).mp hchain⟩
  rw [txChain, reached_availPeek h hq hr haccess hz hnext, Res.bind_ok, hwalk, Res.bind_ok]
  rfl

end malformed

/-- Settles O44: one round takes and counts the entry, the next finds the cursor at the index, and with no entry posted
there is no interrupt decision. -/
theorem txNotifySkipsAMalformedChain : Obligations.TxNotifySkipsAMalformedChain := by
  intro s hwf hq hmem hop hconf haccess hr havail hposted htable hbad
  have hdisabled : Reached .tx s (disabled .tx s.txq.usedAddr s) := reached_disabled (reached_refl hmem) hr
  have hskipped := reached_skipped hdisabled (availHead s .tx)
  have hpending : availPending .tx (disabled .tx s.txq.usedAddr s) = .ok true (disabled .tx s.txq.usedAddr s) := by
    rw [reached_availPending hdisabled hq hr haccess, havail]
    exact congrArg (Res.ok · _) (bne_iff_ne.mpr (half_succ_ne _))
  have hchain := reached_txChain_malformed hdisabled hq hr haccess (configured_size_pos hconf) rfl htable hbad
  have hloop : txLoop (drainFuel (disabled .tx s.txq.usedAddr s)) (disabled .tx s.txq.usedAddr s)
      = some (.ok () (enabled .tx s.txq.usedAddr (skipped (availHead s .tx) (disabled .tx s.txq.usedAddr s)))) := by
    obtain ⟨fuel, hfuel⟩ := drainFuel_three (disabled .tx s.txq.usedAddr s)
    rw [hfuel, txLoop_of_pending hpending hchain]
    exact reached_txLoop_end hskipped hq hr haccess havail (fuel + 1)
  have hdrain : processTx s
      = some (enabled .tx s.txq.usedAddr (disabled .tx s.txq.usedAddr (skipped (availHead s .tx) s))) :=
    processTx_of_drained (reached_notifyDisable (reached_refl hmem) hq haccess) hloop (maybeNotify_none hposted)
  rw [exec_wrQueueNotify_of_drained (i := .tx) (queueOf_one hwf) hop hconf hdrain, enabled_disabled, skipped_eq]
  rfl

/-! ## A host read error -/

/-- The state in which the pump has taken the error off the port and counted it. -/
def frameLost (rest : List RxItem) (s : State) : State := countHostIoError { s with rxPort := rest }

section hostError

variable {s t : State} {rest : List RxItem} (h : Reached .rx s t) (hq : quiet s) (hr : RingsApart s.rxq)
  (haccess : RingsAccessible s .rx)

include h

theorem reached_frameLost (rest : List RxItem) : Reached .rx s (frameLost rest t) := reached_of_eq h rfl

include hq haccess

/-- The error in place of a frame ends the pump, the chain not taken. -/
theorem reached_rxDeliver_error (hport : t.rxPort = .error :: rest) (head : Half) (chain : List Desc) :
    rxDeliver head chain t = .ok false (enabled .rx s.rxq.usedAddr (frameLost rest t)) := by
  have henable := reached_notifyEnable (reached_frameLost h rest) hq haccess
  simp only [rxDeliver, hostRxPop, hport]
  rw [← frameLost, henable, Res.bind_ok]
  rfl

include hr

/-- Peek, walk and pop, with a well-formed chain at the head. -/
theorem reached_rxChain_error (hz : 0 < s.rxq.size.toNat) (hnext : t.rxq.nextAvail = s.rxq.nextAvail)
    (hport : t.rxPort = .error :: rest)
    (htable : ∀ k : Half, k.toNat < s.rxq.size.toNat → accessOk s (descEntryAddr s.rxq k) 16 = true)
    {chain : List Desc} (hchain : WellFormedChain s .rx (availHead s .rx) chain) :
    rxChain t = .ok false (enabled .rx s.rxq.usedAddr (frameLost rest t)) := by
  have hwalk : walkChain .rx (availHead s .rx) t = .ok (some chain) t :=
    walkChain_of_wellFormed (h.race.trans hq) (reached_tableAccessible h htable)
      ((reached_wellFormedChain_iff h hr).mpr hchain)
  rw [rxChain, reached_availPeek h hq hr haccess hz hnext, Res.bind_ok, hwalk, Res.bind_ok]
  exact reached_rxDeliver_error h hq haccess hport _ chain

end hostError

/-- The round in which the chain at the head ends the pump. -/
theorem rxLoop_of_ended {s t u : State} {fuel : Nat} (hport : s.rxPort ≠ [])
    (hpending : availPending .rx s = .ok true t) (hchain : rxChain t = .ok false u) :
    rxLoop (fuel + 1) s = some (.ok () u) := by
  simp [rxLoop, hostRxReady_of_waiting hport, hpending, hchain]

/-- Settles O48: the pump ends in its first round, and with no entry posted there is no interrupt decision. -/
theorem rxHostErrorLeavesTheChain : Obligations.RxHostErrorLeavesTheChain := by
  rintro s chain rest hwf hq hmem hop hconf haccess hr hport havail hposted htable hchain t rfl
  have hdisabled : Reached .rx s (disabled .rx s.rxq.usedAddr s) := reached_disabled (reached_refl hmem) hr
  have hwaiting : (disabled .rx s.rxq.usedAddr s).rxPort = .error :: rest := hport
  have hended := reached_rxChain_error hdisabled hq hr haccess (configured_size_pos hconf) rfl hwaiting htable hchain
  have hloop : rxLoop (drainFuel (disabled .rx s.rxq.usedAddr s)) (disabled .rx s.rxq.usedAddr s)
      = some (.ok () (enabled .rx s.rxq.usedAddr (frameLost rest (disabled .rx s.rxq.usedAddr s)))) := by
    obtain ⟨fuel, hfuel⟩ := drainFuel_three (disabled .rx s.rxq.usedAddr s)
    rw [hfuel]
    exact rxLoop_of_ended (hwaiting ▸ List.cons_ne_nil _ _)
      (reached_availPending_true hdisabled hq hr haccess havail) hended
  have hpump : pumpRx s
      = some (enabled .rx s.rxq.usedAddr (disabled .rx s.rxq.usedAddr (frameLost rest s))) :=
    pumpRx_of_drained (reached_notifyDisable (reached_refl hmem) hq haccess) hloop (maybeNotify_none hposted)
  rw [enabled_disabled] at hpump
  exact exec_of_pumped hop hconf hwf hpump

end Sys2Proof.Machine
end
